-- ==== Sys2Proof/Word.lean ====
section
/-! DEFINITION. The two data widths of HCE: the byte of the buffer memory and the 32-bit word of the registers,
the command word and the host bus (spec/00_scope.md R5, R6). Values are bit vectors only where the spec treats them
as bits; every address, length and bit count of a rule is a natural number (R7), reached with `toNat`. -/

namespace Sys2Proof

/-- A byte, `b[7:0]` (R6). -/
abbrev Byte := BitVec 8

/-- A 32-bit register value, command word, bus address or bus data, `v[31:0]` (R5, R6). -/
abbrev Word := BitVec 32

end Sys2Proof
end

