-- ==== Sys2Proof/Config.lean ====
section
/-! DEFINITION. What is fixed when the block is built (spec/00_scope.md R5), the OPEN parameters the spec gives no value
for, and the free values: constants without a body, of which nothing can be evaluated or proved. -/

namespace Sys2Proof

/-- The build parameters of one block (R5, R33): fixed when the block is built, the same in every state of a run.
`State.build` carries them, so that a statement about every state speaks of every build (log entry 2). -/
structure Build where
  /-- `FREQ`: the weight of each of the `NSYM = 256` byte values, an unbounded natural (R140). -/
  freq : Vector Nat 256
  /-- `BUF_BYTES`: the number of cells of buffer memory (R71). -/
  bufBytes : Nat
  /-- `ENC_RAW_FALLBACK`: may `ENCODE` emit the raw escape (R146). -/
  encRawFallback : Bool
  deriving DecidableEq, Repr

namespace Config

/-- The reference table's 256 weights, which the spec leaves OPEN (R140, 92 D3): no value is assumed. -/
opaque freq : Vector Nat 256

/-- The build of the block that `State.reset` describes: the OPEN table, and R5's decided defaults
`BUF_BYTES = 16384` and `ENC_RAW_FALLBACK = true`. -/
def build : Build := { freq := freq, bufBytes := 16384, encRawFallback := true }

/-- `ID_VALUE` (R35): the constant of the `ID` register, ASCII "HCE1". -/
def idValue : Word := 0x48434531

/-- `BLOCK_BASE` (R72): where the platform places the block, OPEN. -/
opaque blockBase : Nat

/-- The platform's decode limit (R72): how many bytes of host address space reach the block, OPEN. -/
opaque decodeLimit : Nat

/-- `PROTO_VERSION_BYTES` (R220, 92 D40): what the host places after `BeginConnection`'s opcode, OPEN. -/
opaque protoVersionBytes : List Byte

/-- FREE VALUE. The n-th "any 32-bit value": a read of `RES_ADDR`, `RES_LEN`, `RES_OPCODE` or `ERR_INFO` while
`BUSY = 1` (R333), and the latched registers after a soft reset (R322). Log entry 4. -/
opaque freeWord : Nat → Word

/-- FREE VALUE. The n-th "any byte": a host read of a written in-flight destination cell (R333). Log entry 4. -/
opaque freeByte : Nat → Byte

/-- FREE VALUE. What an aborted command left in the n-th cell of its destination region (R322): `none` is the cell as
it was, `some b` is the byte `b` written. Log entry 5. -/
opaque abortedCell : Nat → Option Byte

end Config

end Sys2Proof
end

