-- ==== Sys2Proof/Machine/Huffman.lean ====
section
/-! DEFINITION. The codec's pure part (spec/40_huffman.md R140 to R147): the tree built from the frequency table, the
path codes, bit packing, and the transforms of `ENCODE` and `DECODE` on byte sequences. -/

namespace Sys2Proof.Machine

/-- The Huffman tree: a leaf stands for a byte, a node's first child is `LEFT` (bit 0), its second `RIGHT` (bit 1)
(R141). Node numbers are used only to order the pool. -/
inductive Tree where
  | leaf (s : Byte)
  | node (left right : Tree)
  deriving DecidableEq, Repr

/-- A pool entry of `BuildTree` (R141): the weight, the node number (its insertion order) and the subtree it stands
for. -/
structure PoolEntry where
  weight : Nat
  id : Nat
  tree : Tree
  deriving DecidableEq, Repr

/-- The strict lexicographic order of `(weight, id)` (R141). -/
def precedes (x y : PoolEntry) : Bool :=
  bif Nat.beq x.weight y.weight then Nat.blt x.id y.id else Nat.ble x.weight y.weight

/-- The least entry of the non-empty pool `x :: p`, and the pool without it (R141). -/
def takeLeast : PoolEntry → List PoolEntry → PoolEntry × List PoolEntry
  | x, [] => (x, [])
  | x, y :: p =>
    bif precedes y x then
      match takeLeast y p with
      | (least, rest) => (least, x :: rest)
    else
      match takeLeast x p with
      | (least, rest) => (least, y :: rest)

/-- `k` merges of the two least entries, the first of them the bit-0 child; the new nodes are numbered from `n` on
(R141). -/
def mergePool : Nat → Nat → List PoolEntry → List PoolEntry
  | 0, _, p => p
  | _ + 1, _, [] => []
  | k + 1, n, e :: p =>
    match takeLeast e p with
    | (x, []) => [x]
    | (x, f :: q) =>
      match takeLeast f q with
      | (y, rest) =>
        mergePool k (n + 1) ({ weight := x.weight + y.weight, id := n, tree := .node x.tree y.tree } :: rest)

/-- The pool of the 256 leaves, leaf `s` standing for byte `s` with number `s` (R141). -/
def leafPool (freq : Vector Nat 256) : List PoolEntry :=
  freq.toList.zipIdx.map fun (w, s) => { weight := w, id := s, tree := .leaf (BitVec.ofNat 8 s) }

/-- `BuildTree(FREQ)` (R141): 255 merges, the new nodes numbered 256 to 510, and the one entry left is the root. The
empty pool, which the 256 leaves never leave, has the tree of byte 0 (log entry 12). -/
def buildTree (freq : Vector Nat 256) : Tree :=
  match mergePool 255 256 (leafPool freq) with
  | [] => .leaf 0
  | e :: _ => e.tree

/-- The path from the root to the leaf of `s`, 0 for left and 1 for right (R142). -/
def Tree.path? : Tree → Byte → Option (List Bool)
  | .leaf x, s => if x = s then some [] else none
  | .node l r, s =>
    match l.path? s with
    | some p => some (false :: p)
    | none => (r.path? s).map (true :: ·)

/-- `Code(s)` (R142). Every byte is a leaf of a built tree, so the default is never used (log entry 12). -/
def Tree.code (t : Tree) (s : Byte) : List Bool := (t.path? s).getD []

/-- `L_MAX` (R142): the length of the longest code. -/
def Tree.lMax (t : Tree) : Nat := (List.range 256).foldr (fun s m => max (t.code (BitVec.ofNat 8 s)).length m) 0

/-- The step of the decoder's node to a child (R147). The decoder never stands at a leaf (log entry 12). -/
def Tree.child : Tree → Bool → Tree
  | .leaf s, _ => .leaf s
  | .node l r, b => bif b then r else l

/-! ### Bit packing -/

/-- The number whose bit `k` is element `k` of the list (R144). -/
def bitsToNat : List Bool → Nat
  | [] => 0
  | b :: bs => cond b 1 0 + 2 * bitsToNat bs

/-- `m` bytes of a bit sequence, LSB first: bit `k` of byte `j` is bit `8*j + k` of the sequence (R144). -/
def packBytes : Nat → List Bool → List Byte
  | 0, _ => []
  | m + 1, q => BitVec.ofNat 8 (bitsToNat (q.take 8)) :: packBytes m (q.drop 8)

/-- The bits of a byte, bit 0 first (R144). -/
def byteBits (b : Byte) : List Bool :=
  [b.getLsbD 0, b.getLsbD 1, b.getLsbD 2, b.getLsbD 3, b.getLsbD 4, b.getLsbD 5, b.getLsbD 6, b.getLsbD 7]

/-- The stream bits of the data bytes: stream bit `i` is bit `i mod 8` of data byte `floor(i / 8)` (R144). -/
def unpackBytes (bs : List Byte) : List Bool := bs.flatMap byteBits

/-- `ceil(x / 8)` (R7). -/
def ceil8 (x : Nat) : Nat := (x + 7) / 8

/-- The header byte of the raw escape (R145). -/
def rawHeader : Byte := 0xFF

/-- The stream `ENCODE` makes of the bytes `inp` (R146): the raw escape where it is allowed and strictly shorter, else
the coded form with `p` zero padding bits. -/
def encodeStream (t : Tree) (rawFallback : Bool) (inp : List Byte) : List Byte :=
  let bits := inp.flatMap t.code
  let m := ceil8 bits.length
  if rawFallback ∧ inp.length < m then rawHeader :: inp
  else
    let p := 8 * m - bits.length
    BitVec.ofNat 8 p :: packBytes m (bits ++ List.replicate p false)

/-! ### Decoding -/

/-- How the decoder's walk over the meaningful bits ends (R147). -/
inductive WalkEnd where
  /-- The bits end at the root. -/
  | complete
  /-- A byte would be the `c+1`-th; its code starts at bit `start`. -/
  | overflow (start : Nat)
  /-- The bits end inside the code that starts at bit `start`. -/
  | truncated (start : Nat)
  deriving DecidableEq, Repr

/-- The loop of `DECODE` (R147) over the meaningful bits still to come, `i` the index of the first of them. `node` is
none at `ROOT`, else the subtree reached inside the code that began at bit `start`; `out` are the bytes decoded. -/
def walk (t : Tree) (c : Nat) : List Bool → Nat → Option Tree → Nat → List Byte → List Byte × WalkEnd
  | [], _, none, _, out => (out, .complete)
  | [], _, some _, start, out => (out, .truncated start)
  | bit :: bits, i, node, start, out =>
    match (node.getD t).child bit with
    | .leaf s =>
      if out.length = c then (out, .overflow start)
      else walk t c bits (i + 1) none (i + 1) (out ++ [s])
    | .node l r => walk t c bits (i + 1) (some (.node l r)) start out

/-- The meaningful bits of a coded stream with header `h` and data bytes `data` (R145, R147): the first
`T = 8*(n-1) - h` stream bits. -/
def meaningfulBits (h : Byte) (data : List Byte) : List Bool :=
  (unpackBytes data).take (8 * data.length - h.toNat)

/-- The walk of a coded stream, from the root (R147). -/
def decodeCoded (t : Tree) (c : Nat) (h : Byte) (data : List Byte) : List Byte × WalkEnd :=
  walk t c (meaningfulBits h data) 0 none 0 []

end Sys2Proof.Machine
end

