-- ==== Sys2Proof/Machine/State.lean ====
section
/-! DEFINITION. The state of HCE as plain data: everything spec/10_state.md R32 lists, the build parameters (R5), and
the model's own fields (the turns to come, the host's record of bus responses, the counter of free values). The host
bus operations the agenda holds, the register names and the faults and refusals stand here too. -/

namespace Sys2Proof.Machine

/-- Buffer memory (R48): the WRITTEN cells as (offset, byte) pairs, offsets strictly rising. A cell that is not listed
is unwritten and reads as no value (R83), so no listed entry equals what an unlisted one reads as. -/
abbrev Memory := List Host.Cell

/-- The fields of `STATUS` (R37). Reserved bits read 0 and ignore writes, so the fields are all there is. -/
structure Status where
  /-- Bit 0: a command is issued and its engine step has not happened (R47). -/
  busy : Bool
  /-- Bit 1: a command completed. -/
  done : Bool
  /-- Bit 2: it completed with an error. -/
  err : Bool
  /-- Bit 3, sticky: a `CMD` write was dropped. -/
  overrun : Bool
  /-- Bit 4: a frame is open. -/
  frameOpen : Bool
  /-- Bits 11:8: the error code of R283. -/
  errCode : BitVec 4
  /-- Bits 15:12: the sub-code of R283. -/
  errSub : BitVec 4
  deriving DecidableEq, Repr

/-- The four operand registers (R39 to R42); their latched copies have the same shape (R45). -/
structure Operands where
  srcAddr : Word
  srcLen : Word
  dstAddr : Word
  dstCap : Word
  deriving DecidableEq, Repr

/-- The result registers (R43, R44). -/
structure Results where
  /-- `RES_ADDR`. -/
  addr : Word
  /-- `RES_LEN`. -/
  len : Word
  /-- `RES_OPCODE[7:0]`; bits 31:8 read 0. -/
  opcode : Byte
  /-- `ERR_INFO`. -/
  errInfo : Word
  deriving DecidableEq, Repr

/-- The frame state `st.FB_BASE`, `st.FB_CAP`, `st.FB_CUR` (R46). -/
structure FrameState where
  base : Word
  cap : Word
  cur : Word
  deriving DecidableEq, Repr

/-- The named registers of the register window (R34). -/
inductive Reg where
  | id | ctrl | status | cmd | srcAddr | srcLen | dstAddr | dstCap | resAddr | resLen | resOpcode | errInfo | bufSize
  deriving DecidableEq, Repr

/-- The width of a host bus access (R73, R74). -/
inductive Width where
  | w8 | w16 | w32
  deriving DecidableEq, Repr

/-- A host bus operation (R70, R72): addresses are host bus byte addresses relative to `BLOCK_BASE`. An 8-bit write
carries its byte in `data[7:0]` (DESIGN CHOICE, log entry 11). -/
inductive BusOp where
  | read (width : Width) (addr : Word)
  | write (width : Width) (addr : Word) (data : Word)
  deriving DecidableEq, Repr

/-- What a host bus operation returns (R80): a data value, an acknowledgement, or the bus error response. -/
inductive BusResponse where
  /-- The data of an 8-bit read. -/
  | byte (b : Byte)
  /-- The data of a 32-bit read. -/
  | word (w : Word)
  /-- The acknowledgement of a write. -/
  | ack
  /-- The bus error response. -/
  | busError
  deriving DecidableEq, Repr

/-- One turn of the total order of transitions (R86): who moves, and for the host, with which bus operation. -/
inductive Turn where
  /-- The host performs a bus operation. -/
  | host (op : BusOp)
  /-- The engine performs the issued command, if there is one. -/
  | engine
  /-- The platform asserts the hard reset input (R320). -/
  | hardReset
  deriving DecidableEq, Repr

/-- The whole state of the block (R32), its build (R5), and the model's own `fresh`, `agenda` and `busLog`. -/
structure State where
  /-- The build parameters, constant (R5, R33). -/
  build : Build
  /-- `CTRL.IE` (R36). -/
  ie : Bool
  /-- `STATUS` (R37). -/
  status : Status
  /-- `SRC_ADDR`, `SRC_LEN`, `DST_ADDR`, `DST_CAP` as the host wrote them (R39 to R42). -/
  opnd : Operands
  /-- `RES_ADDR`, `RES_LEN`, `RES_OPCODE`, `ERR_INFO` (R43, R44). -/
  res : Results
  /-- `lat.CMD`: the issued command word (R45). -/
  latCmd : Word
  /-- `lat.SRC_ADDR`, `lat.SRC_LEN`, `lat.DST_ADDR`, `lat.DST_CAP` (R45). -/
  lat : Operands
  /-- The frame state (R46). -/
  frame : FrameState
  /-- Buffer memory (R48). -/
  buf : Memory
  /-- The model's own: the number of the next free value (log entry 4). -/
  fresh : Nat
  /-- The model's own: the turns to come, in the total order of R86 (log entry 1). -/
  agenda : List Turn
  /-- The model's own: what the host's bus operations returned, newest first (log entry 9). -/
  busLog : List BusResponse
  deriving DecidableEq, Repr

/-- The faults of a model run (R285, 93 U26: the run is stuck, the fault is never cleared). -/
inductive Fault where
  /-- A read of a buffer cell nothing has written (R83), by the engine's `MemRead` or a host `LB`/`LW`, at this offset,
  the first of several (log entry 8). Safe: the hardware returns some byte, and no claim is proved of such a run. -/
  | uninitRead (addr : Nat)
  /-- A host `SB`/`SW` into the in-flight command's source or destination region while `BUSY = 1` (R334), at this
  offset, the first of several (log entry 25). Safe: the hardware's result is not defined, and no claim is proved of such
  a run. -/
  | hostWriteWhileBusy (addr : Nat)
  /-- The engine reached for a buffer offset at or beyond `BUF_BYTES`, which does not exist (R70, R81, R82). Raised by
  `State.readBytes` and `State.writeBytes` only; every command checks its regions first, so it happens only in a state
  that breaks the frame invariant of R46, which no run from reset reaches. A write names its region's first offset. Safe
  (log entry 15). -/
  | outsideBuffer (addr : Nat)
  deriving DecidableEq, Repr

/-- Why a step has no meaning. -/
inductive Refusal where
  /-- A command that the model has no meaning for yet, by its mnemonic. Raised by no arm of this model. Safe. -/
  | notModelled (mnemonic : String)
  /-- The build is no valid model instance (R5, 93 U21). Raised by `step`. Safe: the spec rejects the configuration
  (log entry 10). -/
  | invalidBuild
  deriving DecidableEq, Repr

/-- The outcomes of a step of this machine. -/
abbrev Out := Host.Outcome State Fault Refusal

/-- `STATUS` with every field 0. -/
def Status.zero : Status :=
  { busy := false, done := false, err := false, overrun := false, frameOpen := false, errCode := 0, errSub := 0 }

/-- Four operand registers of value 0. -/
def Operands.zero : Operands := { srcAddr := 0, srcLen := 0, dstAddr := 0, dstCap := 0 }

/-- The result registers at 0. -/
def Results.zero : Results := { addr := 0, len := 0, opcode := 0, errInfo := 0 }

/-- The frame state at 0. -/
def FrameState.zero : FrameState := { base := 0, cap := 0, cur := 0 }

/-- The hard reset state (R321), of a block of the build `Config.build`. The latched registers, which R321 leaves
unspecified, are 0 (DESIGN CHOICE, log entry 3); the model's own fields start empty (DESIGN CHOICE, log entry 6). -/
def State.reset : State :=
  { build := Config.build
    ie := false
    status := Status.zero
    opnd := Operands.zero
    res := Results.zero
    latCmd := 0
    lat := Operands.zero
    frame := FrameState.zero
    buf := []
    fresh := 0
    agenda := []
    busLog := [] }

end Sys2Proof.Machine
end

