-- ==== Sys2Proof/Machine/Flags.lean ====
section
/-! DEFINITION. The flags of HCE: `STATUS` and `CTRL` as register values (spec/10_state.md R36, R37), what a `STATUS`
write clears, what a completion leaves in `STATUS` (spec/60_exceptions.md R281, R282), the error codes (R283) and the
interrupt output (R49). There are no arithmetic condition codes (R50). -/

namespace Sys2Proof.Machine

/-- The error conditions a command can complete with (R283). -/
inductive ErrorCode where
  | corruptStream | malformedPacket | range | overlap | dstOverflow | illegalCommand | frameNotOpen
  deriving DecidableEq, Repr

/-- `code(E)` (R283). Codes 8 to 15 are never produced. -/
def errorCode : ErrorCode → BitVec 4
  | .corruptStream => 1
  | .malformedPacket => 2
  | .range => 3
  | .overlap => 4
  | .dstOverflow => 5
  | .illegalCommand => 6
  | .frameNotOpen => 7

/-- A flag at bit position `k` of a register value. -/
def flagBit (b : Bool) (k : Nat) : Word := (BitVec.ofBool b).setWidth 32 <<< k

/-- `STATUS` as it reads (R37): reserved bits 7:5 and 31:16 read 0. -/
def Status.toWord (st : Status) : Word :=
  flagBit st.busy 0 ||| flagBit st.done 1 ||| flagBit st.err 2 ||| flagBit st.overrun 3 ||| flagBit st.frameOpen 4
    ||| (st.errCode.setWidth 32 <<< 8) ||| (st.errSub.setWidth 32 <<< 12)

/-- `CTRL` as it reads (R36): `IE` in bit 0; `SRST` and the reserved bits read 0. -/
def ctrlWord (ie : Bool) : Word := flagBit ie 0

/-- A write of `v` to `STATUS` (R37): bits 1, 2 and 3 clear `DONE`, `ERR` and `OVERRUN`; every other bit is ignored. -/
def Status.writeOneToClear (st : Status) (v : Word) : Status :=
  { st with
    done := st.done && !v.getLsbD 1
    err := st.err && !v.getLsbD 2
    overrun := st.overrun && !v.getLsbD 3 }

/-- `STATUS` after an accepted issue (R251). -/
def Status.issued (st : Status) : Status :=
  { st with busy := true, done := false, err := false, errCode := 0, errSub := 0 }

/-- `STATUS` after a dropped issue (R252). -/
def Status.dropped (st : Status) : Status := { st with overrun := true }

/-- `STATUS` after a success completion (R281). -/
def Status.succeeded (st : Status) : Status :=
  { st with busy := false, done := true, err := false, errCode := 0, errSub := 0 }

/-- `STATUS` after an error completion (R282). -/
def Status.failed (st : Status) (e : ErrorCode) (sub : BitVec 4) : Status :=
  { st with busy := false, done := true, err := true, errCode := errorCode e, errSub := sub }

/-- The level output `IRQ = CTRL.IE AND STATUS.DONE` (R49, R288). -/
def State.irq (s : State) : Bool := s.ie && s.status.done

end Sys2Proof.Machine
end

