-- ==== Sys2Proof/Machine/Ops.lean ====
section
/-! DEFINITION. The named operations over buffer memory and registers that every meaning is written with: the region
predicates and the engine's memory primitives (spec/20_memory.md R77, R78, R81 to R83), success and error completion
(spec/60_exceptions.md R281, R282, R289: the error completion is HCE's only exception entry, and there is no return
from it, R290), the issue of a command (spec/48_control.md R251) and the hard reset (spec/70_reset_and_hazards.md
R321). -/

namespace Sys2Proof.Machine

/-! ### Buffer memory as data -/

/-- The byte of a cell, or none for an unwritten one (R48, R83). -/
def Memory.read? : Memory → Nat → Option Byte
  | [], _ => none
  | (x, b) :: m, a => if a = x then some b else Memory.read? m a

/-- Write one cell (R82), keeping the offsets strictly rising. -/
def Memory.write : Memory → Nat → Byte → Memory
  | [], a, b => [(a, b)]
  | (x, c) :: m, a, b =>
    if a < x then (a, b) :: (x, c) :: m
    else if a = x then (a, b) :: m
    else (x, c) :: Memory.write m a b

/-- `BUF[a + k] <- s[k]` for each `k` (R82). -/
def Memory.writeList : Memory → Nat → List Byte → Memory
  | m, _, [] => m
  | m, a, b :: bs => Memory.writeList (m.write a b) (a + 1) bs

/-- What a command stopped part way may leave in `n` cells from `a` on (R322): each one as it was or holding an
arbitrary byte, by the free values numbered from `k` on. -/
def Memory.scramble : Memory → Nat → Nat → Nat → Memory
  | m, _, _, 0 => m
  | m, k, a, n + 1 =>
    Memory.scramble
      (match Config.abortedCell k with
        | none => m
        | some b => m.write a b)
      (k + 1) (a + 1) n

/-- Every offset of `m` lies above `lo`, and they rise strictly. -/
def Memory.risingFrom : Nat → Memory → Bool
  | _, [] => true
  | lo, (x, _) :: m => Nat.ble lo x && Memory.risingFrom (x + 1) m

/-- The canonical form: offsets strictly rising. -/
def Memory.wf (m : Memory) : Bool := Memory.risingFrom 0 m

/-- Every written cell is one of the `n` cells that exist. -/
def Memory.within (n : Nat) (m : Memory) : Bool := m.all fun c => Nat.blt c.1 n

/-! ### Regions -/

/-- `InRange(a, n)` (R77): `a + n <= BUF_BYTES` on the mathematical sum. -/
abbrev InRange (b : Build) (a n : Nat) : Prop := a + n ≤ b.bufBytes

/-- `Overlap(a, n, b, m)` (R78). -/
abbrev Overlap (a n b m : Nat) : Prop := 0 < n ∧ 0 < m ∧ a < b + m ∧ b < a + n

/-! ### The engine's memory primitives -/

/-- One cell of `MemRead`: the cell must exist (R81) and be written (R83). -/
def State.readCell (s : State) (a : Nat) : Except Fault Byte :=
  if a < s.build.bufBytes then
    match s.buf.read? a with
    | some b => .ok b
    | none => .error (.uninitRead a)
  else .error (.outsideBuffer a)

/-- `MemRead(a, n)` (R81): the `n` bytes from offset `a` on, `[]` and nothing read for `n = 0` (R9). -/
def State.readBytes (s : State) : Nat → Nat → Except Fault (List Byte)
  | _, 0 => .ok []
  | a, n + 1 =>
    match s.readCell a with
    | .error f => .error f
    | .ok b =>
      match State.readBytes s (a + 1) n with
      | .error f => .error f
      | .ok bs => .ok (b :: bs)

/-- `MemWrite(a, |bs|, bs)` (R82): nothing for `[]`; the cells written must exist. -/
def State.writeBytes (s : State) (a : Nat) (bs : List Byte) : Except Fault State :=
  if bs = [] ∨ InRange s.build a bs.length then .ok { s with buf := s.buf.writeList a bs }
  else .error (.outsideBuffer a)

/-- Go on with a value, or end the run with the fault. -/
def orFault {α : Type} (r : Except Fault α) (k : α → Out) : Out :=
  match r with
  | .error f => .fault f
  | .ok x => k x

/-! ### Completion -/

/-- `complete(ra, rl)` (R281). -/
def State.complete (s : State) (ra rl : Word) : State :=
  { s with
    res := { s.res with addr := ra, len := rl, errInfo := 0 }
    status := s.status.succeeded }

/-- `complete()` (R281): `RES_ADDR` and `RES_LEN` unchanged. -/
def State.completeKeep (s : State) : State :=
  { s with
    res := { s.res with errInfo := 0 }
    status := s.status.succeeded }

/-- `raise E(sub, info, ra, rl)` (R282, R289): the error completion. It saves nothing, changes no mode and has no
vector; the engine is idle after it. -/
def State.raiseAt (s : State) (e : ErrorCode) (sub : BitVec 4) (info ra rl : Word) : State :=
  { s with
    res := { s.res with addr := ra, len := rl, errInfo := info }
    status := s.status.failed e sub }

/-- `raise E(sub, info)` (R282): the same with `ra = rl = 0`. -/
def State.raise (s : State) (e : ErrorCode) (sub : BitVec 4) (info : Word) : State := s.raiseAt e sub info 0 0

/-! ### The frame state -/

/-- What a successful `FB_BEGIN` does to the frame state (R201). -/
def State.openFrame (s : State) (d c : Word) : State :=
  { s with
    frame := { base := d, cap := c, cur := 0 }
    status := { s.status with frameOpen := true } }

/-- `STATUS.FRAME_OPEN <- 0` (R201, R205); the frame registers keep their values. -/
def State.closeFrame (s : State) : State := { s with status := { s.status with frameOpen := false } }

/-- `st.FB_CUR <- st.FB_CUR + n` (R202, R203). -/
def State.advanceFrame (s : State) (n : Nat) : State :=
  { s with frame := { s.frame with cur := BitVec.ofNat 32 (s.frame.cur.toNat + n) } }

/-- `reg.RES_OPCODE <- zext_32(op)` (R210): the register holds eight bits, and bits 31:8 read 0 (R43). -/
def State.setOpcode (s : State) (op : Byte) : State := { s with res := { s.res with opcode := op } }

/-! ### Issue and hard reset -/

/-- An accepted issue of the word `v` (R251): the operands and the word are latched, the completion flags cleared,
`BUSY` set. The word is not checked. -/
def State.issue (s : State) (v : Word) : State :=
  { s with latCmd := v, lat := s.opnd, status := s.status.issued }

/-- The hard reset (R320, R321): every register and cell as `State.reset` has it. The build is not touched (R320), and
the model's own fields go on (log entry 6). -/
def State.hardReset (s : State) : State :=
  { State.reset with build := s.build, fresh := s.fresh, agenda := s.agenda, busLog := s.busLog }

end Sys2Proof.Machine
end

