-- ==== Sys2Proof/Machine/Codec.lean ====
section
/-! DEFINITION. The codec family: `ENCODE` and `DECODE` (spec/40_huffman.md R146, R147). -/

namespace Sys2Proof.Machine

/-- The region checks both codec commands begin with, in the order of R286: source range, destination range, overlap;
with none of them failing, go on. -/
def withRegions (s : State) (k : Out) : Out :=
  if ¬ InRange s.build s.lat.srcAddr.toNat s.lat.srcLen.toNat then .next (s.raise .range 1 0)
  else if ¬ InRange s.build s.lat.dstAddr.toNat s.lat.dstCap.toNat then .next (s.raise .range 2 0)
  else if Overlap s.lat.srcAddr.toNat s.lat.srcLen.toNat s.lat.dstAddr.toNat s.lat.dstCap.toNat then
    .next (s.raise .overlap 0 0)
  else k

/-- `ENCODE` (R146). -/
def execEncode (s : State) : Out :=
  withRegions s <|
    orFault (s.readBytes s.lat.srcAddr.toNat s.lat.srcLen.toNat) fun inp =>
      let out := encodeStream (buildTree s.build.freq) s.build.encRawFallback inp
      if s.lat.dstCap.toNat < out.length then
        .next (s.raiseAt .dstOverflow 0 (BitVec.ofNat 32 out.length) s.lat.dstAddr 0)
      else
        orFault (s.writeBytes s.lat.dstAddr.toNat out) fun t =>
          .next (t.complete s.lat.dstAddr (BitVec.ofNat 32 out.length))

/-- `DECODE` of the raw escape with the verbatim bytes `body` (R147): the first `c` of them are written, and more is
an overflow. -/
def decodeRaw (s : State) (body : List Byte) : Out :=
  let k := min body.length s.lat.dstCap.toNat
  orFault (s.writeBytes s.lat.dstAddr.toNat (body.take k)) fun t =>
    if s.lat.dstCap.toNat < body.length then
      .next (t.raiseAt .dstOverflow 0 (BitVec.ofNat 32 (8 * k)) s.lat.dstAddr (BitVec.ofNat 32 k))
    else .next (t.complete s.lat.dstAddr (BitVec.ofNat 32 body.length))

/-- `DECODE` of the coded form (R147): the decoded bytes are written whichever way the walk ends. -/
def decodeWalk (s : State) (h : Byte) (data : List Byte) : Out :=
  match decodeCoded (buildTree s.build.freq) s.lat.dstCap.toNat h data with
  | (out, stop) =>
    orFault (s.writeBytes s.lat.dstAddr.toNat out) fun t =>
      match stop with
      | .complete => .next (t.complete s.lat.dstAddr (BitVec.ofNat 32 out.length))
      | .overflow start =>
        .next (t.raiseAt .dstOverflow 0 (BitVec.ofNat 32 start) s.lat.dstAddr (BitVec.ofNat 32 out.length))
      | .truncated start =>
        .next (t.raiseAt .corruptStream 4 (BitVec.ofNat 32 start) s.lat.dstAddr (BitVec.ofNat 32 out.length))

/-- `DECODE` (R147). All `n` source bytes are read before anything is decoded. -/
def execDecode (s : State) : Out :=
  withRegions s <|
    orFault (s.readBytes s.lat.srcAddr.toNat s.lat.srcLen.toNat) fun inp =>
      match inp with
      | [] => .next (s.raise .corruptStream 1 0)
      | h :: data =>
        if h = rawHeader then decodeRaw s data
        else if 8 ≤ h.toNat then .next (s.raise .corruptStream 2 0)
        else if data = [] ∧ h ≠ 0 then .next (s.raise .corruptStream 3 0)
        else decodeWalk s h data

end Sys2Proof.Machine
end

