-- ==== Sys2Proof/Machine/Control.lean ====
section
/-! DEFINITION. The control family: `NOP` (spec/48_control.md R254). -/

namespace Sys2Proof.Machine

/-- `NOP` (R254): a success completion that leaves the result registers as they are. -/
def execNop (s : State) : Out := .next s.completeKeep

end Sys2Proof.Machine
end

