-- ==== Sys2Proof/Machine/Framer.lean ====
section
/-! DEFINITION. The framer family: `FB_BEGIN`, `FB_OPCODE`, `FB_RAW`, `FB_TEXT`, `FB_END` and `FRAME_PARSE`
(spec/45_framer.md R201 to R205, R210). -/

namespace Sys2Proof.Machine

/-- `FB_BEGIN` (R201): a failed one closes the frame. -/
def execFbBegin (s : State) : Out :=
  if InRange s.build s.lat.dstAddr.toNat s.lat.dstCap.toNat then
    .next ((s.openFrame s.lat.dstAddr s.lat.dstCap).complete s.lat.dstAddr 0)
  else .next (s.closeFrame.raise .range 2 0)

/-- `raise E(sub, info, st.FB_BASE, st.FB_CUR)`: an error that reports the intact frame (R200). -/
def raiseFrame (s : State) (e : ErrorCode) (sub : BitVec 4) (info : Word) : State :=
  s.raiseAt e sub info s.frame.base s.frame.cur

/-- Append the bytes to the open frame and complete (R202, R203): `MemWrite` at `FB_BASE + FB_CUR`, advance `FB_CUR`,
report the frame. -/
def appendBytes (s : State) (bs : List Byte) : Out :=
  orFault (s.writeBytes (s.frame.base.toNat + s.frame.cur.toNat) bs) fun t =>
    let u := t.advanceFrame bs.length
    .next (u.complete u.frame.base u.frame.cur)

/-- `FB_OPCODE imm` (R202). -/
def execFbOpcode (imm : Byte) (s : State) : Out :=
  if ¬ s.status.frameOpen then .next (s.raise .frameNotOpen 0 0)
  else if s.frame.cap.toNat < s.frame.cur.toNat + 1 then
    .next (raiseFrame s .dstOverflow 0 (BitVec.ofNat 32 (s.frame.cur.toNat + 1)))
  else appendBytes s [imm]

/-- The common body of `FB_RAW` and `FB_TEXT` (R203, R204, R206): append the source bytes verbatim. The source is
compared with the whole frame region, written or not. -/
def appendSource (s : State) : Out :=
  let a := s.lat.srcAddr.toNat
  let n := s.lat.srcLen.toNat
  if ¬ s.status.frameOpen then .next (s.raise .frameNotOpen 0 0)
  else if ¬ InRange s.build a n then .next (raiseFrame s .range 1 0)
  else if Overlap a n s.frame.base.toNat s.frame.cap.toNat then .next (raiseFrame s .overlap 0 0)
  else if s.frame.cap.toNat < s.frame.cur.toNat + n then
    .next (raiseFrame s .dstOverflow 0 (BitVec.ofNat 32 (s.frame.cur.toNat + n)))
  else orFault (s.readBytes a n) fun bs => appendBytes s bs

/-- `FB_RAW` (R203). -/
def execFbRaw (s : State) : Out := appendSource s

/-- `FB_TEXT` (R204): `FB_RAW`'s effect; the bytes are not checked to be UTF-8 and no terminator is added. -/
def execFbText (s : State) : Out := appendSource s

/-- `FB_END` (R205). -/
def execFbEnd (s : State) : Out :=
  if ¬ s.status.frameOpen then .next (s.raise .frameNotOpen 0 0)
  else .next (s.closeFrame.complete s.frame.base s.frame.cur)

/-- `FRAME_PARSE` (R210): only the first source byte is read; the remainder is reported in place. -/
def execFrameParse (s : State) : Out :=
  let a := s.lat.srcAddr.toNat
  let n := s.lat.srcLen.toNat
  if ¬ InRange s.build a n then .next (s.raise .range 1 0)
  else if n = 0 then .next (s.raise .malformedPacket 0 0)
  else
    orFault (s.readCell a) fun op =>
      .next ((s.setOpcode op).complete (BitVec.ofNat 32 (a + 1)) (BitVec.ofNat 32 (n - 1)))

end Sys2Proof.Machine
end

