-- ==== Sys2Proof/Syntax.lean ====
section
/-! DEFINITION. The nine commands of HCE, one constructor per row of spec/opcode_table.json (spec/30_encoding.md
R114). The only operand a command carries is `FB_OPCODE`'s immediate byte; every other operand is implicit: the latched
operand registers and the frame state (R112). Illegal command words are no commands: the decoder rejects them by name
(Sys2Proof/Decode.lean) and the engine completes them with `ILLEGAL_COMMAND` (Sys2Proof/Machine/Engine.lean). -/

namespace Sys2Proof

/-- A command of the engine (R114). -/
inductive Instr where
  /-- `NOP`, `OP = 0x0` (R254). -/
  | nop
  /-- `ENCODE`, `OP = 0x1` (R146). -/
  | encode
  /-- `DECODE`, `OP = 0x2` (R147). -/
  | decode
  /-- `FB_BEGIN`, `OP = 0x3` (R201). -/
  | fbBegin
  /-- `FB_OPCODE imm`, `OP = 0x4`, `IMM8 = imm` (R202). -/
  | fbOpcode (imm : Byte)
  /-- `FB_RAW`, `OP = 0x5` (R203). -/
  | fbRaw
  /-- `FB_TEXT`, `OP = 0x6` (R204). -/
  | fbText
  /-- `FB_END`, `OP = 0x7` (R205). -/
  | fbEnd
  /-- `FRAME_PARSE`, `OP = 0x8` (R210). -/
  | frameParse
  deriving DecidableEq, Repr

end Sys2Proof
end

