-- ==== Sys2Proof/Machine/Dispatch.lean ====
section
/-! DEFINITION. The dispatch of the engine step to the meaning of each command (spec/48_control.md R253). -/

namespace Sys2Proof.Machine

def exec (i : Instr) (s : State) : Host.Outcome State Fault Refusal :=
  match i with
  | .nop => Sys2Proof.Machine.execNop s
  | .encode => Sys2Proof.Machine.execEncode s
  | .decode => Sys2Proof.Machine.execDecode s
  | .fbBegin => Sys2Proof.Machine.execFbBegin s
  | .fbOpcode imm => Sys2Proof.Machine.execFbOpcode imm s
  | .fbRaw => Sys2Proof.Machine.execFbRaw s
  | .fbText => Sys2Proof.Machine.execFbText s
  | .fbEnd => Sys2Proof.Machine.execFbEnd s
  | .frameParse => Sys2Proof.Machine.execFrameParse s

end Sys2Proof.Machine
end

