-- ==== Sys2Proof/WellFormed.lean ====
section
/-! DEFINITION. What is well-formed: an instruction as syntax, and a build. Whether a command WORD is legal is
decoding's business (Sys2Proof/Decode.lean). -/

namespace Sys2Proof

/-- A command as syntax carries nothing that could be ill-formed: the one operand is `FB_OPCODE`'s immediate, and every
byte value `0x00 .. 0xFF` is accepted (R112, R202). -/
def Instr.wellFormed : Instr → Bool
  | .nop => true
  | .encode => true
  | .decode => true
  | .fbBegin => true
  | .fbOpcode _ => true
  | .fbRaw => true
  | .fbText => true
  | .fbEnd => true
  | .frameParse => true

/-- A valid model instance (R5, R71, 93 U21): `BUF_BYTES` is a multiple of 4, at least 4, at most `2^24`. Any other
configuration is refused (`Refusal.invalidBuild`). -/
def Build.wellFormed (b : Build) : Bool :=
  b.bufBytes % 4 == 0 && Nat.ble 4 b.bufBytes && Nat.ble b.bufBytes 16777216

end Sys2Proof
end

