-- ==== Sys2Proof/Decode.lean ====
section
/-! DEFINITION. Decoding of command words, total on every 32-bit word (spec/30_encoding.md R110 to R117), and the
encoder written from the same opcode map (R114). -/

namespace Sys2Proof

namespace CmdWord

/-- `OP = v[3:0]` (R111). -/
def op (v : Word) : BitVec 4 := v.extractLsb' 0 4

/-- `RSV0 = v[7:4]`, must be 0 (R110). -/
def rsv0 (v : Word) : BitVec 4 := v.extractLsb' 4 4

/-- `IMM8 = v[15:8]` (R112). -/
def imm8 (v : Word) : Byte := v.extractLsb' 8 8

/-- `RSV1 = v[31:16]`, must be 0 (R110). -/
def rsv1 (v : Word) : BitVec 16 := v.extractLsb' 16 16

end CmdWord

/-- Why a word is no command (R115, R113). Each completes as `ILLEGAL_COMMAND`; neither stops the machine. -/
inductive IllegalCommand where
  /-- `OP` in `0x9 .. 0xF` (R115). -/
  | illegalOp
  /-- A non-zero reserved field, or a non-zero `IMM8` with `OP != 4` (R113). -/
  | reservedField
  deriving DecidableEq, Repr

/-- `ILLEGAL_COMMAND`'s sub-code (R283): 1 for the operation, 2 for a reserved field. -/
def illegalSub : IllegalCommand → BitVec 4
  | .illegalOp => 1
  | .reservedField => 2

/-- `DecodeCmd` (R116): the operation is checked first, then the reserved fields, then `IMM8`. -/
def decodeCmd (v : Word) : Except IllegalCommand Instr :=
  if 9 ≤ (CmdWord.op v).toNat then .error .illegalOp
  else if CmdWord.rsv0 v ≠ 0 ∨ CmdWord.rsv1 v ≠ 0 then .error .reservedField
  else if CmdWord.op v ≠ 4 ∧ CmdWord.imm8 v ≠ 0 then .error .reservedField
  else match (CmdWord.op v).toNat with
    | 0 => .ok .nop
    | 1 => .ok .encode
    | 2 => .ok .decode
    | 3 => .ok .fbBegin
    | 4 => .ok (.fbOpcode (CmdWord.imm8 v))
    | 5 => .ok .fbRaw
    | 6 => .ok .fbText
    | 7 => .ok .fbEnd
    | 8 => .ok .frameParse
    | _ => .error .illegalOp

/-- The command word of a command (R114). -/
def encodeCmd : Instr → Word
  | .nop => 0x00000000
  | .encode => 0x00000001
  | .decode => 0x00000002
  | .fbBegin => 0x00000003
  | .fbOpcode imm => 0x00000004 ||| (imm.setWidth 32 <<< 8)
  | .fbRaw => 0x00000005
  | .fbText => 0x00000006
  | .fbEnd => 0x00000007
  | .frameParse => 0x00000008

/-- The decoder on a row of spec/opcode_table.json. Every command is exactly one 32-bit word (R117), so the word is the
`nbits` low bits of `w`, zero above. -/
def decodeTableWord (nbits w : Nat) : Option Instr :=
  match decodeCmd (BitVec.ofNat 32 (w % 2 ^ nbits)) with
  | .ok i => some i
  | .error _ => none

end Sys2Proof
end

