-- ==== Sys2Proof/Machine/Operands.lean ====
section
/-! DEFINITION. Which implicit operands each command uses (spec/30_encoding.md R112, R114) and the in-flight regions
they give (spec/70_reset_and_hazards.md R333). -/

namespace Sys2Proof.Machine

/-- The commands whose source region `InflightSrc` holds (R333). -/
def readsSource : Instr → Bool
  | .nop => false
  | .encode => true
  | .decode => true
  | .fbBegin => false
  | .fbOpcode _ => false
  | .fbRaw => true
  | .fbText => true
  | .fbEnd => false
  | .frameParse => true

/-- The commands whose latched destination region `InflightDst` holds (R333). -/
def writesDestination : Instr → Bool
  | .nop => false
  | .encode => true
  | .decode => true
  | .fbBegin => false
  | .fbOpcode _ => false
  | .fbRaw => false
  | .fbText => false
  | .fbEnd => false
  | .frameParse => false

/-- The commands that append to the open frame, whose unused part `InflightDst` holds (R333). -/
def appendsToFrame : Instr → Bool
  | .nop => false
  | .encode => false
  | .decode => false
  | .fbBegin => false
  | .fbOpcode _ => true
  | .fbRaw => true
  | .fbText => true
  | .fbEnd => false
  | .frameParse => false

/-- The buffer offsets `lo .. hi - 1`; none if `hi <= lo`. -/
structure Region where
  lo : Nat
  hi : Nat
  deriving DecidableEq, Repr

/-- The empty region `[]`. -/
def noCells : Region := { lo := 0, hi := 0 }

/-- Does the region hold the offset? -/
abbrev Region.Holds (r : Region) (a : Nat) : Prop := r.lo ≤ a ∧ a < r.hi

/-- `InflightSrc()` (R333). -/
def State.inflightSrc (s : State) : Region :=
  match decodeCmd s.latCmd with
  | .error _ => noCells
  | .ok i =>
    if s.status.busy ∧ readsSource i ∧ InRange s.build s.lat.srcAddr.toNat s.lat.srcLen.toNat then
      { lo := s.lat.srcAddr.toNat, hi := s.lat.srcAddr.toNat + s.lat.srcLen.toNat }
    else noCells

/-- `InflightDst()` (R333). -/
def State.inflightDst (s : State) : Region :=
  match decodeCmd s.latCmd with
  | .error _ => noCells
  | .ok i =>
    if s.status.busy ∧ writesDestination i ∧ InRange s.build s.lat.dstAddr.toNat s.lat.dstCap.toNat then
      { lo := s.lat.dstAddr.toNat, hi := s.lat.dstAddr.toNat + s.lat.dstCap.toNat }
    else if s.status.busy ∧ appendsToFrame i ∧ s.status.frameOpen then
      { lo := s.frame.base.toNat + s.frame.cur.toNat, hi := s.frame.base.toNat + s.frame.cap.toNat }
    else noCells

end Sys2Proof.Machine
end

