-- ==== Sys2Proof/Machine/Engine.lean ====
section
/-! DEFINITION. The engine's step (spec/48_control.md R253, R255). -/

namespace Sys2Proof.Machine

/-- `EngineStep` (R253): decode the latched word and perform the command; an illegal word completes with
`ILLEGAL_COMMAND` and the whole word in `ERR_INFO` (R255). -/
def engineStep (s : State) : Out :=
  match decodeCmd s.latCmd with
  | .error e => .next (s.raise .illegalCommand (illegalSub e) s.latCmd)
  | .ok i => exec i s

/-- The engine's turn: its step is enabled exactly when `BUSY = 1` (R253); an idle block keeps all its state (R296). -/
def engineTurn (s : State) : Out := if s.status.busy then engineStep s else .next s

end Sys2Proof.Machine
end

