-- ==== Sys2Proof/Machine/HostBus.lean ====
section
/-! DEFINITION. The host's side of the block: the bus map (spec/20_memory.md R72 to R74, R80), register reads and
writes with their side effects (spec/10_state.md R34 to R44, R85), the soft reset (spec/70_reset_and_hazards.md R322),
the rules for accesses while `BUSY = 1` (R333, R334), and the host operations by their mnemonics (spec/00_scope.md R10,
spec/30_encoding.md R119). -/

namespace Sys2Proof.Machine

/-! ### The bus map -/

/-- The byte offset of a register in the register window (R34). -/
def regOffset : Reg → Nat
  | .id => 0x00
  | .ctrl => 0x04
  | .status => 0x08
  | .cmd => 0x0C
  | .srcAddr => 0x10
  | .srcLen => 0x14
  | .dstAddr => 0x18
  | .dstCap => 0x1C
  | .resAddr => 0x20
  | .resLen => 0x24
  | .resOpcode => 0x28
  | .errInfo => 0x2C
  | .bufSize => 0x30

/-- The thirteen registers of the window (R34). -/
def allRegs : List Reg :=
  [.id, .ctrl, .status, .cmd, .srcAddr, .srcLen, .dstAddr, .dstCap, .resAddr, .resLen, .resOpcode, .errInfo, .bufSize]

/-- The register at an offset; none at a reserved one (R34). -/
def regAt (o : Nat) : Option Reg := allRegs.find? fun r => Nat.beq (regOffset r) o

/-- The last offset of the register window (R72). -/
def regWindowLast : Nat := 0xFF

/-- The offset of the buffer window (R72). -/
def bufWindow : Nat := 0x10000

/-- What a bus access reaches. -/
inductive BusTarget where
  /-- A register, or none for a reserved offset (R34). -/
  | register (r : Option Reg)
  /-- The cell at a buffer offset (`LB`, `SB`). -/
  | cell (i : Nat)
  /-- The four cells from a buffer offset on (`LW`, `SW`). -/
  | cells4 (i : Nat)
  /-- Nothing: an unmapped offset or a disallowed width or alignment (R80). -/
  | nothing
  deriving DecidableEq, Repr

/-- The bus map (R72) with the widths and alignments of R73 and R74. -/
def busTarget (b : Build) (w : Width) (addr : Word) : BusTarget :=
  let o := addr.toNat
  if o ≤ regWindowLast then
    match w with
    | .w8 => .nothing
    | .w16 => .nothing
    | .w32 => if o % 4 = 0 then .register (regAt o) else .nothing
  else if bufWindow ≤ o ∧ o < bufWindow + b.bufBytes then
    match w with
    | .w8 => .cell (o - bufWindow)
    | .w16 => .nothing
    | .w32 =>
      if (o - bufWindow) % 4 = 0 ∧ o - bufWindow + 4 ≤ b.bufBytes then .cells4 (o - bufWindow) else .nothing
  else .nothing

/-- The offset from `BLOCK_BASE` of an absolute host address that the platform routes to the block (R70, R72): those
from `base` on, below the decode limit. An address outside it does not reach the block. -/
def platformOffset (base limit addr : Nat) : Option Word :=
  if base ≤ addr ∧ addr < base + limit then some (BitVec.ofNat 32 (addr - base)) else none

/-- The same with the platform's OPEN parameters `BLOCK_BASE` and decode limit (R72). -/
def hostOffset (addr : Nat) : Option Word := platformOffset Config.blockBase Config.decodeLimit addr

/-- The absolute host bus address of buffer offset `i`, `BLOCK_BASE + 0x0001_0000 + i` (R71). -/
def bufferHostAddress (base i : Nat) : Nat := base + bufWindow + i

/-! ### Register reads -/

/-- The exact value of a register (R34 to R44). `CMD` reads 0. -/
def State.regValue (s : State) : Reg → Word
  | .id => Config.idValue
  | .ctrl => ctrlWord s.ie
  | .status => s.status.toWord
  | .cmd => 0
  | .srcAddr => s.opnd.srcAddr
  | .srcLen => s.opnd.srcLen
  | .dstAddr => s.opnd.dstAddr
  | .dstCap => s.opnd.dstCap
  | .resAddr => s.res.addr
  | .resLen => s.res.len
  | .resOpcode => s.res.opcode.setWidth 32
  | .errInfo => s.res.errInfo
  | .bufSize => BitVec.ofNat 32 s.build.bufBytes

/-- The registers a read of which is any value while `BUSY = 1` (R333). -/
def heldWhileBusy : Reg → Bool
  | .id => false
  | .ctrl => false
  | .status => false
  | .cmd => false
  | .srcAddr => false
  | .srcLen => false
  | .dstAddr => false
  | .dstCap => false
  | .resAddr => true
  | .resLen => true
  | .resOpcode => true
  | .errInfo => true
  | .bufSize => false

/-- The host's record of a bus response. -/
def State.respond (s : State) (r : BusResponse) : State := { s with busLog := r :: s.busLog }

/-- Move on to free values not used before. -/
def State.useFresh (s : State) (n : Nat) : State := { s with fresh := s.fresh + n }

/-- A register read (R73): reserved offsets read 0 (R34); a result register read while `BUSY = 1` is any value
(R333). -/
def busReadReg (s : State) (r : Option Reg) : State :=
  match r with
  | none => s.respond (.word 0)
  | some r =>
    if s.status.busy ∧ heldWhileBusy r then (s.useFresh 1).respond (.word (Config.freeWord s.fresh))
    else s.respond (.word (s.regValue r))

/-! ### Register writes -/

/-- A soft reset (R322). The cells of an aborted command's destination are each left as they were or hold an arbitrary
byte; the latched registers become unspecified; every other register is 0. -/
def State.softReset (s : State) : State :=
  let d := s.inflightDst
  let n := min d.hi s.build.bufBytes - d.lo
  let k := s.fresh + n
  { s with
    ie := false
    status := Status.zero
    opnd := Operands.zero
    res := Results.zero
    latCmd := Config.freeWord k
    lat :=
      { srcAddr := Config.freeWord (k + 1)
        srcLen := Config.freeWord (k + 2)
        dstAddr := Config.freeWord (k + 3)
        dstCap := Config.freeWord (k + 4) }
    frame := FrameState.zero
    buf := s.buf.scramble s.fresh d.lo n
    fresh := k + 5 }

/-- A write to `CTRL` (R36): with bit 1 set a soft reset, whatever bit 0 is; else `IE <- v[0]`. -/
def writeCtrl (s : State) (v : Word) : State := if v.getLsbD 1 then s.softReset else { s with ie := v.getLsbD 0 }

/-- A write to `CMD` (R38): accepted while `BUSY = 0` (R251), dropped while `BUSY = 1` (R252). -/
def writeCmd (s : State) (v : Word) : State :=
  if s.status.busy then { s with status := s.status.dropped } else s.issue v

/-- A register write (R34 to R44): read-only registers ignore it. -/
def State.writeReg (s : State) (r : Reg) (v : Word) : State :=
  match r with
  | .id => s
  | .ctrl => writeCtrl s v
  | .status => { s with status := s.status.writeOneToClear v }
  | .cmd => writeCmd s v
  | .srcAddr => { s with opnd := { s.opnd with srcAddr := v } }
  | .srcLen => { s with opnd := { s.opnd with srcLen := v } }
  | .dstAddr => { s with opnd := { s.opnd with dstAddr := v } }
  | .dstCap => { s with opnd := { s.opnd with dstCap := v } }
  | .resAddr => s
  | .resLen => s
  | .resOpcode => s
  | .errInfo => s
  | .bufSize => s

/-- A register write at an offset of the window: a reserved one ignores it (R34). -/
def busWriteReg (s : State) (r : Option Reg) (v : Word) : State :=
  match r with
  | none => s.respond .ack
  | some r => (s.writeReg r v).respond .ack

/-! ### Buffer accesses -/

/-- One cell of a host read (R74, R83, R333): unwritten is the fault; a cell of the in-flight destination is any byte,
the free value number `s.fresh + k`. -/
def hostReadCell (s : State) (i k : Nat) : Except Fault Byte :=
  match s.readCell i with
  | .error f => .error f
  | .ok b => .ok (if s.inflightDst.Holds i then Config.freeByte (s.fresh + k) else b)

/-- Little-endian composition of four bytes (R74, R75). -/
def composeWord (b0 b1 b2 b3 : Byte) : Word :=
  b0.setWidth 32 ||| (b1.setWidth 32 <<< 8) ||| (b2.setWidth 32 <<< 16) ||| (b3.setWidth 32 <<< 24)

/-- The four bytes of a word, lowest offset first (R74, R75). -/
def splitWord (w : Word) : List Byte :=
  [w.extractLsb' 0 8, w.extractLsb' 8 8, w.extractLsb' 16 8, w.extractLsb' 24 8]

/-- `LB i` (R74). -/
def busReadByte (s : State) (i : Nat) : Out :=
  orFault (hostReadCell s i 0) fun b => .next ((s.useFresh 1).respond (.byte b))

/-- `LW i` (R74). -/
def busReadWord (s : State) (i : Nat) : Out :=
  orFault (hostReadCell s i 0) fun b0 =>
    orFault (hostReadCell s (i + 1) 1) fun b1 =>
      orFault (hostReadCell s (i + 2) 2) fun b2 =>
        orFault (hostReadCell s (i + 3) 3) fun b3 =>
          .next ((s.useFresh 4).respond (.word (composeWord b0 b1 b2 b3)))

/-- The first of the `n` cells from `i` on that lies in a region of the in-flight command (R334). That the fault of a
write to several such cells names the first is the model's (DESIGN CHOICE, log entry 25). -/
def inflightCell? (s : State) : Nat → Nat → Option Nat
  | _, 0 => none
  | i, n + 1 =>
    if s.inflightSrc.Holds i ∨ s.inflightDst.Holds i then some i else inflightCell? s (i + 1) n

/-- `SB i` and `SW i` (R74): a write into an in-flight region is the fault of R334, and changes nothing else. -/
def busWriteBytes (s : State) (i : Nat) (bs : List Byte) : Out :=
  match inflightCell? s i bs.length with
  | some a => .fault (.hostWriteWhileBusy a)
  | none => orFault (s.writeBytes i bs) fun t => .next (t.respond .ack)

/-! ### A host bus operation -/

/-- One host bus operation, one atomic transition (R84, R86). A bus error changes no state of the block (R80). -/
def hostTurn (op : BusOp) (s : State) : Out :=
  match op with
  | .read w addr =>
    match busTarget s.build w addr with
    | .register r => .next (busReadReg s r)
    | .cell i => busReadByte s i
    | .cells4 i => busReadWord s i
    | .nothing => .next (s.respond .busError)
  | .write w addr v =>
    match busTarget s.build w addr with
    | .register r => .next (busWriteReg s r v)
    | .cell i => busWriteBytes s i [v.extractLsb' 0 8]
    | .cells4 i => busWriteBytes s i (splitWord v)
    | .nothing => .next (s.respond .busError)

/-! ### Host operations by their mnemonics -/

/-- `WR <reg>, v` (R10). -/
def opWR (r : Reg) (v : Word) : BusOp := .write .w32 (BitVec.ofNat 32 (regOffset r)) v

/-- `RD <reg>` (R10). -/
def opRD (r : Reg) : BusOp := .read .w32 (BitVec.ofNat 32 (regOffset r))

/-- `SB i, b` (R10, R74). -/
def opSB (i : Nat) (b : Byte) : BusOp := .write .w8 (BitVec.ofNat 32 (bufWindow + i)) (b.setWidth 32)

/-- `LB i` (R10, R74). -/
def opLB (i : Nat) : BusOp := .read .w8 (BitVec.ofNat 32 (bufWindow + i))

/-- `SW i, w` (R10, R74). -/
def opSW (i : Nat) (w : Word) : BusOp := .write .w32 (BitVec.ofNat 32 (bufWindow + i)) w

/-- `LW i` (R10, R74). -/
def opLW (i : Nat) : BusOp := .read .w32 (BitVec.ofNat 32 (bufWindow + i))

/-- A command mnemonic stands for `WR CMD, <its command word>` (R10, R118). -/
def opCommand (i : Instr) : BusOp := opWR .cmd (encodeCmd i)

/-- `SETSRC a, n` (R119). -/
def macroSETSRC (a n : Word) : List Turn := [.host (opWR .srcAddr a), .host (opWR .srcLen n)]

/-- `SETDST a, c` (R119). -/
def macroSETDST (a c : Word) : List Turn := [.host (opWR .dstAddr a), .host (opWR .dstCap c)]

/-- `POLL` (R119) as one of its runs: `k` reads of `STATUS` that still see `BUSY = 1`, the engine's step, and the read
that sees `BUSY = 0`. Weak fairness (R47, R340) is that the engine's turn stands in it (log entry 20). -/
def macroPOLL (k : Nat) : List Turn :=
  List.replicate k (.host (opRD .status)) ++ [.engine, .host (opRD .status)]

/-- `RUN <cmd>` (R119). -/
def macroRUN (i : Instr) (k : Nat) : List Turn := .host (opCommand i) :: macroPOLL k

/-- `ACK` (R119): clears `DONE`, `ERR` and `OVERRUN`. -/
def macroACK : List Turn := [.host (opWR .status 0x0000000E)]

end Sys2Proof.Machine
end

