-- ==== Sys2Proof/Machine/Step.lean ====
section
/-! DEFINITION. The step of the block: one atomic transition of the total order of spec/20_memory.md R86, and the
placing of a command word where the next step runs it. -/

namespace Sys2Proof.Machine

/-- The next turn is taken off the agenda and performed. With no turn left the engine performs the issued command, or
the block stays idle: a command that stays issued is performed (weak fairness, R47, R340). A build that is no valid
model instance is refused (93 U21). -/
def step (s : State) : Host.Outcome State Fault Refusal :=
  if s.build.wellFormed then
    match s.agenda with
    | [] => engineTurn s
    | .host op :: rest => hostTurn op { s with agenda := rest }
    | .engine :: rest => engineTurn { s with agenda := rest }
    | .hardReset :: rest => .next (State.hardReset { s with agenda := rest })
  else .refused .invalidBuild

/-- `s` with the word issued as an accepted `CMD` write issues it (R251) and the engine's turn next, so that the very
next step performs it (log entry 7). -/
def State.withFetchWord (s : State) (nbits w : Nat) : State :=
  { s.issue (BitVec.ofNat 32 (w % 2 ^ nbits)) with agenda := .engine :: s.agenda }

end Sys2Proof.Machine
end

