-- ==== Sys2Proof/Machine/Packet.lean ====
section
/-! DEFINITION. Frames as the host sees them: the fields of `buildOutgoing` and their bytes (spec/45_framer.md R207),
`parseIncoming` (R210, R212), and the opcodes and payload layouts that the block carries and never checks (R215, R216,
R220). No command's meaning depends on this file. -/

namespace Sys2Proof.Machine

/-- A field of `buildOutgoing` (R207): an opcode byte, raw bytes, or text already encoded as UTF-8 (R206). -/
inductive Field where
  | opcode (o : Byte)
  | raw (r : List Byte)
  | text (t : List Byte)
  deriving DecidableEq, Repr

/-- `ser(f)` (R207): no terminator, no length prefix. -/
def serField : Field → List Byte
  | .opcode o => [o]
  | .raw r => r
  | .text t => t

/-- `buildOutgoing(fields)` (R207): the fields' bytes, left to right. -/
def buildOutgoing (fs : List Field) : List Byte := fs.flatMap serField

/-- `parseIncoming(decoded)` (R210): the first byte is the opcode, the rest the remainder; the empty buffer is
malformed. -/
def parseIncoming : List Byte → Option (Byte × List Byte)
  | [] => none
  | o :: rest => some (o, rest)

/-- The client-to-server opcodes: the five the source names (R215), and `tabComplete`, which stands in no list of the
source but in general knowledge only (93 GK3; PRESUMED, log entry 23). The source's list is open-ended. -/
inductive ClientOpcode where
  | beginConnection | password | command | pong | disconnect | tabComplete
  deriving DecidableEq, Repr

/-- The server-to-client opcodes the source names (R215); its list is open-ended. -/
inductive ServerOpcode where
  | salt | loggedIn | invalidPassword | message | update | tabComplete | tooManyTabCompletes | oldProtocol | banned
  deriving DecidableEq, Repr

/-- `OPCODE_VALUES` for the client's opcodes: OPEN (R215, 92 D23). -/
opaque clientOpcodeValue : ClientOpcode → Byte

/-- `OPCODE_VALUES` for the server's opcodes: OPEN (R215, 92 D23). -/
opaque serverOpcodeValue : ServerOpcode → Byte

/-- An ASCII digit or a lower-case letter a to f. -/
def isLowerHex (b : Byte) : Bool :=
  (Nat.ble 0x30 b.toNat && Nat.ble b.toNat 0x39) || (Nat.ble 0x61 b.toNat && Nat.ble b.toNat 0x66)

/-- Are these the bytes R220 lays out after a client opcode? `Command` accepts every byte list: that its text is
well-formed UTF-8 is not asked; nor has `TabComplete` a layout in the source, so any bytes will do (DESIGN CHOICE, log
entry 22). The 32 characters of the digest are general knowledge (PRESUMED, log entry 13). -/
def clientPayload : ClientOpcode → List Byte → Bool
  | .beginConnection, p => decide (p = Config.protoVersionBytes)
  | .password, p => decide (p.length = 32) && p.all isLowerHex
  | .command, _ => true
  | .pong, p => p.isEmpty
  | .disconnect, p => p.isEmpty
  | .tabComplete, _ => true

/-- Are these the bytes R220 lays out after a server opcode? Only `Salt`'s layout is fixed. `Message` accepts every byte
list: that its text is well-formed UTF-8 is not asked; nor have the others a layout in the source, so any bytes will do
(DESIGN CHOICE, log entry 22). -/
def serverPayload : ServerOpcode → List Byte → Bool
  | .salt, p => decide (p.length = 32)
  | .loggedIn, _ => true
  | .invalidPassword, _ => true
  | .message, _ => true
  | .update, _ => true
  | .tabComplete, _ => true
  | .tooManyTabCompletes, _ => true
  | .oldProtocol, _ => true
  | .banned, _ => true

/-- The fields of a client packet (R220): the opcode, then the payload. Every payload is one raw field, `Command`'s text
too; R220 gives bytes and no field kind, and a text field of the same bytes has the same frame (R206, R207) (DESIGN
CHOICE, log entry 24). -/
def clientFields (o : ClientOpcode) (payload : List Byte) : List Field :=
  [.opcode (clientOpcodeValue o), .raw payload]

end Sys2Proof.Machine
end

