-- ==== Sys2Proof/Safety.lean ====
section
/-! DEFINITION. The terms claims are stated in: the invariants of the block, what a state holds and what a step left
alone, the explicit result of a completion, and frames built field by field. A safe run is one no step of which ends in
a fault (spec/60_exceptions.md R285). -/

namespace Sys2Proof.Machine

/-! ### Outcomes -/

/-- The next state of an outcome, if it is one. -/
def nextOf : Out → Option State
  | .next s => some s
  | .fault _ => none
  | .refused _ => none

/-- The fault of an outcome, if it is one. -/
def faultOf : Out → Option Fault
  | .next _ => none
  | .fault f => some f
  | .refused _ => none

/-- A run of `k` steps is safe if none of them faults (R285, 93 U26). -/
def SafeRun (k : Nat) (s : State) : Prop := ∃ t, core.run k s = .next t

/-! ### Invariants -/

/-- The frame invariant (R46): while a frame is open, its bytes fit its capacity and its region the buffer. -/
abbrev State.FrameInv (s : State) : Prop :=
  s.status.frameOpen = true →
    s.frame.cur.toNat ≤ s.frame.cap.toNat ∧ s.frame.base.toNat + s.frame.cap.toNat ≤ s.build.bufBytes

/-- Buffer memory is canonical and lies in the address space (R48, R71). -/
abbrev State.MemInv (s : State) : Prop := s.buf.wf = true ∧ Memory.within s.build.bufBytes s.buf = true

/-- The completion flags (R37, R283): clear while a command is in flight, an error always with its code, the codes of
R283 only. -/
abbrev State.FlagInv (s : State) : Prop :=
  (s.status.busy = true →
    s.status.done = false ∧ s.status.err = false ∧ s.status.errCode = 0 ∧ s.status.errSub = 0) ∧
  (s.status.err = true → s.status.errCode ≠ 0) ∧
  (s.status.errCode = 0 → s.status.errSub = 0) ∧
  s.status.errCode.toNat ≤ 7 ∧ s.status.errSub.toNat ≤ 4

/-- The reported result region lies in the buffer (the model's own; from R43 and the commands' completions). -/
abbrev State.ResultInv (s : State) : Prop := s.res.addr.toNat + s.res.len.toNat ≤ s.build.bufBytes

/-- The invariant every step keeps: the build is a valid model instance (R5), and the four above. -/
abbrev State.Inv (s : State) : Prop :=
  s.build.wellFormed = true ∧ s.MemInv ∧ s.FrameInv ∧ s.FlagInv ∧ s.ResultInv

/-! ### What a state holds and what was left alone -/

/-- The cells from `a` on hold the bytes `bs` (R75). -/
abbrev State.HoldsBytes (s : State) (a : Nat) (bs : List Byte) : Prop :=
  ∀ k, (h : k < bs.length) → s.buf.read? (a + k) = some bs[k]

/-- Every cell but the `n` from `a` on reads as before. -/
def SameOutside (s t : State) (a n : Nat) : Prop :=
  ∀ x, ¬ (a ≤ x ∧ x < a + n) → t.buf.read? x = s.buf.read? x

/-- Every cell reads as before. -/
def SameMemory (s t : State) : Prop := ∀ x, t.buf.read? x = s.buf.read? x

/-- `STATUS` after a success completion, its fields written out (R281). -/
def successStatus (st : Status) : Status :=
  { busy := false, done := true, err := false, overrun := st.overrun, frameOpen := st.frameOpen, errCode := 0,
    errSub := 0 }

/-- The state an error completion leaves, its fields written out (R282, R283). -/
def errorResult (s : State) (code sub : BitVec 4) (info ra rl : Word) : State :=
  { s with
    status :=
      { busy := false, done := true, err := true, overrun := s.status.overrun, frameOpen := s.status.frameOpen,
        errCode := code, errSub := sub }
    res := { addr := ra, len := rl, opcode := s.res.opcode, errInfo := info } }

/-- The state a success completion with result `(ra, rl)` leaves, its fields written out (R281). -/
def successResult (s : State) (ra rl : Word) : State :=
  { s with
    status := successStatus s.status
    res := { addr := ra, len := rl, opcode := s.res.opcode, errInfo := 0 } }

/-- The regions of a codec command pass every check (R286 steps 3 and 4). -/
abbrev State.RegionsOk (s : State) : Prop :=
  InRange s.build s.lat.srcAddr.toNat s.lat.srcLen.toNat ∧
  InRange s.build s.lat.dstAddr.toNat s.lat.dstCap.toNat ∧
  ¬ Overlap s.lat.srcAddr.toNat s.lat.srcLen.toNat s.lat.dstAddr.toNat s.lat.dstCap.toNat

/-- The latched source region is written and holds `bs`. -/
abbrev State.SourceIs (s : State) (bs : List Byte) : Prop :=
  bs.length = s.lat.srcLen.toNat ∧ s.HoldsBytes s.lat.srcAddr.toNat bs

/-! ### Illegal command words, by arithmetic on the word -/

/-- `OP` in `0x9 .. 0xF` (R115). -/
abbrev BadOp (v : Word) : Prop := 9 ≤ v.toNat % 16

/-- A legal operation with a non-zero reserved field, or a non-zero `IMM8` with `OP != 4` (R113). -/
abbrev BadReserved (v : Word) : Prop :=
  ¬ BadOp v ∧ (v.toNat / 16 % 16 ≠ 0 ∨ v.toNat / 65536 ≠ 0 ∨ (v.toNat % 16 ≠ 4 ∧ v.toNat / 256 % 256 ≠ 0))

/-- The operation number of a command (R114). -/
def opNumber : Instr → Nat
  | .nop => 0
  | .encode => 1
  | .decode => 2
  | .fbBegin => 3
  | .fbOpcode _ => 4
  | .fbRaw => 5
  | .fbText => 6
  | .fbEnd => 7
  | .frameParse => 8

/-- The value of a command's `IMM8` field: 0 but for `FB_OPCODE` (R110, R112). -/
def immNumber : Instr → Nat
  | .nop => 0
  | .encode => 0
  | .decode => 0
  | .fbBegin => 0
  | .fbOpcode imm => imm.toNat
  | .fbRaw => 0
  | .fbText => 0
  | .fbEnd => 0
  | .frameParse => 0

/-! ### Bus accesses that reach nothing, by arithmetic on the offset -/

/-- An unmapped offset (R72). -/
abbrev Unmapped (b : Build) (o : Nat) : Prop := (0x100 ≤ o ∧ o < 0x10000) ∨ 0x10000 + b.bufBytes ≤ o

/-- A disallowed width or alignment in the register or the buffer window (R73, R74). -/
abbrev BadAccess (b : Build) (w : Width) (o : Nat) : Prop :=
  (o < 0x100 ∧ (w ≠ .w32 ∨ o % 4 ≠ 0)) ∨
  (0x10000 ≤ o ∧ o < 0x10000 + b.bufBytes ∧ (w = .w16 ∨ (w = .w32 ∧ o % 4 ≠ 0)))

/-! ### The tree -/

/-- The bytes at the leaves, left to right. -/
def Tree.leaves : Tree → List Byte
  | .leaf s => [s]
  | .node l r => l.leaves ++ r.leaves

/-- The subtree a bit sequence leads to from a tree (R142, R147). -/
def Tree.follow (t : Tree) : List Bool → Tree
  | [] => t
  | b :: bs => (t.child b).follow bs

/-- `(weight, id)` of `x` is strictly before that of `y` in lexicographic order (R141). -/
abbrev Before (x y : PoolEntry) : Prop := x.weight < y.weight ∨ (x.weight = y.weight ∧ x.id < y.id)

/-- One pass of `BuildTree`'s loop (R141), the pools taken without order: `x` is the least entry, `y` the least of the
others, and the two become one entry of number `n` with their summed weight, `x` its `LEFT` child and `y` its `RIGHT`. -/
def MergeStep (n : Nat) (p q : List PoolEntry) : Prop :=
  ∃ (x y : PoolEntry) (rest : List PoolEntry), p.Perm (x :: y :: rest) ∧ Before x y ∧ (∀ z ∈ rest, Before y z) ∧
    q.Perm ({ weight := x.weight + y.weight, id := n, tree := .node x.tree y.tree } :: rest)

/-- `t` is the tree a run of `BuildTree(FREQ)` (R141) ends with: from the 256 leaves, leaf `s` of weight `FREQ[s]` and
number `s`, the 255 passes make the entries 256 to 510, and entry 510, the only one left, stands for `t`. -/
def BuildsTree (freq : Vector Nat 256) (t : Tree) : Prop :=
  ∃ pools : Nat → List PoolEntry,
    (pools 0).Perm
      (List.ofFn fun s : Fin 256 => { weight := freq[s], id := s.val, tree := .leaf (BitVec.ofNat 8 s.val) }) ∧
    (∀ k, k < 255 → MergeStep (256 + k) (pools k) (pools (k + 1))) ∧
    ∃ w, pools 255 = [{ weight := w, id := 510, tree := t }]

/-! ### Frames built field by field -/

/-- A field as a host hands it to the block: an opcode byte, or a source region of raw or text bytes (R207). -/
inductive FieldSource where
  | opcode (o : Byte)
  | raw (a n : Word)
  | text (a n : Word)
  deriving DecidableEq, Repr

/-- The command of a field (R207). -/
def FieldSource.command : FieldSource → Instr
  | .opcode o => .fbOpcode o
  | .raw _ _ => .fbRaw
  | .text _ _ => .fbText

/-- The source region the field's command is issued with; an opcode field uses none. -/
def FieldSource.region : FieldSource → Word × Word
  | .opcode _ => (0, 0)
  | .raw a n => (a, n)
  | .text a n => (a, n)

/-- How many bytes the field adds. -/
def FieldSource.size : FieldSource → Nat
  | .opcode _ => 1
  | .raw _ n => n.toNat
  | .text _ n => n.toNat

/-- The bytes of a region as `s` has them; a cell that is unwritten counts as byte 0, which no claim rests on. -/
def State.bytesOf (s : State) (a n : Nat) : List Byte := (List.range n).map fun k => (s.buf.read? (a + k)).getD 0

/-- `ser(f)` (R207), with the source bytes as `s` has them. -/
def FieldSource.bytes (s : State) : FieldSource → List Byte
  | .opcode o => [o]
  | .raw a n => s.bytesOf a.toNat n.toNat
  | .text a n => s.bytesOf a.toNat n.toNat

/-- Is every cell of the field's source region written? -/
abbrev FieldSource.Written (s : State) (f : FieldSource) : Prop :=
  ∀ k, k < f.region.2.toNat → (s.buf.read? (f.region.1.toNat + k)).isSome = true

/-- The field's source region is in range and shares no byte with the frame region `d, c` (R207). -/
abbrev FieldSource.Fits (b : Build) (d c : Nat) (f : FieldSource) : Prop :=
  InRange b f.region.1.toNat f.region.2.toNat ∧ ¬ Overlap f.region.1.toNat f.region.2.toNat d c

/-- A command with the operands it is issued with (R45). -/
def runWith (i : Instr) (o : Operands) (s : State) : Out := exec i { s with lat := o }

/-- Run the commands one after the other as long as each completes with success; none where one does not. -/
def runSucceeding : List (Instr × Operands) → State → Option State
  | [], s => some s
  | (i, o) :: rest, s =>
    match runWith i o s with
    | .next t => if t.status.err then none else runSucceeding rest t
    | .fault _ => none
    | .refused _ => none

/-- The command sequence of `buildOutgoing` (R207): `FB_BEGIN` over `d, c`, one command a field, `FB_END`. -/
def frameCommands (d c : Word) (fs : List FieldSource) : List (Instr × Operands) :=
  (.fbBegin, { srcAddr := 0, srcLen := 0, dstAddr := d, dstCap := c }) ::
    (fs.map fun f => (f.command, { srcAddr := f.region.1, srcLen := f.region.2, dstAddr := d, dstCap := c })) ++
    [(.fbEnd, { srcAddr := 0, srcLen := 0, dstAddr := d, dstCap := c })]

end Sys2Proof.Machine
end

