-- ==== Sys2Proof/Certificates/Slice0/Obligations.lean ====
section
/-! DEFINITION. The statements for the provers, from the numbered rules of spec/. `nextOf`, `HoldsBytes`, `SameOutside`,
`errorResult`, `successResult` and the invariants are in Sys2Proof/Safety.lean. A result written as an explicit record
update of `s` says in one equation what the command changes and that it changes nothing else. In a statement about a host bus operation the new head of
`busLog` is the bus response (log entry 9). -/

open Sys2Proof Sys2Proof.Machine

/-! ### Reset -/

/-- R321: what a hard reset leaves, from any state of a valid build, and that `State.reset` is such a state. The latched
registers, which R321 leaves unspecified, are not spoken of. -/
def Obligations.HardResetState : Prop :=
  (∀ (s : State) (rest : List Turn), s.build.wellFormed = true → s.agenda = .hardReset :: rest →
    ∃ t, step s = .next t ∧ t.build = s.build ∧ t.ie = false ∧ t.status.toWord = 0 ∧
      t.opnd = { srcAddr := 0, srcLen := 0, dstAddr := 0, dstCap := 0 } ∧
      t.res = { addr := 0, len := 0, opcode := 0, errInfo := 0 } ∧ t.frame = { base := 0, cap := 0, cur := 0 } ∧
      (∀ a, t.buf.read? a = none) ∧ t.irq = false ∧
      t.regValue .id = 0x48434531 ∧ t.regValue .bufSize = BitVec.ofNat 32 s.build.bufBytes) ∧
  State.reset.ie = false ∧ State.reset.status.toWord = 0 ∧
  State.reset.opnd = { srcAddr := 0, srcLen := 0, dstAddr := 0, dstCap := 0 } ∧
  State.reset.res = { addr := 0, len := 0, opcode := 0, errInfo := 0 } ∧
  State.reset.frame = { base := 0, cap := 0, cur := 0 } ∧ (∀ a, State.reset.buf.read? a = none) ∧
  State.reset.irq = false ∧ State.reset.regValue .id = 0x48434531 ∧
  State.reset.regValue .bufSize = BitVec.ofNat 32 State.reset.build.bufBytes

/-- The invariant that every step keeps holds in the reset state. -/
def Obligations.ResetMeetsInvariant : Prop := State.reset.Inv

/-! ### Command words -/

/-- R114: the command words of the opcode map, and `FB_OPCODE 0x36` as the rule writes it out. -/
def Obligations.OpcodeMapWordsDecode : Prop :=
  decodeTableWord 32 0x00000000 = some .nop ∧ decodeTableWord 32 0x00000001 = some .encode ∧
  decodeTableWord 32 0x00000002 = some .decode ∧ decodeTableWord 32 0x00000003 = some .fbBegin ∧
  decodeTableWord 32 0x00003604 = some (.fbOpcode 0x36) ∧ decodeTableWord 32 0x00000005 = some .fbRaw ∧
  decodeTableWord 32 0x00000006 = some .fbText ∧ decodeTableWord 32 0x00000007 = some .fbEnd ∧
  decodeTableWord 32 0x00000008 = some .frameParse

/-- R116: the decode procedure on every 32-bit word, the fields read by arithmetic on the word. -/
def Obligations.DecodeProcedureIsTotal : Prop :=
  ∀ v : Word,
    (BadOp v → ∃ e, decodeCmd v = .error e ∧ illegalSub e = 1) ∧
    (BadReserved v → ∃ e, decodeCmd v = .error e ∧ illegalSub e = 2) ∧
    (¬ BadOp v → ¬ BadReserved v →
      ∃ i, decodeCmd v = .ok i ∧ opNumber i = v.toNat % 16 ∧ immNumber i = v.toNat / 256 % 256)

/-- R114, R116: decoding and encoding agree in both directions, for every command and every immediate. -/
def Obligations.DecodeAndEncodeAgree : Prop :=
  (∀ i : Instr, i.wellFormed = true → decodeCmd (encodeCmd i) = .ok i) ∧
  (∀ (v : Word) (i : Instr), decodeCmd v = .ok i → encodeCmd i = v)

/-! ### The engine step -/

/-- R253, R86: what one step of the block runs. With a command issued and no turn to come, or the engine's turn next, the
step is the engine step, which is the command's meaning where the latched word decodes; a host turn is the host's bus
operation. The step only takes the turn off the agenda (the model's own bookkeeping, log entry 1). An idle block's engine
turn changes nothing (R296). -/
def Obligations.StepRunsTheDecodedCommand : Prop :=
  ∀ s : State, s.build.wellFormed = true →
    (∀ i, s.status.busy = true → decodeCmd s.latCmd = .ok i →
      (s.agenda = [] → step s = exec i s) ∧
      (∀ rest, s.agenda = .engine :: rest → step s = exec i { s with agenda := rest })) ∧
    (s.status.busy = true →
      (s.agenda = [] → step s = engineStep s) ∧
      (∀ rest, s.agenda = .engine :: rest → step s = engineStep { s with agenda := rest })) ∧
    (s.status.busy = false →
      (s.agenda = [] → step s = .next s) ∧
      (∀ rest, s.agenda = .engine :: rest → step s = .next { s with agenda := rest })) ∧
    (∀ op rest, s.agenda = .host op :: rest → step s = hostTurn op { s with agenda := rest })

/-- The model's `withFetchWord` (log entry 7): the very next step runs the decoded instruction, on the state an accepted
issue of the word leaves (R251). -/
def Obligations.FetchedWordIsRun : Prop :=
  ∀ (s : State) (w : Nat) (i : Instr), s.build.wellFormed = true → decodeTableWord 32 w = some i →
    step (s.withFetchWord 32 w) = exec i (s.issue (BitVec.ofNat 32 (w % 2 ^ 32)))

/-- R255: an illegal latched word completes with `ILLEGAL_COMMAND`, sub-code 1 or 2, the whole word in `ERR_INFO` and
`RES_ADDR = RES_LEN = 0`; the frame state, `RES_OPCODE` and buffer memory are unchanged. The example of the rule is the
last clause. -/
def Obligations.IllegalCommandCompletes : Prop :=
  (∀ s : State, BadOp s.latCmd → engineStep s = .next (errorResult s 6 1 s.latCmd 0 0)) ∧
  (∀ s : State, BadReserved s.latCmd → engineStep s = .next (errorResult s 6 2 s.latCmd 0 0)) ∧
  (∃ t, engineStep (State.reset.issue 0x00000009) = .next t ∧ t.status.toWord = 0x00001606 ∧
    t.res.errInfo = 0x00000009)

/-- R281, R282 and the invariant of R37: every completion clears `BUSY`, sets `DONE`, and leaves `ERR = 1` exactly when
`ERRCODE != 0`; `IRQ` is then `IE` (R49). -/
def Obligations.EveryCompletionSetsDone : Prop :=
  ∀ s t : State, engineStep s = .next t →
    t.status.busy = false ∧ t.status.done = true ∧ (t.status.err = true ↔ t.status.errCode ≠ 0) ∧
    t.status.overrun = s.status.overrun ∧ t.irq = t.ie

/-- R253: every engine step ends in a completion, or in the model fault of reading an unwritten cell; there is no other
outcome. The premise is R46's invariant of the open frame. -/
def Obligations.EngineStepCompletesOrReadsUnwritten : Prop :=
  ∀ s : State, s.FrameInv →
    (∃ t, engineStep s = .next t) ∨
    (∃ a, a < s.build.bufBytes ∧ s.buf.read? a = none ∧ engineStep s = .fault (.uninitRead a))

/-- R47, R341: a command that stays issued, with no other turn to come, is performed by the next step: it completes,
unless it faults. -/
def Obligations.IssuedCommandIsPerformed : Prop :=
  ∀ s : State, s.build.wellFormed = true → s.FrameInv → s.status.busy = true → s.agenda = [] →
    (∃ t, step s = .next t ∧ t.status.busy = false ∧ t.status.done = true) ∨
    (∃ a, step s = .fault (.uninitRead a))

/-! ### NOP -/

/-- R254: `NOP` completes from every state, leaves the result registers, the frame state and memory alone and clears
`ERR_INFO`; a word with `OP = 0` and anything else in it is no `NOP`; from reset it leaves `STATUS = 2`. -/
def Obligations.NopCompletes : Prop :=
  (∀ s : State,
    exec .nop s = .next { s with status := successStatus s.status, res := { s.res with errInfo := 0 } }) ∧
  (∀ v : Word, v.toNat % 16 = 0 → v ≠ 0 → decodeCmd v = .error .reservedField) ∧
  (∃ t, engineStep (State.reset.issue 0x00000000) = .next t ∧ t.status.toWord = 0x00000002)

/-! ### ENCODE -/

/-- R146: with its regions in order, its source written and room for the stream, `ENCODE` writes the stream at
`DST_ADDR` and reports it; nothing else changes. -/
def Obligations.EncodeWritesTheStream : Prop :=
  ∀ (s : State) (inp : List Byte), s.RegionsOk → s.SourceIs inp →
    (encodeStream (buildTree s.build.freq) s.build.encRawFallback inp).length ≤ s.lat.dstCap.toNat →
    ∃ t, exec .encode s = .next t ∧
      t = { successResult s s.lat.dstAddr
              (BitVec.ofNat 32 (encodeStream (buildTree s.build.freq) s.build.encRawFallback inp).length) with
            buf := t.buf } ∧
      t.HoldsBytes s.lat.dstAddr.toNat (encodeStream (buildTree s.build.freq) s.build.encRawFallback inp) ∧
      SameOutside s t s.lat.dstAddr.toNat
        (encodeStream (buildTree s.build.freq) s.build.encRawFallback inp).length

/-- R146, R286: the errors of `ENCODE` in their order; each writes no buffer byte, and an overflow reports the length
the stream needs. -/
def Obligations.EncodeErrorsInOrder : Prop :=
  ∀ s : State,
    (¬ InRange s.build s.lat.srcAddr.toNat s.lat.srcLen.toNat →
      exec .encode s = .next (errorResult s 3 1 0 0 0)) ∧
    (InRange s.build s.lat.srcAddr.toNat s.lat.srcLen.toNat →
      ¬ InRange s.build s.lat.dstAddr.toNat s.lat.dstCap.toNat →
      exec .encode s = .next (errorResult s 3 2 0 0 0)) ∧
    (InRange s.build s.lat.srcAddr.toNat s.lat.srcLen.toNat →
      InRange s.build s.lat.dstAddr.toNat s.lat.dstCap.toNat →
      Overlap s.lat.srcAddr.toNat s.lat.srcLen.toNat s.lat.dstAddr.toNat s.lat.dstCap.toNat →
      exec .encode s = .next (errorResult s 4 0 0 0 0)) ∧
    (∀ inp, s.RegionsOk → s.SourceIs inp →
      s.lat.dstCap.toNat < (encodeStream (buildTree s.build.freq) s.build.encRawFallback inp).length →
      exec .encode s = .next (errorResult s 5 0
        (BitVec.ofNat 32 (encodeStream (buildTree s.build.freq) s.build.encRawFallback inp).length)
        s.lat.dstAddr 0))

/-- R145, R146: the form of an encoded stream. With `B` code bits and `m = ceil(B / 8)`: the raw escape exactly where it
is allowed and `m > n`, else a padding count of at most 7 and `m` data bytes whose bits are the codes and then zeros. -/
def Obligations.EncodedStreamForm : Prop :=
  ∀ (t : Tree) (raw : Bool) (inp : List Byte) (m : Nat),
    (inp.flatMap t.code).length ≤ 8 * m → 8 * m < (inp.flatMap t.code).length + 8 →
    (raw = true ∧ inp.length < m → encodeStream t raw inp = 0xFF :: inp) ∧
    (¬ (raw = true ∧ inp.length < m) →
      ∃ (p : Byte) (data : List Byte), encodeStream t raw inp = p :: data ∧ data.length = m ∧ p.toNat ≤ 7 ∧
        p.toNat = 8 * m - (inp.flatMap t.code).length ∧
        unpackBytes data = inp.flatMap t.code ++ List.replicate p.toNat false)

/-- R144: packing is LSB-first, and unpacking is its inverse. -/
def Obligations.BitPackingIsLsbFirst : Prop :=
  (∀ (m : Nat) (q : List Bool), q.length = 8 * m →
    (packBytes m q).length = m ∧
    (∀ j k, j < m → k < 8 → ((packBytes m q).getD j 0).getLsbD k = q.getD (8 * j + k) false) ∧
    unpackBytes (packBytes m q) = q) ∧
  (∀ (bs : List Byte) (i : Nat), i < 8 * bs.length →
    (unpackBytes bs).getD i false = (bs.getD (i / 8) 0).getLsbD (i % 8))

/-! ### DECODE -/

/-- R147: the errors of `DECODE` that come before any byte is decoded, in their order; none of them writes a byte. -/
def Obligations.DecodeErrorsBeforeTheBits : Prop :=
  ∀ s : State,
    (¬ InRange s.build s.lat.srcAddr.toNat s.lat.srcLen.toNat →
      exec .decode s = .next (errorResult s 3 1 0 0 0)) ∧
    (InRange s.build s.lat.srcAddr.toNat s.lat.srcLen.toNat →
      ¬ InRange s.build s.lat.dstAddr.toNat s.lat.dstCap.toNat →
      exec .decode s = .next (errorResult s 3 2 0 0 0)) ∧
    (InRange s.build s.lat.srcAddr.toNat s.lat.srcLen.toNat →
      InRange s.build s.lat.dstAddr.toNat s.lat.dstCap.toNat →
      Overlap s.lat.srcAddr.toNat s.lat.srcLen.toNat s.lat.dstAddr.toNat s.lat.dstCap.toNat →
      exec .decode s = .next (errorResult s 4 0 0 0 0)) ∧
    (s.RegionsOk → s.lat.srcLen = 0 → exec .decode s = .next (errorResult s 1 1 0 0 0)) ∧
    (∀ (h : Byte) (data : List Byte), s.RegionsOk → s.SourceIs (h :: data) → 8 ≤ h.toNat → h.toNat ≤ 0xFE →
      exec .decode s = .next (errorResult s 1 2 0 0 0)) ∧
    (∀ h : Byte, s.RegionsOk → s.SourceIs [h] → 1 ≤ h.toNat → h.toNat ≤ 7 →
      exec .decode s = .next (errorResult s 1 3 0 0 0))

/-- R147: the raw escape is copied verbatim; with less room than bytes the first `c` are, and the overflow reports
`8*c` bits consumed. -/
def Obligations.DecodeRawEscape : Prop :=
  ∀ (s : State) (body : List Byte), s.RegionsOk → s.SourceIs (0xFF :: body) →
    (body.length ≤ s.lat.dstCap.toNat →
      ∃ t, exec .decode s = .next t ∧
        t = { successResult s s.lat.dstAddr (BitVec.ofNat 32 body.length) with buf := t.buf } ∧
        t.HoldsBytes s.lat.dstAddr.toNat body ∧ SameOutside s t s.lat.dstAddr.toNat body.length) ∧
    (s.lat.dstCap.toNat < body.length →
      ∃ t, exec .decode s = .next t ∧
        t = { errorResult s 5 0 (BitVec.ofNat 32 (8 * s.lat.dstCap.toNat)) s.lat.dstAddr s.lat.dstCap with
              buf := t.buf } ∧
        t.HoldsBytes s.lat.dstAddr.toNat (body.take s.lat.dstCap.toNat) ∧
        SameOutside s t s.lat.dstAddr.toNat s.lat.dstCap.toNat)

/-- R147: a coded stream. Its meaningful bits are codes, or codes and the beginning of one more, or codes that fill the
destination and one more: `DECODE` writes the bytes of the codes and completes with success, with `CORRUPT_STREAM`
sub-code 4, or with `DST_OVERFLOW`; `ERR_INFO` counts the bits of the codes written. -/
def Obligations.DecodeCodedStream : Prop :=
  ∀ (s : State) (h : Byte) (data : List Byte), s.RegionsOk → s.SourceIs (h :: data) → h.toNat ≤ 7 →
    (data ≠ [] ∨ h = 0) →
    (∀ out : List Byte,
      (unpackBytes data).take (8 * data.length - h.toNat) = out.flatMap (buildTree s.build.freq).code →
      out.length ≤ s.lat.dstCap.toNat →
      ∃ t, exec .decode s = .next t ∧
        t = { successResult s s.lat.dstAddr (BitVec.ofNat 32 out.length) with buf := t.buf } ∧
        t.HoldsBytes s.lat.dstAddr.toNat out ∧ SameOutside s t s.lat.dstAddr.toNat out.length) ∧
    (∀ (out : List Byte) (rest : List Bool),
      (unpackBytes data).take (8 * data.length - h.toNat) = out.flatMap (buildTree s.build.freq).code ++ rest →
      rest ≠ [] → (∀ x : Byte, ¬ (buildTree s.build.freq).code x <+: rest) → out.length ≤ s.lat.dstCap.toNat →
      ∃ t, exec .decode s = .next t ∧
        t = { errorResult s 1 4 (BitVec.ofNat 32 (out.flatMap (buildTree s.build.freq).code).length) s.lat.dstAddr
                (BitVec.ofNat 32 out.length) with buf := t.buf } ∧
        t.HoldsBytes s.lat.dstAddr.toNat out ∧ SameOutside s t s.lat.dstAddr.toNat out.length) ∧
    (∀ (out : List Byte) (x : Byte) (rest : List Bool),
      (unpackBytes data).take (8 * data.length - h.toNat) =
        out.flatMap (buildTree s.build.freq).code ++ (buildTree s.build.freq).code x ++ rest →
      out.length = s.lat.dstCap.toNat →
      ∃ t, exec .decode s = .next t ∧
        t = { errorResult s 5 0 (BitVec.ofNat 32 (out.flatMap (buildTree s.build.freq).code).length) s.lat.dstAddr
                s.lat.dstCap with buf := t.buf } ∧
        t.HoldsBytes s.lat.dstAddr.toNat out ∧ SameOutside s t s.lat.dstAddr.toNat s.lat.dstCap.toNat)

/-! ### The tree and the laws of the codec -/

/-- R141: picking the least entry of a pool with distinct numbers takes one that no other entry precedes in
`(weight, id)` order, and leaves the others. The merges are `Obligations.TreeIsBuiltByMerging`. -/
def Obligations.LeastEntryIsPicked : Prop :=
  ∀ (e : PoolEntry) (p : List PoolEntry), ((e :: p).map PoolEntry.id).Nodup →
    ((takeLeast e p).1 :: (takeLeast e p).2).Perm (e :: p) ∧
    ∀ y ∈ (takeLeast e p).2,
      (takeLeast e p).1.weight < y.weight ∨
      ((takeLeast e p).1.weight = y.weight ∧ (takeLeast e p).1.id < y.id)

/-- R141: the built tree has each of the 256 byte values at exactly one leaf, whatever the weights. -/
def Obligations.TreeHasEachByteOnce : Prop :=
  ∀ freq : Vector Nat 256, (buildTree freq).leaves.Perm ((List.range 256).map (BitVec.ofNat 8))

/-- R142: a code is the path from the root to the byte's leaf; its length is at least 1 and at most `L_MAX`, which some
code has, and which lies between 8 and 255. -/
def Obligations.CodesAreTreePaths : Prop :=
  ∀ freq : Vector Nat 256,
    (∀ x : Byte, (buildTree freq).follow ((buildTree freq).code x) = .leaf x ∧
      (∀ p, p <+: (buildTree freq).code x → p ≠ (buildTree freq).code x → ∀ y, (buildTree freq).follow p ≠ .leaf y) ∧
      1 ≤ ((buildTree freq).code x).length ∧ ((buildTree freq).code x).length ≤ (buildTree freq).lMax) ∧
    (∃ x : Byte, ((buildTree freq).code x).length = (buildTree freq).lMax) ∧
    8 ≤ (buildTree freq).lMax ∧ (buildTree freq).lMax ≤ 255

/-- R143: no code is a prefix of another, and every bit sequence of length `L_MAX` or more begins with exactly one. -/
def Obligations.CodesAreAPrefixCode : Prop :=
  ∀ freq : Vector Nat 256,
    (∀ x y : Byte, x ≠ y → ¬ (buildTree freq).code x <+: (buildTree freq).code y) ∧
    (∀ q : List Bool, (buildTree freq).lMax ≤ q.length → ∃! x : Byte, (buildTree freq).code x <+: q)

/-- R148: whatever a successful `ENCODE` of `b` wrote, `DECODE` of it, by a block with the same table and room for `|b|`
bytes, succeeds and writes exactly `b`. -/
def Obligations.EncodeDecodeRoundTrip : Prop :=
  ∀ (s t u : State) (b : List Byte), s.SourceIs b → exec .encode s = .next t → t.status.err = false →
    u.build.freq = s.build.freq → u.RegionsOk → u.SourceIs (t.bytesOf t.res.addr.toNat t.res.len.toNat) →
    b.length ≤ u.lat.dstCap.toNat →
    ∃ v, exec .decode u = .next v ∧ v.status.err = false ∧ v.res.addr = u.lat.dstAddr ∧
      v.res.len.toNat = b.length ∧ v.HoldsBytes u.lat.dstAddr.toNat b ∧
      SameOutside u v u.lat.dstAddr.toNat b.length

/-- R150: how much `ENCODE` and `DECODE` write at most, and how many tree steps a decode makes at most. -/
def Obligations.TransformsAreBounded : Prop :=
  (∀ (s t : State) (inp : List Byte), s.SourceIs inp → exec .encode s = .next t →
    t.res.len.toNat ≤ 1 + ceil8 ((buildTree s.build.freq).lMax * inp.length) ∧
    SameOutside s t s.lat.dstAddr.toNat (1 + ceil8 ((buildTree s.build.freq).lMax * inp.length)) ∧
    (s.build.encRawFallback = true →
      t.res.len.toNat ≤ inp.length + 1 ∧ SameOutside s t s.lat.dstAddr.toNat (inp.length + 1))) ∧
  (∀ (s t : State) (h : Byte) (data : List Byte), s.SourceIs (h :: data) → exec .decode s = .next t →
    t.res.len.toNat ≤ 8 * data.length ∧ SameOutside s t s.lat.dstAddr.toNat (8 * data.length) ∧
    (meaningfulBits h data).length ≤ 8 * data.length ∧
    (h = 0xFF → t.res.len.toNat ≤ data.length ∧ SameOutside s t s.lat.dstAddr.toNat data.length))

/-- R151: two states that agree on the latched operands, the build and the source bytes see the same outcome of `ENCODE`
and of `DECODE`: the same result, the same completion, the same bytes written, and nothing else written. -/
def Obligations.CodecIsStateless : Prop :=
  ∀ (i : Instr) (s1 s2 t1 : State), i = .encode ∨ i = .decode → s1.lat = s2.lat → s1.build = s2.build →
    (∀ k, k < s1.lat.srcLen.toNat →
      s1.buf.read? (s1.lat.srcAddr.toNat + k) = s2.buf.read? (s1.lat.srcAddr.toNat + k)) →
    exec i s1 = .next t1 →
    ∃ t2, exec i s2 = .next t2 ∧
      t1 = { s1 with
             buf := t1.buf
             res := { t1.res with opcode := s1.res.opcode }
             status := { t1.status with overrun := s1.status.overrun, frameOpen := s1.status.frameOpen } } ∧
      t2 = { s2 with
             buf := t2.buf
             res := { t1.res with opcode := s2.res.opcode }
             status := { t1.status with overrun := s2.status.overrun, frameOpen := s2.status.frameOpen } } ∧
      (∀ x, (t1.buf.read? x = s1.buf.read? x ∧ t2.buf.read? x = s2.buf.read? x) ∨
        t1.buf.read? x = t2.buf.read? x) ∧
      SameOutside s1 t1 s1.lat.dstAddr.toNat s1.lat.dstCap.toNat ∧
      SameOutside s2 t2 s1.lat.dstAddr.toNat s1.lat.dstCap.toNat

/-! ### The framer -/

/-- R201: `FB_BEGIN` opens an empty frame over the destination region, or, out of range, closes the frame and raises
`RANGE` sub-code 2. No buffer byte is read or written. -/
def Obligations.FbBeginOpensAFrame : Prop :=
  ∀ s : State,
    (InRange s.build s.lat.dstAddr.toNat s.lat.dstCap.toNat →
      exec .fbBegin s = .next
        { s with
          frame := { base := s.lat.dstAddr, cap := s.lat.dstCap, cur := 0 }
          status := { successStatus s.status with frameOpen := true }
          res := { addr := s.lat.dstAddr, len := 0, opcode := s.res.opcode, errInfo := 0 } }) ∧
    (¬ InRange s.build s.lat.dstAddr.toNat s.lat.dstCap.toNat →
      exec .fbBegin s = .next
        (errorResult { s with status := { s.status with frameOpen := false } } 3 2 0 0 0))

/-- R202: `FB_OPCODE` appends its immediate, whatever byte it is, or raises `FRAME_NOT_OPEN` or `DST_OVERFLOW`. The last
clause's range premise is R46's invariant of the open frame. -/
def Obligations.FbOpcodeAppendsItsByte : Prop :=
  ∀ (s : State) (imm : Byte),
    (s.status.frameOpen = false → exec (.fbOpcode imm) s = .next (errorResult s 7 0 0 0 0)) ∧
    (s.status.frameOpen = true → s.frame.cap.toNat < s.frame.cur.toNat + 1 →
      exec (.fbOpcode imm) s = .next
        (errorResult s 5 0 (BitVec.ofNat 32 (s.frame.cur.toNat + 1)) s.frame.base s.frame.cur)) ∧
    (s.status.frameOpen = true → s.frame.cur.toNat + 1 ≤ s.frame.cap.toNat →
      s.frame.base.toNat + s.frame.cap.toNat ≤ s.build.bufBytes →
      ∃ t, exec (.fbOpcode imm) s = .next t ∧
        t = { successResult s s.frame.base (BitVec.ofNat 32 (s.frame.cur.toNat + 1)) with
              buf := t.buf
              frame := { s.frame with cur := BitVec.ofNat 32 (s.frame.cur.toNat + 1) } } ∧
        t.buf.read? (s.frame.base.toNat + s.frame.cur.toNat) = some imm ∧
        SameOutside s t (s.frame.base.toNat + s.frame.cur.toNat) 1)

/-- R203: `FB_RAW` appends the source bytes verbatim, or raises the first of its errors, which leaves the frame as it
was. The last clause's range premise is R46's invariant of the open frame. -/
def Obligations.FbRawAppendsTheSource : Prop :=
  ∀ s : State,
    (s.status.frameOpen = false → exec .fbRaw s = .next (errorResult s 7 0 0 0 0)) ∧
    (s.status.frameOpen = true → ¬ InRange s.build s.lat.srcAddr.toNat s.lat.srcLen.toNat →
      exec .fbRaw s = .next (errorResult s 3 1 0 s.frame.base s.frame.cur)) ∧
    (s.status.frameOpen = true → InRange s.build s.lat.srcAddr.toNat s.lat.srcLen.toNat →
      Overlap s.lat.srcAddr.toNat s.lat.srcLen.toNat s.frame.base.toNat s.frame.cap.toNat →
      exec .fbRaw s = .next (errorResult s 4 0 0 s.frame.base s.frame.cur)) ∧
    (s.status.frameOpen = true → InRange s.build s.lat.srcAddr.toNat s.lat.srcLen.toNat →
      ¬ Overlap s.lat.srcAddr.toNat s.lat.srcLen.toNat s.frame.base.toNat s.frame.cap.toNat →
      s.frame.cap.toNat < s.frame.cur.toNat + s.lat.srcLen.toNat →
      exec .fbRaw s = .next (errorResult s 5 0 (BitVec.ofNat 32 (s.frame.cur.toNat + s.lat.srcLen.toNat))
        s.frame.base s.frame.cur)) ∧
    (∀ bs : List Byte, s.status.frameOpen = true → InRange s.build s.lat.srcAddr.toNat s.lat.srcLen.toNat →
      ¬ Overlap s.lat.srcAddr.toNat s.lat.srcLen.toNat s.frame.base.toNat s.frame.cap.toNat →
      s.frame.cur.toNat + s.lat.srcLen.toNat ≤ s.frame.cap.toNat →
      s.frame.base.toNat + s.frame.cap.toNat ≤ s.build.bufBytes → s.SourceIs bs →
      ∃ t, exec .fbRaw s = .next t ∧
        t = { successResult s s.frame.base (BitVec.ofNat 32 (s.frame.cur.toNat + bs.length)) with
              buf := t.buf
              frame := { s.frame with cur := BitVec.ofNat 32 (s.frame.cur.toNat + bs.length) } } ∧
        t.HoldsBytes (s.frame.base.toNat + s.frame.cur.toNat) bs ∧
        SameOutside s t (s.frame.base.toNat + s.frame.cur.toNat) bs.length)

/-- R204: `FB_TEXT` does exactly what `FB_RAW` does: the bytes appended verbatim and no terminator, or the same errors.
The last clause's range premise is R46's invariant of the open frame. -/
def Obligations.FbTextAppendsTheSource : Prop :=
  ∀ s : State,
    (s.status.frameOpen = false → exec .fbText s = .next (errorResult s 7 0 0 0 0)) ∧
    (s.status.frameOpen = true → ¬ InRange s.build s.lat.srcAddr.toNat s.lat.srcLen.toNat →
      exec .fbText s = .next (errorResult s 3 1 0 s.frame.base s.frame.cur)) ∧
    (s.status.frameOpen = true → InRange s.build s.lat.srcAddr.toNat s.lat.srcLen.toNat →
      Overlap s.lat.srcAddr.toNat s.lat.srcLen.toNat s.frame.base.toNat s.frame.cap.toNat →
      exec .fbText s = .next (errorResult s 4 0 0 s.frame.base s.frame.cur)) ∧
    (s.status.frameOpen = true → InRange s.build s.lat.srcAddr.toNat s.lat.srcLen.toNat →
      ¬ Overlap s.lat.srcAddr.toNat s.lat.srcLen.toNat s.frame.base.toNat s.frame.cap.toNat →
      s.frame.cap.toNat < s.frame.cur.toNat + s.lat.srcLen.toNat →
      exec .fbText s = .next (errorResult s 5 0 (BitVec.ofNat 32 (s.frame.cur.toNat + s.lat.srcLen.toNat))
        s.frame.base s.frame.cur)) ∧
    (∀ bs : List Byte, s.status.frameOpen = true → InRange s.build s.lat.srcAddr.toNat s.lat.srcLen.toNat →
      ¬ Overlap s.lat.srcAddr.toNat s.lat.srcLen.toNat s.frame.base.toNat s.frame.cap.toNat →
      s.frame.cur.toNat + s.lat.srcLen.toNat ≤ s.frame.cap.toNat →
      s.frame.base.toNat + s.frame.cap.toNat ≤ s.build.bufBytes → s.SourceIs bs →
      ∃ t, exec .fbText s = .next t ∧
        t = { successResult s s.frame.base (BitVec.ofNat 32 (s.frame.cur.toNat + bs.length)) with
              buf := t.buf
              frame := { s.frame with cur := BitVec.ofNat 32 (s.frame.cur.toNat + bs.length) } } ∧
        t.HoldsBytes (s.frame.base.toNat + s.frame.cur.toNat) bs ∧
        SameOutside s t (s.frame.base.toNat + s.frame.cur.toNat) bs.length)

/-- R205: `FB_END` closes the frame and reports it, the frame registers and memory unchanged; without an open frame it
raises `FRAME_NOT_OPEN`. -/
def Obligations.FbEndClosesTheFrame : Prop :=
  ∀ s : State,
    (s.status.frameOpen = false → exec .fbEnd s = .next (errorResult s 7 0 0 0 0)) ∧
    (s.status.frameOpen = true →
      exec .fbEnd s = .next
        { s with
          status := { successStatus s.status with frameOpen := false }
          res := { addr := s.frame.base, len := s.frame.cur, opcode := s.res.opcode, errInfo := 0 } })

/-- R210: `FRAME_PARSE` reports the first source byte in `RES_OPCODE` and the remainder in place, reading nothing but
that byte and writing no cell; out of range or empty it raises its error and keeps `RES_OPCODE`. -/
def Obligations.FrameParseSplitsTheFrame : Prop :=
  ∀ s : State,
    (¬ InRange s.build s.lat.srcAddr.toNat s.lat.srcLen.toNat →
      exec .frameParse s = .next (errorResult s 3 1 0 0 0)) ∧
    (InRange s.build s.lat.srcAddr.toNat s.lat.srcLen.toNat → s.lat.srcLen = 0 →
      exec .frameParse s = .next (errorResult s 2 0 0 0 0)) ∧
    (∀ op : Byte, InRange s.build s.lat.srcAddr.toNat s.lat.srcLen.toNat → s.lat.srcLen ≠ 0 →
      s.buf.read? s.lat.srcAddr.toNat = some op →
      exec .frameParse s = .next
        { s with
          status := successStatus s.status
          res :=
            { addr := BitVec.ofNat 32 (s.lat.srcAddr.toNat + 1)
              len := BitVec.ofNat 32 (s.lat.srcLen.toNat - 1)
              opcode := op
              errInfo := 0 } })

/-- R200: while a frame is open, an error of `FB_OPCODE`, `FB_RAW` or `FB_TEXT` leaves the frame state and memory
unchanged and reports the intact frame. -/
def Obligations.FrameErrorsKeepTheFrame : Prop :=
  ∀ (i : Instr) (s t : State), i = .fbRaw ∨ i = .fbText ∨ (∃ imm, i = .fbOpcode imm) → s.status.frameOpen = true →
    exec i s = .next t → t.status.err = true →
    t.frame = s.frame ∧ t.status.frameOpen = true ∧ SameMemory s t ∧ t.res.addr = s.frame.base ∧
      t.res.len = s.frame.cur

/-- R207: the command sequence of `buildOutgoing` succeeds as a whole exactly when the frame region and every source
region are in range, no source region overlaps the frame region and the fields fit the capacity; it then leaves at
`RES_ADDR` the `RES_LEN` bytes `ser(f_1) ++ .. ++ ser(f_k)`. -/
def Obligations.BuildOutgoingConcatenates : Prop :=
  ∀ (s : State) (d c : Word) (fs : List FieldSource), (∀ f ∈ fs, f.Written s) →
    ((∃ t, runSucceeding (frameCommands d c fs) s = some t) ↔
      (InRange s.build d.toNat c.toNat ∧ (∀ f ∈ fs, f.Fits s.build d.toNat c.toNat) ∧
        (fs.map FieldSource.size).sum ≤ c.toNat)) ∧
    ∀ t, runSucceeding (frameCommands d c fs) s = some t →
      t.res.addr = d ∧ t.res.len.toNat = (fs.flatMap (FieldSource.bytes s)).length ∧
      t.HoldsBytes d.toNat (fs.flatMap (FieldSource.bytes s)) ∧
      SameOutside s t d.toNat (fs.flatMap (FieldSource.bytes s)).length

/-- R212: a frame built from an opcode and a raw payload, the empty one among them, parses back to both. -/
def Obligations.FramingRoundTrip : Prop :=
  ∀ (s t : State) (d c a n : Word) (o : Byte), s.build.wellFormed = true →
    runSucceeding (frameCommands d c [.opcode o, .raw a n]) s = some t →
    ∃ u, runWith .frameParse { t.lat with srcAddr := t.res.addr, srcLen := t.res.len } t = .next u ∧
      u.status.err = false ∧ u.res.opcode = o ∧ u.res.len = n ∧
      ∀ k, k < n.toNat → u.buf.read? (u.res.addr.toNat + k) = s.buf.read? (a.toNat + k)

/-! ### What commands and steps leave alone -/

/-- R43, R45, R46, R50: what no command changes. `RES_OPCODE` is written by `FRAME_PARSE` only, the frame state by the
frame commands only. -/
def Obligations.CommandsKeepTheRest : Prop :=
  ∀ (i : Instr) (s t : State), exec i s = .next t →
    t.build = s.build ∧ t.ie = s.ie ∧ t.opnd = s.opnd ∧ t.latCmd = s.latCmd ∧ t.lat = s.lat ∧ t.fresh = s.fresh ∧
    t.agenda = s.agenda ∧ t.busLog = s.busLog ∧ t.status.overrun = s.status.overrun ∧
    (i ≠ .frameParse → t.res.opcode = s.res.opcode) ∧
    (i = .nop ∨ i = .encode ∨ i = .decode ∨ i = .frameParse →
      t.frame = s.frame ∧ t.status.frameOpen = s.status.frameOpen) ∧
    (i = .nop ∨ i = .fbBegin ∨ i = .fbEnd ∨ i = .frameParse → SameMemory s t)

/-- R46: `ENCODE`, `DECODE`, `FRAME_PARSE` and `NOP` never read the frame state: with another frame they do the same. -/
def Obligations.CodecIgnoresTheFrame : Prop :=
  ∀ (i : Instr) (s t : State) (f : FrameState) (o : Bool),
    i = .nop ∨ i = .encode ∨ i = .decode ∨ i = .frameParse → exec i s = .next t →
    exec i { s with frame := f, status := { s.status with frameOpen := o } } =
      .next { t with frame := f, status := { t.status with frameOpen := o } }

/-- R42, R82, R333: a command in flight writes no cell outside its in-flight destination region. -/
def Obligations.CommandsWriteOnlyTheirDestination : Prop :=
  ∀ (i : Instr) (s t : State), s.status.busy = true → decodeCmd s.latCmd = .ok i → exec i s = .next t →
    ∀ x, ¬ s.inflightDst.Holds x → t.buf.read? x = s.buf.read? x

/-- The invariant: every step from a state that meets it leads to one that does (R5, R37, R46, R48, R71). -/
def Obligations.StepKeepsInvariant : Prop := ∀ s t : State, s.Inv → step s = .next t → t.Inv

/-- R33, R320: no step changes the build, the frequency table in it. -/
def Obligations.BuildNeverChanges : Prop := ∀ s t : State, step s = .next t → t.build = s.build

/-- R252, R331, R334: as long as a command stays in flight, no step changes its latched word and operands, the frame state
with `FRAME_OPEN` (R46), or a cell of its regions. -/
def Obligations.InFlightCommandIsProtected : Prop :=
  ∀ s t : State, step s = .next t → s.status.busy = true → t.status.busy = true →
    t.latCmd = s.latCmd ∧ t.lat = s.lat ∧ t.frame = s.frame ∧ t.status.frameOpen = s.status.frameOpen ∧
    (∀ x, s.inflightSrc.Holds x ∨ s.inflightDst.Holds x → t.buf.read? x = s.buf.read? x)

/-- R37: `BUSY` falls only by the engine's turn, a soft reset or a hard reset, and `OVERRUN` only by a `STATUS` write
with bit 3 set, a soft reset or a hard reset. -/
def Obligations.BusyAndOverrunFallOnlyAsStated : Prop :=
  ∀ s t : State, step s = .next t →
    (s.status.busy = true → t.status.busy = false →
      s.agenda = [] ∨ (∃ rest, s.agenda = .engine :: rest) ∨ (∃ rest, s.agenda = .hardReset :: rest) ∨
      (∃ addr v rest, s.agenda = .host (.write .w32 addr v) :: rest ∧ addr.toNat = 0x04 ∧ v.getLsbD 1 = true)) ∧
    (s.status.overrun = true → t.status.overrun = false →
      (∃ rest, s.agenda = .hardReset :: rest) ∨
      (∃ addr v rest, s.agenda = .host (.write .w32 addr v) :: rest ∧
        ((addr.toNat = 0x04 ∧ v.getLsbD 1 = true) ∨ (addr.toNat = 0x08 ∧ v.getLsbD 3 = true))))

/-! ### The host's side -/

/-- R80: an access to an unmapped offset, or of a disallowed width or alignment, returns the bus error response and
changes nothing of the block; and every host bus operation of a step returns one response, a data value or a bus error to
a read, an acknowledgement or a bus error to a write (the response is the newest entry of `busLog`, log entry 9). -/
def Obligations.BusErrorsChangeNothing : Prop :=
  (∀ (s : State) (w : Width) (addr v : Word), Unmapped s.build addr.toNat ∨ BadAccess s.build w addr.toNat →
    hostTurn (.read w addr) s = .next { s with busLog := .busError :: s.busLog } ∧
    hostTurn (.write w addr v) s = .next { s with busLog := .busError :: s.busLog }) ∧
  (∀ (s t : State) (w : Width) (addr v : Word),
    (hostTurn (.read w addr) s = .next t → ∃ r, t.busLog = r :: s.busLog ∧ r ≠ .ack) ∧
    (hostTurn (.write w addr v) s = .next t → ∃ r, t.busLog = r :: s.busLog ∧ (r = .ack ∨ r = .busError)))

/-- R34 to R44: what each register reads; `RES_ADDR`, `RES_LEN`, `RES_OPCODE` and `ERR_INFO` while no command is in
flight, the others always; a reserved offset reads 0. -/
def Obligations.RegisterReads : Prop :=
  ∀ s : State,
    hostTurn (.read .w32 0x00) s = .next { s with busLog := .word 0x48434531 :: s.busLog } ∧
    hostTurn (.read .w32 0x04) s = .next { s with busLog := .word (if s.ie then 1 else 0) :: s.busLog } ∧
    hostTurn (.read .w32 0x08) s = .next { s with busLog := .word s.status.toWord :: s.busLog } ∧
    hostTurn (.read .w32 0x0C) s = .next { s with busLog := .word 0 :: s.busLog } ∧
    hostTurn (.read .w32 0x10) s = .next { s with busLog := .word s.opnd.srcAddr :: s.busLog } ∧
    hostTurn (.read .w32 0x14) s = .next { s with busLog := .word s.opnd.srcLen :: s.busLog } ∧
    hostTurn (.read .w32 0x18) s = .next { s with busLog := .word s.opnd.dstAddr :: s.busLog } ∧
    hostTurn (.read .w32 0x1C) s = .next { s with busLog := .word s.opnd.dstCap :: s.busLog } ∧
    (s.status.busy = false →
      hostTurn (.read .w32 0x20) s = .next { s with busLog := .word s.res.addr :: s.busLog } ∧
      hostTurn (.read .w32 0x24) s = .next { s with busLog := .word s.res.len :: s.busLog } ∧
      hostTurn (.read .w32 0x28) s =
        .next { s with busLog := .word (BitVec.ofNat 32 s.res.opcode.toNat) :: s.busLog } ∧
      hostTurn (.read .w32 0x2C) s = .next { s with busLog := .word s.res.errInfo :: s.busLog }) ∧
    hostTurn (.read .w32 0x30) s = .next { s with busLog := .word (BitVec.ofNat 32 s.build.bufBytes) :: s.busLog } ∧
    (∀ addr : Word, 0x34 ≤ addr.toNat → addr.toNat ≤ 0xFC → addr.toNat % 4 = 0 →
      hostTurn (.read .w32 addr) s = .next { s with busLog := .word 0 :: s.busLog })

/-- R37: the layout of `STATUS`, bit by bit, and what a write to it clears; a write changes nothing else. -/
def Obligations.StatusRegister : Prop :=
  (∀ (st : Status) (k : Nat), k < 32 →
    st.toWord.getLsbD k =
      (if k = 0 then st.busy else if k = 1 then st.done else if k = 2 then st.err else if k = 3 then st.overrun
        else if k = 4 then st.frameOpen else if 8 ≤ k ∧ k ≤ 11 then st.errCode.getLsbD (k - 8)
        else if 12 ≤ k ∧ k ≤ 15 then st.errSub.getLsbD (k - 12) else false)) ∧
  (∀ (s : State) (v : Word),
    hostTurn (.write .w32 0x08 v) s = .next
      { s with
        status :=
          { busy := s.status.busy
            done := if v.getLsbD 1 then false else s.status.done
            err := if v.getLsbD 2 then false else s.status.err
            overrun := if v.getLsbD 3 then false else s.status.overrun
            frameOpen := s.status.frameOpen
            errCode := s.status.errCode
            errSub := s.status.errSub }
        busLog := .ack :: s.busLog })

/-- R36: `CTRL` reads `IE` in bit 0 and 0 elsewhere; a write with bit 1 clear sets `IE` and nothing else; with bit 1 set
it performs the soft reset and leaves `IE = 0`, whatever bit 0 is; all of it also while `BUSY = 1`. -/
def Obligations.CtrlRegister : Prop :=
  ∀ (s : State) (v : Word),
    hostTurn (.read .w32 0x04) s = .next { s with busLog := .word (if s.ie then 1 else 0) :: s.busLog } ∧
    (v.getLsbD 1 = false →
      hostTurn (.write .w32 0x04 v) s = .next { s with ie := v.getLsbD 0, busLog := .ack :: s.busLog }) ∧
    (v.getLsbD 1 = true →
      hostTurn (.write .w32 0x04 v) s = .next { s.softReset with ie := false, busLog := .ack :: s.busLog })

/-- R251: an accepted issue latches the word and the operands, clears the completion flags and sets `BUSY`; the word is
not checked, `IRQ` falls, and everything else is unchanged. -/
def Obligations.AcceptedIssue : Prop :=
  ∀ (s : State) (v : Word), s.status.busy = false →
    ∃ t, hostTurn (.write .w32 0x0C v) s = .next t ∧
      t = { s with
            latCmd := v
            lat := s.opnd
            status :=
              { busy := true, done := false, err := false, overrun := s.status.overrun,
                frameOpen := s.status.frameOpen, errCode := 0, errSub := 0 }
            busLog := .ack :: s.busLog } ∧
      t.irq = false

/-- R252: an issue while `BUSY = 1` is dropped: nothing changes but `OVERRUN`. -/
def Obligations.DroppedIssue : Prop :=
  ∀ (s : State) (v : Word), s.status.busy = true →
    hostTurn (.write .w32 0x0C v) s = .next
      { s with status := { s.status with overrun := true }, busLog := .ack :: s.busLog }

/-- R39 to R42, R331: an operand register takes every value at any time and reads it back; no latched copy changes. -/
def Obligations.OperandRegistersHoldWhatIsWritten : Prop :=
  ∀ (s : State) (v : Word),
    hostTurn (.write .w32 0x10 v) s = .next
      { s with opnd := { s.opnd with srcAddr := v }, busLog := .ack :: s.busLog } ∧
    hostTurn (.write .w32 0x14 v) s = .next
      { s with opnd := { s.opnd with srcLen := v }, busLog := .ack :: s.busLog } ∧
    hostTurn (.write .w32 0x18 v) s = .next
      { s with opnd := { s.opnd with dstAddr := v }, busLog := .ack :: s.busLog } ∧
    hostTurn (.write .w32 0x1C v) s = .next
      { s with opnd := { s.opnd with dstCap := v }, busLog := .ack :: s.busLog }

/-- R34: a write to a read-only register or to a reserved offset of the register window is ignored. -/
def Obligations.ReadOnlyRegistersIgnoreWrites : Prop :=
  ∀ (s : State) (v addr : Word),
    addr.toNat = 0x00 ∨ addr.toNat = 0x20 ∨ addr.toNat = 0x24 ∨ addr.toNat = 0x28 ∨ addr.toNat = 0x2C ∨
      addr.toNat = 0x30 ∨ (0x34 ≤ addr.toNat ∧ addr.toNat ≤ 0xFC ∧ addr.toNat % 4 = 0) →
    hostTurn (.write .w32 addr v) s = .next { s with busLog := .ack :: s.busLog }

/-- R74: the four buffer accesses of an idle block: bytes at any offset, little-endian words at aligned ones; a 16-bit
access and a misaligned 32-bit one are bus errors without effect. That the byte of an 8-bit write is bits 7:0 of a 32-bit
data value is the model's choice (log entry 11). Words with an unwritten cell: `Obligations.UnwrittenReadsFault`. -/
def Obligations.HostBufferAccess : Prop :=
  ∀ (s : State) (i : Nat) (v : Word), s.build.wellFormed = true → s.status.busy = false →
    (∀ b : Byte, i < s.build.bufBytes → s.buf.read? i = some b →
      ∃ t, hostTurn (.read .w8 (BitVec.ofNat 32 (0x10000 + i))) s = .next t ∧
        t = { s with fresh := t.fresh, busLog := .byte b :: s.busLog }) ∧
    (i < s.build.bufBytes →
      ∃ t, hostTurn (.write .w8 (BitVec.ofNat 32 (0x10000 + i)) v) s = .next t ∧
        t = { s with buf := t.buf, busLog := .ack :: s.busLog } ∧
        t.buf.read? i = some (BitVec.ofNat 8 v.toNat) ∧ SameOutside s t i 1) ∧
    (∀ b0 b1 b2 b3 : Byte, i % 4 = 0 → i + 4 ≤ s.build.bufBytes → s.HoldsBytes i [b0, b1, b2, b3] →
      ∃ t w, hostTurn (.read .w32 (BitVec.ofNat 32 (0x10000 + i))) s = .next t ∧
        t = { s with fresh := t.fresh, busLog := .word w :: s.busLog } ∧
        w.toNat = b0.toNat + 256 * b1.toNat + 65536 * b2.toNat + 16777216 * b3.toNat) ∧
    (i % 4 = 0 → i + 4 ≤ s.build.bufBytes →
      ∃ t, hostTurn (.write .w32 (BitVec.ofNat 32 (0x10000 + i)) v) s = .next t ∧
        t = { s with buf := t.buf, busLog := .ack :: s.busLog } ∧
        t.HoldsBytes i
          [BitVec.ofNat 8 v.toNat, BitVec.ofNat 8 (v.toNat / 256), BitVec.ofNat 8 (v.toNat / 65536),
            BitVec.ofNat 8 (v.toNat / 16777216)] ∧
        SameOutside s t i 4) ∧
    (∀ w : Width, i < s.build.bufBytes → w = .w16 ∨ (w = .w32 ∧ i % 4 ≠ 0) →
      hostTurn (.read w (BitVec.ofNat 32 (0x10000 + i))) s = .next { s with busLog := .busError :: s.busLog } ∧
      hostTurn (.write w (BitVec.ofNat 32 (0x10000 + i)) v) s =
        .next { s with busLog := .busError :: s.busLog })

/-- R83, R74: reading a cell nothing has written is the model fault, for every command that reads its source and for a
host byte or word read, whether a command is in flight or not. That the fault names the first such cell is the model's
choice (log entry 8). `FRAME_PARSE` reads only its first source byte. -/
def Obligations.UnwrittenReadsFault : Prop :=
  ∀ s : State,
    (∀ k, k < s.lat.srcLen.toNat → s.buf.read? (s.lat.srcAddr.toNat + k) = none →
      (∀ j, j < k → (s.buf.read? (s.lat.srcAddr.toNat + j)).isSome = true) →
      (s.RegionsOk → exec .encode s = .fault (.uninitRead (s.lat.srcAddr.toNat + k)) ∧
        exec .decode s = .fault (.uninitRead (s.lat.srcAddr.toNat + k))) ∧
      (s.status.frameOpen = true → InRange s.build s.lat.srcAddr.toNat s.lat.srcLen.toNat →
        ¬ Overlap s.lat.srcAddr.toNat s.lat.srcLen.toNat s.frame.base.toNat s.frame.cap.toNat →
        s.frame.cur.toNat + s.lat.srcLen.toNat ≤ s.frame.cap.toNat →
        exec .fbRaw s = .fault (.uninitRead (s.lat.srcAddr.toNat + k)) ∧
        exec .fbText s = .fault (.uninitRead (s.lat.srcAddr.toNat + k)))) ∧
    (InRange s.build s.lat.srcAddr.toNat s.lat.srcLen.toNat → s.lat.srcLen ≠ 0 →
      s.buf.read? s.lat.srcAddr.toNat = none →
      exec .frameParse s = .fault (.uninitRead s.lat.srcAddr.toNat)) ∧
    (∀ i, s.build.wellFormed = true → i < s.build.bufBytes → s.buf.read? i = none →
      hostTurn (.read .w8 (BitVec.ofNat 32 (0x10000 + i))) s = .fault (.uninitRead i)) ∧
    (∀ i k, s.build.wellFormed = true → i % 4 = 0 → i + 4 ≤ s.build.bufBytes → k < 4 → s.buf.read? (i + k) = none →
      (∀ j, j < k → (s.buf.read? (i + j)).isSome = true) →
      hostTurn (.read .w32 (BitVec.ofNat 32 (0x10000 + i))) s = .fault (.uninitRead (i + k)))

/-- R333: the in-flight regions, by arithmetic on the latched word. -/
def Obligations.InFlightRegions : Prop :=
  ∀ (s : State) (x : Nat),
    (s.inflightSrc.Holds x ↔
      s.status.busy = true ∧ ¬ BadOp s.latCmd ∧ ¬ BadReserved s.latCmd ∧
        (s.latCmd.toNat % 16 = 1 ∨ s.latCmd.toNat % 16 = 2 ∨ s.latCmd.toNat % 16 = 5 ∨ s.latCmd.toNat % 16 = 6 ∨
          s.latCmd.toNat % 16 = 8) ∧
        InRange s.build s.lat.srcAddr.toNat s.lat.srcLen.toNat ∧
        s.lat.srcAddr.toNat ≤ x ∧ x < s.lat.srcAddr.toNat + s.lat.srcLen.toNat) ∧
    (s.inflightDst.Holds x ↔
      s.status.busy = true ∧ ¬ BadOp s.latCmd ∧ ¬ BadReserved s.latCmd ∧
        (((s.latCmd.toNat % 16 = 1 ∨ s.latCmd.toNat % 16 = 2) ∧
            InRange s.build s.lat.dstAddr.toNat s.lat.dstCap.toNat ∧
            s.lat.dstAddr.toNat ≤ x ∧ x < s.lat.dstAddr.toNat + s.lat.dstCap.toNat) ∨
          ((s.latCmd.toNat % 16 = 4 ∨ s.latCmd.toNat % 16 = 5 ∨ s.latCmd.toNat % 16 = 6) ∧
            s.status.frameOpen = true ∧ s.frame.base.toNat + s.frame.cur.toNat ≤ x ∧
            x < s.frame.base.toNat + s.frame.cap.toNat)))

/-- R333: host reads while `BUSY = 1`. The result registers and the written cells of the in-flight destination read as
some value, of which nothing is said; every other written cell reads exactly, in bytes and in words; a byte or word read
of an unwritten cell, in the in-flight destination or not, is the fault. -/
def Obligations.ReadsWhileBusy : Prop :=
  ∀ s : State, s.build.wellFormed = true → s.status.busy = true →
    (∀ addr : Word, addr.toNat = 0x20 ∨ addr.toNat = 0x24 ∨ addr.toNat = 0x28 ∨ addr.toNat = 0x2C →
      ∃ t w, hostTurn (.read .w32 addr) s = .next t ∧
        t = { s with fresh := t.fresh, busLog := .word w :: s.busLog }) ∧
    (∀ (i : Nat) (b : Byte), i < s.build.bufBytes → s.buf.read? i = some b → s.inflightDst.Holds i →
      ∃ t b', hostTurn (.read .w8 (BitVec.ofNat 32 (0x10000 + i))) s = .next t ∧
        t = { s with fresh := t.fresh, busLog := .byte b' :: s.busLog }) ∧
    (∀ (i : Nat) (b : Byte), i < s.build.bufBytes → s.buf.read? i = some b → ¬ s.inflightDst.Holds i →
      ∃ t, hostTurn (.read .w8 (BitVec.ofNat 32 (0x10000 + i))) s = .next t ∧
        t = { s with fresh := t.fresh, busLog := .byte b :: s.busLog }) ∧
    (∀ i, i < s.build.bufBytes → s.buf.read? i = none →
      hostTurn (.read .w8 (BitVec.ofNat 32 (0x10000 + i))) s = .fault (.uninitRead i)) ∧
    (∀ i, i % 4 = 0 → i + 4 ≤ s.build.bufBytes → (∃ k, k < 4 ∧ s.buf.read? (i + k) = none) →
      ∃ k, k < 4 ∧ s.buf.read? (i + k) = none ∧
        hostTurn (.read .w32 (BitVec.ofNat 32 (0x10000 + i))) s = .fault (.uninitRead (i + k))) ∧
    (∀ (i : Nat) (b0 b1 b2 b3 : Byte), i % 4 = 0 → i + 4 ≤ s.build.bufBytes → s.HoldsBytes i [b0, b1, b2, b3] →
      ∃ t w, hostTurn (.read .w32 (BitVec.ofNat 32 (0x10000 + i))) s = .next t ∧
        t = { s with fresh := t.fresh, busLog := .word w :: s.busLog } ∧
        (¬ s.inflightDst.Holds i → w.toNat % 256 = b0.toNat) ∧
        (¬ s.inflightDst.Holds (i + 1) → w.toNat / 256 % 256 = b1.toNat) ∧
        (¬ s.inflightDst.Holds (i + 2) → w.toNat / 65536 % 256 = b2.toNat) ∧
        (¬ s.inflightDst.Holds (i + 3) → w.toNat / 16777216 = b3.toNat))

/-- R334: a host buffer write while `BUSY = 1` that touches a cell of an in-flight region is the model fault; any other
one is exact, and neither the latched command nor its frame changes. That the byte of an 8-bit write is bits 7:0 of a
32-bit data value is the model's choice (log entry 11). -/
def Obligations.HostWriteWhileBusy : Prop :=
  ∀ (s : State) (i : Nat) (v : Word), s.build.wellFormed = true → s.status.busy = true →
    (i < s.build.bufBytes → s.inflightSrc.Holds i ∨ s.inflightDst.Holds i →
      hostTurn (.write .w8 (BitVec.ofNat 32 (0x10000 + i)) v) s = .fault (.hostWriteWhileBusy i)) ∧
    (i < s.build.bufBytes → ¬ (s.inflightSrc.Holds i ∨ s.inflightDst.Holds i) →
      ∃ t, hostTurn (.write .w8 (BitVec.ofNat 32 (0x10000 + i)) v) s = .next t ∧
        t = { s with buf := t.buf, busLog := .ack :: s.busLog } ∧
        t.buf.read? i = some (BitVec.ofNat 8 v.toNat) ∧ SameOutside s t i 1) ∧
    (i % 4 = 0 → i + 4 ≤ s.build.bufBytes →
      (∃ k, k < 4 ∧ (s.inflightSrc.Holds (i + k) ∨ s.inflightDst.Holds (i + k))) →
      ∃ k, k < 4 ∧ (s.inflightSrc.Holds (i + k) ∨ s.inflightDst.Holds (i + k)) ∧
        hostTurn (.write .w32 (BitVec.ofNat 32 (0x10000 + i)) v) s = .fault (.hostWriteWhileBusy (i + k))) ∧
    (i % 4 = 0 → i + 4 ≤ s.build.bufBytes →
      (∀ k, k < 4 → ¬ (s.inflightSrc.Holds (i + k) ∨ s.inflightDst.Holds (i + k))) →
      ∃ t, hostTurn (.write .w32 (BitVec.ofNat 32 (0x10000 + i)) v) s = .next t ∧
        t = { s with buf := t.buf, busLog := .ack :: s.busLog } ∧
        t.HoldsBytes i
          [BitVec.ofNat 8 v.toNat, BitVec.ofNat 8 (v.toNat / 256), BitVec.ofNat 8 (v.toNat / 65536),
            BitVec.ofNat 8 (v.toNat / 16777216)] ∧
        SameOutside s t i 4)

/-- R322: a soft reset clears every register, raises no completion, leaves every cell outside an aborted command's
destination as it was, and each cell inside it as it was or written; an idle block loses no cell. The latched registers,
which become unspecified, are not spoken of. -/
def Obligations.SoftReset : Prop :=
  ∀ (s : State) (v : Word), v.getLsbD 1 = true →
    ∃ t, hostTurn (.write .w32 0x04 v) s = .next t ∧ t.build = s.build ∧ t.ie = false ∧ t.status.toWord = 0 ∧
      t.opnd = { srcAddr := 0, srcLen := 0, dstAddr := 0, dstCap := 0 } ∧
      t.res = { addr := 0, len := 0, opcode := 0, errInfo := 0 } ∧ t.frame = { base := 0, cap := 0, cur := 0 } ∧
      t.irq = false ∧ t.agenda = s.agenda ∧ t.busLog = .ack :: s.busLog ∧
      (∀ x, ¬ s.inflightDst.Holds x → t.buf.read? x = s.buf.read? x) ∧
      (∀ x, s.inflightDst.Holds x → t.buf.read? x = s.buf.read? x ∨ (t.buf.read? x).isSome = true) ∧
      (s.status.busy = false → SameMemory s t)

/-- R49, R288: `IRQ` is `IE AND DONE`: a write of 1 to `STATUS` bit 1 and an accepted issue make it fall, setting `IE`
while `DONE = 1` raises it at once, and a dropped issue does not change it. -/
def Obligations.InterruptIsALevel : Prop :=
  ∀ (s t : State) (v : Word),
    (s.irq = true ↔ s.ie = true ∧ s.status.done = true) ∧
    (hostTurn (.write .w32 0x08 v) s = .next t → v.getLsbD 1 = true → t.irq = false) ∧
    (hostTurn (.write .w32 0x0C v) s = .next t → s.status.busy = false → t.irq = false) ∧
    (hostTurn (.write .w32 0x0C v) s = .next t → s.status.busy = true → t.irq = s.irq) ∧
    (hostTurn (.write .w32 0x04 v) s = .next t → v.getLsbD 1 = false → v.getLsbD 0 = true →
      t.irq = s.status.done)

/-- R85: no read has a side effect on the block: a host read changes only the host's record and the number of free
values used (the model's own, log entry 4). -/
def Obligations.ReadsHaveNoSideEffect : Prop :=
  ∀ (s t : State) (w : Width) (addr : Word), hostTurn (.read w addr) s = .next t →
    t = { s with fresh := t.fresh, busLog := t.busLog }

/-! ### The construction of the tree -/

/-- R141: the tree of a table is the one that `BuildTree` ends with, whose 255 passes each merge the two least entries of
the pool into one of their summed weight and the next number; the lighter or earlier of the two is the bit-0 child, the
other the bit-1 child; and there is exactly one result. -/
def Obligations.TreeIsBuiltByMerging : Prop :=
  (∀ (freq : Vector Nat 256) (t : Machine.Tree), BuildsTree freq t ↔ t = buildTree freq) ∧
  (∀ l r : Machine.Tree, (Machine.Tree.node l r).child false = l ∧ (Machine.Tree.node l r).child true = r)
end

