-- ==== Sys2Proof/Laws/Huffman.lean ====
section
/-! SUPPORT. Lemmas of the codec's pure part: lengths of packed bytes and streams, bits of packed bytes, the bound of
the decoder's walk, the pool of leaves, and what picking the least pool entry does. -/

namespace Sys2Proof.Machine

@[simp] theorem packBytes_length (m : Nat) (q : List Bool) : (packBytes m q).length = m := by
  induction m generalizing q with
  | zero => rfl
  | succ m ih => simp [packBytes, ih]

@[simp] theorem byteBits_length (b : Byte) : (byteBits b).length = 8 := rfl

@[simp] theorem unpackBytes_nil : unpackBytes [] = [] := rfl

@[simp] theorem unpackBytes_cons (b : Byte) (bs : List Byte) :
    unpackBytes (b :: bs) = byteBits b ++ unpackBytes bs := rfl

theorem unpackBytes_length (bs : List Byte) : (unpackBytes bs).length = 8 * bs.length := by
  induction bs with
  | nil => rfl
  | cons b bs ih => simp [ih]; omega

/-- `ceil(x / 8)` is the least `m` with `8*m >= x` (R7). -/
theorem ceil8_spec (x m : Nat) : ceil8 x ≤ m ↔ x ≤ 8 * m := by
  unfold ceil8
  omega

/-- The decoder never holds more than `c` bytes (R147). -/
theorem walk_length_le (t : Tree) (c : Nat) (bits : List Bool) (i : Nat) (node : Option Tree) (start : Nat)
    (out : List Byte) (h : out.length ≤ c) : (walk t c bits i node start out).1.length ≤ c := by
  induction bits generalizing i node start out with
  | nil => cases node <;> simpa [walk] using h
  | cons b bits ih =>
    unfold walk
    split
    · split
      · exact h
      · refine ih _ _ _ _ ?_
        rw [List.length_append, List.length_singleton]
        omega
    · exact ih _ _ _ _ h

theorem decodeCoded_length_le (t : Tree) (c : Nat) (h : Byte) (data : List Byte) :
    (decodeCoded t c h data).1.length ≤ c := walk_length_le _ _ _ _ _ _ _ (Nat.zero_le c)

/-- The order of pool entries, by arithmetic on weights and numbers (R141). -/
theorem precedes_iff (x y : PoolEntry) :
    precedes x y = true ↔ x.weight < y.weight ∨ (x.weight = y.weight ∧ x.id < y.id) := by
  unfold precedes
  cases h : Nat.beq x.weight y.weight
  · have : x.weight ≠ y.weight := fun e => by simp [e] at h
    simp
    omega
  · simp [Nat.eq_of_beq_eq_true h]

@[simp] theorem leafPool_length (freq : Vector Nat 256) : (leafPool freq).length = 256 := by
  simp only [leafPool, List.length_map, List.length_zipIdx, Vector.length_toList]

/-- Leaf `s` has weight `FREQ[s]` and number `s` and stands for byte `s` (R141). -/
theorem leafPool_getElem (freq : Vector Nat 256) (s : Nat) (h : s < 256) :
    (leafPool freq)[s]'(by rw [leafPool_length]; exact h) =
      { weight := freq[s], id := s, tree := .leaf (BitVec.ofNat 8 s) } := by
  simp only [leafPool, List.getElem_map, List.getElem_zipIdx, Vector.getElem_toList, Nat.zero_add]

/-- Picking the least entry loses and adds none (R141). -/
theorem takeLeast_perm (e : PoolEntry) (p : List PoolEntry) :
    ((takeLeast e p).1 :: (takeLeast e p).2).Perm (e :: p) := by
  induction p generalizing e with
  | nil => exact List.Perm.refl _
  | cons y p ih =>
    unfold takeLeast
    cases precedes y e
    · exact (List.Perm.swap _ _ _).trans (((ih e).cons y).trans (List.Perm.swap _ _ _))
    · exact (List.Perm.swap _ _ _).trans ((ih y).cons e)

/-- A merge keeps one entry fewer (R141). -/
theorem takeLeast_length (e : PoolEntry) (p : List PoolEntry) : (takeLeast e p).2.length = p.length := by
  simpa using (takeLeast_perm e p).length_eq

end Sys2Proof.Machine
end

