-- ==== Sys2Proof/Laws/State.lean ====
section
/-! SUPPORT. One lemma per field per update of the state and of its status, true by rfl: later proofs read a field of an
updated state without unfolding the update. -/

namespace Sys2Proof.Machine

/-! ### `State.complete` -/

@[simp] theorem State.complete_build (s : State) (ra rl : Word) : (s.complete ra rl).build = s.build := rfl
@[simp] theorem State.complete_ie (s : State) (ra rl : Word) : (s.complete ra rl).ie = s.ie := rfl
@[simp] theorem State.complete_status (s : State) (ra rl : Word) : (s.complete ra rl).status = s.status.succeeded := rfl
@[simp] theorem State.complete_opnd (s : State) (ra rl : Word) : (s.complete ra rl).opnd = s.opnd := rfl
@[simp] theorem State.complete_res (s : State) (ra rl : Word) : (s.complete ra rl).res = { addr := ra, len := rl, opcode := s.res.opcode, errInfo := 0 } := rfl
@[simp] theorem State.complete_latCmd (s : State) (ra rl : Word) : (s.complete ra rl).latCmd = s.latCmd := rfl
@[simp] theorem State.complete_lat (s : State) (ra rl : Word) : (s.complete ra rl).lat = s.lat := rfl
@[simp] theorem State.complete_frame (s : State) (ra rl : Word) : (s.complete ra rl).frame = s.frame := rfl
@[simp] theorem State.complete_buf (s : State) (ra rl : Word) : (s.complete ra rl).buf = s.buf := rfl
@[simp] theorem State.complete_fresh (s : State) (ra rl : Word) : (s.complete ra rl).fresh = s.fresh := rfl
@[simp] theorem State.complete_agenda (s : State) (ra rl : Word) : (s.complete ra rl).agenda = s.agenda := rfl
@[simp] theorem State.complete_busLog (s : State) (ra rl : Word) : (s.complete ra rl).busLog = s.busLog := rfl

/-! ### `State.completeKeep` -/

@[simp] theorem State.completeKeep_build (s : State) : (s.completeKeep).build = s.build := rfl
@[simp] theorem State.completeKeep_ie (s : State) : (s.completeKeep).ie = s.ie := rfl
@[simp] theorem State.completeKeep_status (s : State) : (s.completeKeep).status = s.status.succeeded := rfl
@[simp] theorem State.completeKeep_opnd (s : State) : (s.completeKeep).opnd = s.opnd := rfl
@[simp] theorem State.completeKeep_res (s : State) : (s.completeKeep).res = { addr := s.res.addr, len := s.res.len, opcode := s.res.opcode, errInfo := 0 } := rfl
@[simp] theorem State.completeKeep_latCmd (s : State) : (s.completeKeep).latCmd = s.latCmd := rfl
@[simp] theorem State.completeKeep_lat (s : State) : (s.completeKeep).lat = s.lat := rfl
@[simp] theorem State.completeKeep_frame (s : State) : (s.completeKeep).frame = s.frame := rfl
@[simp] theorem State.completeKeep_buf (s : State) : (s.completeKeep).buf = s.buf := rfl
@[simp] theorem State.completeKeep_fresh (s : State) : (s.completeKeep).fresh = s.fresh := rfl
@[simp] theorem State.completeKeep_agenda (s : State) : (s.completeKeep).agenda = s.agenda := rfl
@[simp] theorem State.completeKeep_busLog (s : State) : (s.completeKeep).busLog = s.busLog := rfl

/-! ### `State.raiseAt` -/

@[simp] theorem State.raiseAt_build (s : State) (e : ErrorCode) (sub : BitVec 4) (info ra rl : Word) : (s.raiseAt e sub info ra rl).build = s.build := rfl
@[simp] theorem State.raiseAt_ie (s : State) (e : ErrorCode) (sub : BitVec 4) (info ra rl : Word) : (s.raiseAt e sub info ra rl).ie = s.ie := rfl
@[simp] theorem State.raiseAt_status (s : State) (e : ErrorCode) (sub : BitVec 4) (info ra rl : Word) : (s.raiseAt e sub info ra rl).status = s.status.failed e sub := rfl
@[simp] theorem State.raiseAt_opnd (s : State) (e : ErrorCode) (sub : BitVec 4) (info ra rl : Word) : (s.raiseAt e sub info ra rl).opnd = s.opnd := rfl
@[simp] theorem State.raiseAt_res (s : State) (e : ErrorCode) (sub : BitVec 4) (info ra rl : Word) : (s.raiseAt e sub info ra rl).res = { addr := ra, len := rl, opcode := s.res.opcode, errInfo := info } := rfl
@[simp] theorem State.raiseAt_latCmd (s : State) (e : ErrorCode) (sub : BitVec 4) (info ra rl : Word) : (s.raiseAt e sub info ra rl).latCmd = s.latCmd := rfl
@[simp] theorem State.raiseAt_lat (s : State) (e : ErrorCode) (sub : BitVec 4) (info ra rl : Word) : (s.raiseAt e sub info ra rl).lat = s.lat := rfl
@[simp] theorem State.raiseAt_frame (s : State) (e : ErrorCode) (sub : BitVec 4) (info ra rl : Word) : (s.raiseAt e sub info ra rl).frame = s.frame := rfl
@[simp] theorem State.raiseAt_buf (s : State) (e : ErrorCode) (sub : BitVec 4) (info ra rl : Word) : (s.raiseAt e sub info ra rl).buf = s.buf := rfl
@[simp] theorem State.raiseAt_fresh (s : State) (e : ErrorCode) (sub : BitVec 4) (info ra rl : Word) : (s.raiseAt e sub info ra rl).fresh = s.fresh := rfl
@[simp] theorem State.raiseAt_agenda (s : State) (e : ErrorCode) (sub : BitVec 4) (info ra rl : Word) : (s.raiseAt e sub info ra rl).agenda = s.agenda := rfl
@[simp] theorem State.raiseAt_busLog (s : State) (e : ErrorCode) (sub : BitVec 4) (info ra rl : Word) : (s.raiseAt e sub info ra rl).busLog = s.busLog := rfl

/-! ### `State.raise` -/

@[simp] theorem State.raise_build (s : State) (e : ErrorCode) (sub : BitVec 4) (info : Word) : (s.raise e sub info).build = s.build := rfl
@[simp] theorem State.raise_ie (s : State) (e : ErrorCode) (sub : BitVec 4) (info : Word) : (s.raise e sub info).ie = s.ie := rfl
@[simp] theorem State.raise_status (s : State) (e : ErrorCode) (sub : BitVec 4) (info : Word) : (s.raise e sub info).status = s.status.failed e sub := rfl
@[simp] theorem State.raise_opnd (s : State) (e : ErrorCode) (sub : BitVec 4) (info : Word) : (s.raise e sub info).opnd = s.opnd := rfl
@[simp] theorem State.raise_res (s : State) (e : ErrorCode) (sub : BitVec 4) (info : Word) : (s.raise e sub info).res = { addr := 0, len := 0, opcode := s.res.opcode, errInfo := info } := rfl
@[simp] theorem State.raise_latCmd (s : State) (e : ErrorCode) (sub : BitVec 4) (info : Word) : (s.raise e sub info).latCmd = s.latCmd := rfl
@[simp] theorem State.raise_lat (s : State) (e : ErrorCode) (sub : BitVec 4) (info : Word) : (s.raise e sub info).lat = s.lat := rfl
@[simp] theorem State.raise_frame (s : State) (e : ErrorCode) (sub : BitVec 4) (info : Word) : (s.raise e sub info).frame = s.frame := rfl
@[simp] theorem State.raise_buf (s : State) (e : ErrorCode) (sub : BitVec 4) (info : Word) : (s.raise e sub info).buf = s.buf := rfl
@[simp] theorem State.raise_fresh (s : State) (e : ErrorCode) (sub : BitVec 4) (info : Word) : (s.raise e sub info).fresh = s.fresh := rfl
@[simp] theorem State.raise_agenda (s : State) (e : ErrorCode) (sub : BitVec 4) (info : Word) : (s.raise e sub info).agenda = s.agenda := rfl
@[simp] theorem State.raise_busLog (s : State) (e : ErrorCode) (sub : BitVec 4) (info : Word) : (s.raise e sub info).busLog = s.busLog := rfl

/-! ### `State.openFrame` -/

@[simp] theorem State.openFrame_build (s : State) (d c : Word) : (s.openFrame d c).build = s.build := rfl
@[simp] theorem State.openFrame_ie (s : State) (d c : Word) : (s.openFrame d c).ie = s.ie := rfl
@[simp] theorem State.openFrame_status (s : State) (d c : Word) : (s.openFrame d c).status = { s.status with frameOpen := true } := rfl
@[simp] theorem State.openFrame_opnd (s : State) (d c : Word) : (s.openFrame d c).opnd = s.opnd := rfl
@[simp] theorem State.openFrame_res (s : State) (d c : Word) : (s.openFrame d c).res = s.res := rfl
@[simp] theorem State.openFrame_latCmd (s : State) (d c : Word) : (s.openFrame d c).latCmd = s.latCmd := rfl
@[simp] theorem State.openFrame_lat (s : State) (d c : Word) : (s.openFrame d c).lat = s.lat := rfl
@[simp] theorem State.openFrame_frame (s : State) (d c : Word) : (s.openFrame d c).frame = { base := d, cap := c, cur := 0 } := rfl
@[simp] theorem State.openFrame_buf (s : State) (d c : Word) : (s.openFrame d c).buf = s.buf := rfl
@[simp] theorem State.openFrame_fresh (s : State) (d c : Word) : (s.openFrame d c).fresh = s.fresh := rfl
@[simp] theorem State.openFrame_agenda (s : State) (d c : Word) : (s.openFrame d c).agenda = s.agenda := rfl
@[simp] theorem State.openFrame_busLog (s : State) (d c : Word) : (s.openFrame d c).busLog = s.busLog := rfl

/-! ### `State.closeFrame` -/

@[simp] theorem State.closeFrame_build (s : State) : (s.closeFrame).build = s.build := rfl
@[simp] theorem State.closeFrame_ie (s : State) : (s.closeFrame).ie = s.ie := rfl
@[simp] theorem State.closeFrame_status (s : State) : (s.closeFrame).status = { s.status with frameOpen := false } := rfl
@[simp] theorem State.closeFrame_opnd (s : State) : (s.closeFrame).opnd = s.opnd := rfl
@[simp] theorem State.closeFrame_res (s : State) : (s.closeFrame).res = s.res := rfl
@[simp] theorem State.closeFrame_latCmd (s : State) : (s.closeFrame).latCmd = s.latCmd := rfl
@[simp] theorem State.closeFrame_lat (s : State) : (s.closeFrame).lat = s.lat := rfl
@[simp] theorem State.closeFrame_frame (s : State) : (s.closeFrame).frame = s.frame := rfl
@[simp] theorem State.closeFrame_buf (s : State) : (s.closeFrame).buf = s.buf := rfl
@[simp] theorem State.closeFrame_fresh (s : State) : (s.closeFrame).fresh = s.fresh := rfl
@[simp] theorem State.closeFrame_agenda (s : State) : (s.closeFrame).agenda = s.agenda := rfl
@[simp] theorem State.closeFrame_busLog (s : State) : (s.closeFrame).busLog = s.busLog := rfl

/-! ### `State.advanceFrame` -/

@[simp] theorem State.advanceFrame_build (s : State) (n : Nat) : (s.advanceFrame n).build = s.build := rfl
@[simp] theorem State.advanceFrame_ie (s : State) (n : Nat) : (s.advanceFrame n).ie = s.ie := rfl
@[simp] theorem State.advanceFrame_status (s : State) (n : Nat) : (s.advanceFrame n).status = s.status := rfl
@[simp] theorem State.advanceFrame_opnd (s : State) (n : Nat) : (s.advanceFrame n).opnd = s.opnd := rfl
@[simp] theorem State.advanceFrame_res (s : State) (n : Nat) : (s.advanceFrame n).res = s.res := rfl
@[simp] theorem State.advanceFrame_latCmd (s : State) (n : Nat) : (s.advanceFrame n).latCmd = s.latCmd := rfl
@[simp] theorem State.advanceFrame_lat (s : State) (n : Nat) : (s.advanceFrame n).lat = s.lat := rfl
@[simp] theorem State.advanceFrame_frame (s : State) (n : Nat) : (s.advanceFrame n).frame = { s.frame with cur := BitVec.ofNat 32 (s.frame.cur.toNat + n) } := rfl
@[simp] theorem State.advanceFrame_buf (s : State) (n : Nat) : (s.advanceFrame n).buf = s.buf := rfl
@[simp] theorem State.advanceFrame_fresh (s : State) (n : Nat) : (s.advanceFrame n).fresh = s.fresh := rfl
@[simp] theorem State.advanceFrame_agenda (s : State) (n : Nat) : (s.advanceFrame n).agenda = s.agenda := rfl
@[simp] theorem State.advanceFrame_busLog (s : State) (n : Nat) : (s.advanceFrame n).busLog = s.busLog := rfl

/-! ### `State.setOpcode` -/

@[simp] theorem State.setOpcode_build (s : State) (op : Byte) : (s.setOpcode op).build = s.build := rfl
@[simp] theorem State.setOpcode_ie (s : State) (op : Byte) : (s.setOpcode op).ie = s.ie := rfl
@[simp] theorem State.setOpcode_status (s : State) (op : Byte) : (s.setOpcode op).status = s.status := rfl
@[simp] theorem State.setOpcode_opnd (s : State) (op : Byte) : (s.setOpcode op).opnd = s.opnd := rfl
@[simp] theorem State.setOpcode_res (s : State) (op : Byte) : (s.setOpcode op).res = { s.res with opcode := op } := rfl
@[simp] theorem State.setOpcode_latCmd (s : State) (op : Byte) : (s.setOpcode op).latCmd = s.latCmd := rfl
@[simp] theorem State.setOpcode_lat (s : State) (op : Byte) : (s.setOpcode op).lat = s.lat := rfl
@[simp] theorem State.setOpcode_frame (s : State) (op : Byte) : (s.setOpcode op).frame = s.frame := rfl
@[simp] theorem State.setOpcode_buf (s : State) (op : Byte) : (s.setOpcode op).buf = s.buf := rfl
@[simp] theorem State.setOpcode_fresh (s : State) (op : Byte) : (s.setOpcode op).fresh = s.fresh := rfl
@[simp] theorem State.setOpcode_agenda (s : State) (op : Byte) : (s.setOpcode op).agenda = s.agenda := rfl
@[simp] theorem State.setOpcode_busLog (s : State) (op : Byte) : (s.setOpcode op).busLog = s.busLog := rfl

/-! ### `State.issue` -/

@[simp] theorem State.issue_build (s : State) (v : Word) : (s.issue v).build = s.build := rfl
@[simp] theorem State.issue_ie (s : State) (v : Word) : (s.issue v).ie = s.ie := rfl
@[simp] theorem State.issue_status (s : State) (v : Word) : (s.issue v).status = s.status.issued := rfl
@[simp] theorem State.issue_opnd (s : State) (v : Word) : (s.issue v).opnd = s.opnd := rfl
@[simp] theorem State.issue_res (s : State) (v : Word) : (s.issue v).res = s.res := rfl
@[simp] theorem State.issue_latCmd (s : State) (v : Word) : (s.issue v).latCmd = v := rfl
@[simp] theorem State.issue_lat (s : State) (v : Word) : (s.issue v).lat = s.opnd := rfl
@[simp] theorem State.issue_frame (s : State) (v : Word) : (s.issue v).frame = s.frame := rfl
@[simp] theorem State.issue_buf (s : State) (v : Word) : (s.issue v).buf = s.buf := rfl
@[simp] theorem State.issue_fresh (s : State) (v : Word) : (s.issue v).fresh = s.fresh := rfl
@[simp] theorem State.issue_agenda (s : State) (v : Word) : (s.issue v).agenda = s.agenda := rfl
@[simp] theorem State.issue_busLog (s : State) (v : Word) : (s.issue v).busLog = s.busLog := rfl

/-! ### `State.hardReset` -/

@[simp] theorem State.hardReset_build (s : State) : (s.hardReset).build = s.build := rfl
@[simp] theorem State.hardReset_ie (s : State) : (s.hardReset).ie = false := rfl
@[simp] theorem State.hardReset_status (s : State) : (s.hardReset).status = Status.zero := rfl
@[simp] theorem State.hardReset_opnd (s : State) : (s.hardReset).opnd = Operands.zero := rfl
@[simp] theorem State.hardReset_res (s : State) : (s.hardReset).res = Results.zero := rfl
@[simp] theorem State.hardReset_latCmd (s : State) : (s.hardReset).latCmd = 0 := rfl
@[simp] theorem State.hardReset_lat (s : State) : (s.hardReset).lat = Operands.zero := rfl
@[simp] theorem State.hardReset_frame (s : State) : (s.hardReset).frame = FrameState.zero := rfl
@[simp] theorem State.hardReset_buf (s : State) : (s.hardReset).buf = [] := rfl
@[simp] theorem State.hardReset_fresh (s : State) : (s.hardReset).fresh = s.fresh := rfl
@[simp] theorem State.hardReset_agenda (s : State) : (s.hardReset).agenda = s.agenda := rfl
@[simp] theorem State.hardReset_busLog (s : State) : (s.hardReset).busLog = s.busLog := rfl

/-! ### `State.respond` -/

@[simp] theorem State.respond_build (s : State) (r : BusResponse) : (s.respond r).build = s.build := rfl
@[simp] theorem State.respond_ie (s : State) (r : BusResponse) : (s.respond r).ie = s.ie := rfl
@[simp] theorem State.respond_status (s : State) (r : BusResponse) : (s.respond r).status = s.status := rfl
@[simp] theorem State.respond_opnd (s : State) (r : BusResponse) : (s.respond r).opnd = s.opnd := rfl
@[simp] theorem State.respond_res (s : State) (r : BusResponse) : (s.respond r).res = s.res := rfl
@[simp] theorem State.respond_latCmd (s : State) (r : BusResponse) : (s.respond r).latCmd = s.latCmd := rfl
@[simp] theorem State.respond_lat (s : State) (r : BusResponse) : (s.respond r).lat = s.lat := rfl
@[simp] theorem State.respond_frame (s : State) (r : BusResponse) : (s.respond r).frame = s.frame := rfl
@[simp] theorem State.respond_buf (s : State) (r : BusResponse) : (s.respond r).buf = s.buf := rfl
@[simp] theorem State.respond_fresh (s : State) (r : BusResponse) : (s.respond r).fresh = s.fresh := rfl
@[simp] theorem State.respond_agenda (s : State) (r : BusResponse) : (s.respond r).agenda = s.agenda := rfl
@[simp] theorem State.respond_busLog (s : State) (r : BusResponse) : (s.respond r).busLog = r :: s.busLog := rfl

/-! ### `State.useFresh` -/

@[simp] theorem State.useFresh_build (s : State) (n : Nat) : (s.useFresh n).build = s.build := rfl
@[simp] theorem State.useFresh_ie (s : State) (n : Nat) : (s.useFresh n).ie = s.ie := rfl
@[simp] theorem State.useFresh_status (s : State) (n : Nat) : (s.useFresh n).status = s.status := rfl
@[simp] theorem State.useFresh_opnd (s : State) (n : Nat) : (s.useFresh n).opnd = s.opnd := rfl
@[simp] theorem State.useFresh_res (s : State) (n : Nat) : (s.useFresh n).res = s.res := rfl
@[simp] theorem State.useFresh_latCmd (s : State) (n : Nat) : (s.useFresh n).latCmd = s.latCmd := rfl
@[simp] theorem State.useFresh_lat (s : State) (n : Nat) : (s.useFresh n).lat = s.lat := rfl
@[simp] theorem State.useFresh_frame (s : State) (n : Nat) : (s.useFresh n).frame = s.frame := rfl
@[simp] theorem State.useFresh_buf (s : State) (n : Nat) : (s.useFresh n).buf = s.buf := rfl
@[simp] theorem State.useFresh_fresh (s : State) (n : Nat) : (s.useFresh n).fresh = s.fresh + n := rfl
@[simp] theorem State.useFresh_agenda (s : State) (n : Nat) : (s.useFresh n).agenda = s.agenda := rfl
@[simp] theorem State.useFresh_busLog (s : State) (n : Nat) : (s.useFresh n).busLog = s.busLog := rfl

/-! ### `State.softReset` -/

@[simp] theorem State.softReset_build (s : State) : s.softReset.build = s.build := rfl
@[simp] theorem State.softReset_ie (s : State) : s.softReset.ie = false := rfl
@[simp] theorem State.softReset_status (s : State) : s.softReset.status = Status.zero := rfl
@[simp] theorem State.softReset_opnd (s : State) : s.softReset.opnd = Operands.zero := rfl
@[simp] theorem State.softReset_res (s : State) : s.softReset.res = Results.zero := rfl
@[simp] theorem State.softReset_frame (s : State) : s.softReset.frame = FrameState.zero := rfl
@[simp] theorem State.softReset_agenda (s : State) : s.softReset.agenda = s.agenda := rfl
@[simp] theorem State.softReset_busLog (s : State) : s.softReset.busLog = s.busLog := rfl
@[simp] theorem State.softReset_buf (s : State) :
    s.softReset.buf =
      s.buf.scramble s.fresh s.inflightDst.lo (min s.inflightDst.hi s.build.bufBytes - s.inflightDst.lo) := rfl

/-! ### The updates of `STATUS` -/

@[simp] theorem Status.issued_busy (st : Status) : (st.issued).busy = true := rfl
@[simp] theorem Status.issued_done (st : Status) : (st.issued).done = false := rfl
@[simp] theorem Status.issued_err (st : Status) : (st.issued).err = false := rfl
@[simp] theorem Status.issued_overrun (st : Status) : (st.issued).overrun = st.overrun := rfl
@[simp] theorem Status.issued_frameOpen (st : Status) : (st.issued).frameOpen = st.frameOpen := rfl
@[simp] theorem Status.issued_errCode (st : Status) : (st.issued).errCode = 0 := rfl
@[simp] theorem Status.issued_errSub (st : Status) : (st.issued).errSub = 0 := rfl
@[simp] theorem Status.dropped_busy (st : Status) : (st.dropped).busy = st.busy := rfl
@[simp] theorem Status.dropped_done (st : Status) : (st.dropped).done = st.done := rfl
@[simp] theorem Status.dropped_err (st : Status) : (st.dropped).err = st.err := rfl
@[simp] theorem Status.dropped_overrun (st : Status) : (st.dropped).overrun = true := rfl
@[simp] theorem Status.dropped_frameOpen (st : Status) : (st.dropped).frameOpen = st.frameOpen := rfl
@[simp] theorem Status.dropped_errCode (st : Status) : (st.dropped).errCode = st.errCode := rfl
@[simp] theorem Status.dropped_errSub (st : Status) : (st.dropped).errSub = st.errSub := rfl
@[simp] theorem Status.succeeded_busy (st : Status) : (st.succeeded).busy = false := rfl
@[simp] theorem Status.succeeded_done (st : Status) : (st.succeeded).done = true := rfl
@[simp] theorem Status.succeeded_err (st : Status) : (st.succeeded).err = false := rfl
@[simp] theorem Status.succeeded_overrun (st : Status) : (st.succeeded).overrun = st.overrun := rfl
@[simp] theorem Status.succeeded_frameOpen (st : Status) : (st.succeeded).frameOpen = st.frameOpen := rfl
@[simp] theorem Status.succeeded_errCode (st : Status) : (st.succeeded).errCode = 0 := rfl
@[simp] theorem Status.succeeded_errSub (st : Status) : (st.succeeded).errSub = 0 := rfl
@[simp] theorem Status.failed_busy (st : Status) (e : ErrorCode) (sub : BitVec 4) : (st.failed e sub).busy = false := rfl
@[simp] theorem Status.failed_done (st : Status) (e : ErrorCode) (sub : BitVec 4) : (st.failed e sub).done = true := rfl
@[simp] theorem Status.failed_err (st : Status) (e : ErrorCode) (sub : BitVec 4) : (st.failed e sub).err = true := rfl
@[simp] theorem Status.failed_overrun (st : Status) (e : ErrorCode) (sub : BitVec 4) : (st.failed e sub).overrun = st.overrun := rfl
@[simp] theorem Status.failed_frameOpen (st : Status) (e : ErrorCode) (sub : BitVec 4) : (st.failed e sub).frameOpen = st.frameOpen := rfl
@[simp] theorem Status.failed_errCode (st : Status) (e : ErrorCode) (sub : BitVec 4) : (st.failed e sub).errCode = errorCode e := rfl
@[simp] theorem Status.failed_errSub (st : Status) (e : ErrorCode) (sub : BitVec 4) : (st.failed e sub).errSub = sub := rfl
@[simp] theorem Status.writeOneToClear_busy (st : Status) (v : Word) : (st.writeOneToClear v).busy = st.busy := rfl
@[simp] theorem Status.writeOneToClear_done (st : Status) (v : Word) : (st.writeOneToClear v).done = (st.done && !v.getLsbD 1) := rfl
@[simp] theorem Status.writeOneToClear_err (st : Status) (v : Word) : (st.writeOneToClear v).err = (st.err && !v.getLsbD 2) := rfl
@[simp] theorem Status.writeOneToClear_overrun (st : Status) (v : Word) : (st.writeOneToClear v).overrun = (st.overrun && !v.getLsbD 3) := rfl
@[simp] theorem Status.writeOneToClear_frameOpen (st : Status) (v : Word) : (st.writeOneToClear v).frameOpen = st.frameOpen := rfl
@[simp] theorem Status.writeOneToClear_errCode (st : Status) (v : Word) : (st.writeOneToClear v).errCode = st.errCode := rfl
@[simp] theorem Status.writeOneToClear_errSub (st : Status) (v : Word) : (st.writeOneToClear v).errSub = st.errSub := rfl
@[simp] theorem Status.zero_busy : Status.zero.busy = false := rfl
@[simp] theorem Status.zero_done : Status.zero.done = false := rfl
@[simp] theorem Status.zero_err : Status.zero.err = false := rfl
@[simp] theorem Status.zero_overrun : Status.zero.overrun = false := rfl
@[simp] theorem Status.zero_frameOpen : Status.zero.frameOpen = false := rfl
@[simp] theorem Status.zero_errCode : Status.zero.errCode = 0 := rfl
@[simp] theorem Status.zero_errSub : Status.zero.errSub = 0 := rfl

/-- `raise` is `raiseAt` with a zero result (R282). -/
theorem State.raise_eq (s : State) (e : ErrorCode) (sub : BitVec 4) (info : Word) :
    s.raise e sub info = s.raiseAt e sub info 0 0 := rfl

/-- Two states whose fields agree are one state. -/
theorem State.eq_of_fields {s t : State} (h1 : s.build = t.build) (h2 : s.ie = t.ie) (h3 : s.status = t.status)
    (h4 : s.opnd = t.opnd) (h5 : s.res = t.res) (h6 : s.latCmd = t.latCmd) (h7 : s.lat = t.lat)
    (h8 : s.frame = t.frame) (h9 : s.buf = t.buf) (h10 : s.fresh = t.fresh) (h11 : s.agenda = t.agenda)
    (h12 : s.busLog = t.busLog) : s = t := by
  cases s
  cases t
  simp_all

end Sys2Proof.Machine
end

