-- ==== Sys2Proof/Laws/Memory.lean ====
section
/-! SUPPORT. The laws of buffer memory: read after write, what a write leaves alone, and that every memory operation
keeps the canonical form and stays inside the address space. -/

namespace Sys2Proof.Machine

namespace Memory

@[simp] theorem read?_nil (a : Nat) : read? [] a = none := rfl

@[simp] theorem read?_write_same (m : Memory) (a : Nat) (b : Byte) : (m.write a b).read? a = some b := by
  induction m with
  | nil => simp [write, read?]
  | cons c m ih =>
    obtain ⟨x, v⟩ := c
    simp only [write]
    split
    · simp [read?]
    · split
      · simp [read?]
      · simp [read?, *]

theorem read?_write_other (m : Memory) {a x : Nat} (b : Byte) (h : x ≠ a) : (m.write a b).read? x = m.read? x := by
  induction m with
  | nil => simp [write, read?, h]
  | cons c m ih =>
    obtain ⟨y, v⟩ := c
    simp only [write]
    split
    · simp [read?, h]
    · split
      · subst a
        simp [read?, h]
      · simp only [read?, ih]

/-- One cell after one write. -/
theorem read?_write (m : Memory) (a x : Nat) (b : Byte) :
    (m.write a b).read? x = if x = a then some b else m.read? x := by
  by_cases h : x = a
  · simp [h]
  · simp [h, read?_write_other m b h]

theorem read?_writeList_outside (bs : List Byte) (m : Memory) (a x : Nat) (h : ¬ (a ≤ x ∧ x < a + bs.length)) :
    (m.writeList a bs).read? x = m.read? x := by
  induction bs generalizing m a with
  | nil => rfl
  | cons b bs ih =>
    simp only [List.length_cons] at h
    rw [writeList, ih _ _ (by omega), read?_write_other]
    omega

theorem read?_writeList_inside (bs : List Byte) (m : Memory) (a k : Nat) (h : k < bs.length) :
    (m.writeList a bs).read? (a + k) = some bs[k] := by
  induction bs generalizing m a k with
  | nil => exact absurd h (by simp)
  | cons b bs ih =>
    cases k with
    | zero => rw [writeList, read?_writeList_outside _ _ _ _ (by omega)]; simp
    | succ k => simpa [writeList, Nat.add_assoc, Nat.add_comm 1 k] using ih (m.write a b) (a + 1) k (by simpa using h)

theorem read?_scramble_outside (n : Nat) (m : Memory) (k a x : Nat) (h : ¬ (a ≤ x ∧ x < a + n)) :
    (m.scramble k a n).read? x = m.read? x := by
  induction n generalizing m k a with
  | zero => rfl
  | succ n ih =>
    rw [scramble, ih _ _ _ (by omega)]
    split
    · rfl
    · exact read?_write_other m _ (by omega)

/-- A cell of an aborted destination is as it was or holds a byte. -/
theorem read?_scramble_inside (n : Nat) (m : Memory) (k a x : Nat) (h : a ≤ x ∧ x < a + n) :
    (m.scramble k a n).read? x = m.read? x ∨ ((m.scramble k a n).read? x).isSome = true := by
  induction n generalizing m k a with
  | zero => omega
  | succ n ih =>
    by_cases hx : x = a
    · subst hx
      rw [scramble, read?_scramble_outside _ _ _ _ _ (by omega)]
      split <;> simp
    · rw [scramble]
      refine (ih _ (k + 1) (a + 1) (by omega)).imp_left fun h' => h'.trans ?_
      split
      · rfl
      · exact read?_write_other m _ hx

theorem risingFrom_mono (m : Memory) {lo lo' : Nat} (h : lo' ≤ lo) (hm : risingFrom lo m = true) :
    risingFrom lo' m = true := by
  cases m with
  | nil => rfl
  | cons c m =>
    simp only [risingFrom, Bool.and_eq_true, Nat.ble_eq] at hm ⊢
    exact ⟨h.trans hm.1, hm.2⟩

theorem write_risingFrom (m : Memory) (lo a : Nat) (b : Byte) (ha : lo ≤ a) (hm : risingFrom lo m = true) :
    risingFrom lo (m.write a b) = true := by
  induction m generalizing lo with
  | nil => simpa [write, risingFrom] using ha
  | cons c m ih =>
    obtain ⟨x, v⟩ := c
    simp only [risingFrom, Bool.and_eq_true, Nat.ble_eq] at hm
    simp only [write]
    split
    · simp only [risingFrom, Bool.and_eq_true, Nat.ble_eq]
      exact ⟨ha, by omega, hm.2⟩
    · split
      · subst a
        simpa [risingFrom] using hm
      · simp only [risingFrom, Bool.and_eq_true, Nat.ble_eq]
        exact ⟨hm.1, ih (x + 1) (by omega) hm.2⟩

theorem write_wf (m : Memory) (a : Nat) (b : Byte) (h : m.wf = true) : (m.write a b).wf = true :=
  write_risingFrom m 0 a b (Nat.zero_le a) h

theorem writeList_wf (bs : List Byte) (m : Memory) (a : Nat) (h : m.wf = true) : (m.writeList a bs).wf = true := by
  induction bs generalizing m a with
  | nil => exact h
  | cons b bs ih => exact ih _ _ (write_wf m a b h)

theorem scramble_wf (n : Nat) (m : Memory) (k a : Nat) (h : m.wf = true) : (m.scramble k a n).wf = true := by
  induction n generalizing m k a with
  | zero => exact h
  | succ n ih =>
    refine ih _ _ _ ?_
    split
    · exact h
    · exact write_wf m a _ h

theorem write_within (m : Memory) (n a : Nat) (b : Byte) (ha : a < n) (hm : within n m = true) :
    within n (m.write a b) = true := by
  induction m with
  | nil => simpa [within, write, Nat.blt_eq] using ha
  | cons c m ih =>
    obtain ⟨x, v⟩ := c
    simp only [within, List.all_cons, Bool.and_eq_true, Nat.blt_eq] at hm ih
    simp only [write]
    split
    · simpa [within, Nat.blt_eq, ha] using hm
    · split
      · simpa [within, Nat.blt_eq, ha] using hm.2
      · simpa [within, Nat.blt_eq] using ⟨hm.1, by simpa [Nat.blt_eq] using ih hm.2⟩

theorem writeList_within (bs : List Byte) (m : Memory) (n a : Nat) (ha : bs = [] ∨ a + bs.length ≤ n)
    (hm : within n m = true) : within n (m.writeList a bs) = true := by
  induction bs generalizing m a with
  | nil => exact hm
  | cons b bs ih =>
    have ha : a + (bs.length + 1) ≤ n := by simpa using ha
    exact ih _ _ (Or.inr (by omega)) (write_within m n a b (by omega) hm)

theorem scramble_within (c : Nat) (m : Memory) (n k a : Nat) (ha : a + c ≤ n ∨ c = 0) (hm : within n m = true) :
    within n (m.scramble k a c) = true := by
  induction c generalizing m k a with
  | zero => exact hm
  | succ c ih =>
    refine ih _ _ _ (by omega) ?_
    split
    · exact hm
    · exact write_within m n a _ (by omega) hm

end Memory

/-- Nothing is written after a hard reset, and the empty memory is canonical (R321). -/
theorem reset_buf_wf : State.reset.buf.wf = true := rfl

end Sys2Proof.Machine
end

