-- ==== Sys2Proof/Laws/Ops.lean ====
section
/-! SUPPORT. One lemma for each shared operation, saying once everything it can do. The provers cite these instead of
unfolding the operations. -/

namespace Sys2Proof.Machine

/-! ### The memory primitives -/

/-- `MemRead` of one cell answers a byte exactly where the cell exists and holds it. -/
theorem readCell_ok (s : State) (a : Nat) (b : Byte) :
    s.readCell a = .ok b ↔ a < s.build.bufBytes ∧ s.buf.read? a = some b := by
  unfold State.readCell
  split
  · split <;> simp_all
  · simp_all

/-- `MemRead` of one cell faults exactly where the cell does not exist or is unwritten (R83). -/
theorem readCell_error (s : State) (a : Nat) (f : Fault) :
    s.readCell a = .error f ↔
      (a < s.build.bufBytes ∧ s.buf.read? a = none ∧ f = .uninitRead a) ∨
      (s.build.bufBytes ≤ a ∧ f = .outsideBuffer a) := by
  unfold State.readCell
  by_cases ha : a < s.build.bufBytes
  · have hn : ¬ s.build.bufBytes ≤ a := by omega
    cases hr : s.buf.read? a <;> simp [ha, hn, eq_comm]
  · have hn : s.build.bufBytes ≤ a := by omega
    simp [ha, hn, eq_comm]

/-- `MemRead` answers exactly the bytes the cells hold (R81). -/
theorem readBytes_ok (s : State) (a n : Nat) (bs : List Byte) :
    s.readBytes a n = .ok bs ↔
      bs.length = n ∧ (n = 0 ∨ a + n ≤ s.build.bufBytes) ∧ s.HoldsBytes a bs := by
  induction n generalizing a bs with
  | zero => cases bs <;> simp [State.readBytes, State.HoldsBytes]
  | succ n ih =>
    unfold State.readBytes
    cases hc : s.readCell a with
    | error f =>
      simp only [reduceCtorEq, false_iff, not_and]
      intro hl hr hh
      have h0 := hh 0 (by omega)
      rcases (readCell_error s a f).1 hc with ⟨_, hn, _⟩ | ⟨hb, _⟩
      · rw [Nat.add_zero, hn] at h0
        exact absurd h0 (by simp)
      · rcases hr with hr | hr <;> omega
    | ok b =>
      obtain ⟨hab, hb⟩ := (readCell_ok s a b).1 hc
      constructor
      · intro h
        cases hrec : s.readBytes (a + 1) n with
        | error f => simp [hrec] at h
        | ok bs' =>
          simp only [hrec, Except.ok.injEq] at h
          subst h
          obtain ⟨hl, hr, hh⟩ := (ih (a + 1) bs').1 hrec
          refine ⟨by simp [hl], Or.inr (by omega), fun k hk => ?_⟩
          cases k with
          | zero => simpa using hb
          | succ k => simpa [Nat.add_assoc, Nat.add_comm 1 k] using hh k (by simpa using hk)
      · rintro ⟨hl, hr, hh⟩
        cases bs with
        | nil => simp at hl
        | cons b' bs' =>
          have hb' := hh 0 (by simp)
          simp only [Nat.add_zero, List.getElem_cons_zero, hb, Option.some.injEq] at hb'
          have hrec : s.readBytes (a + 1) n = .ok bs' := (ih (a + 1) bs').2
            ⟨by simpa using hl, Or.inr (by omega), fun k hk => by
              have h := hh (k + 1) (by simpa using hk)
              rw [List.getElem_cons_succ] at h
              rw [← h, Nat.add_assoc, Nat.add_comm 1 k]⟩
          simp [hrec, hb']

/-- `MemWrite` answers exactly the state with the bytes written, where the cells exist (R82). -/
theorem writeBytes_ok (s t : State) (a : Nat) (bs : List Byte) :
    s.writeBytes a bs = .ok t ↔
      (bs = [] ∨ InRange s.build a bs.length) ∧ t = { s with buf := s.buf.writeList a bs } := by
  unfold State.writeBytes
  split
  · rename_i h
    simp [h, eq_comm]
  · simp_all

/-- `MemWrite` of a region the command has checked never faults. -/
theorem writeBytes_inRange (s : State) (a : Nat) (bs : List Byte) (h : InRange s.build a bs.length) :
    s.writeBytes a bs = .ok { s with buf := s.buf.writeList a bs } :=
  (writeBytes_ok s _ a bs).2 ⟨Or.inr h, rfl⟩

/-- What the cells hold after `MemWrite`. -/
theorem holdsBytes_written (s : State) (a : Nat) (bs : List Byte) :
    ({ s with buf := s.buf.writeList a bs } : State).HoldsBytes a bs :=
  fun k hk => Memory.read?_writeList_inside bs s.buf a k hk

/-- What `MemWrite` leaves alone. -/
theorem sameOutside_written (s : State) (a : Nat) (bs : List Byte) :
    SameOutside s { s with buf := s.buf.writeList a bs } a bs.length :=
  fun x hx => Memory.read?_writeList_outside bs s.buf a x hx

/-- `MemWrite` keeps memory canonical and inside the address space. -/
theorem memInv_written {s : State} (a : Nat) (bs : List Byte) (hs : s.MemInv)
    (h : bs = [] ∨ InRange s.build a bs.length) :
    ({ s with buf := s.buf.writeList a bs } : State).MemInv :=
  ⟨Memory.writeList_wf bs s.buf a hs.1, Memory.writeList_within bs s.buf s.build.bufBytes a h hs.2⟩

theorem orFault_next {α : Type} (r : Except Fault α) (k : α → Out) (t : State) :
    orFault r k = .next t ↔ ∃ x, r = .ok x ∧ k x = .next t := by
  cases r <;> simp [orFault]

theorem orFault_fault {α : Type} (r : Except Fault α) (k : α → Out) (f : Fault) :
    orFault r k = .fault f ↔ r = .error f ∨ ∃ x, r = .ok x ∧ k x = .fault f := by
  cases r <;> simp [orFault]

/-! ### Completions with their fields written out -/

theorem complete_eq (s : State) (ra rl : Word) : s.complete ra rl = successResult s ra rl := rfl

theorem raiseAt_eq (s : State) (e : ErrorCode) (sub : BitVec 4) (info ra rl : Word) :
    s.raiseAt e sub info ra rl = errorResult s (errorCode e) sub info ra rl := rfl

/-! ### The commands: everything each of them can do -/

/-- The region checks of a codec command (R286): one of three errors, or all pass. -/
theorem withRegions_next {s t : State} {k : Out} (h : withRegions s k = .next t) :
    (¬ InRange s.build s.lat.srcAddr.toNat s.lat.srcLen.toNat ∧ t = s.raise .range 1 0) ∨
    (¬ InRange s.build s.lat.dstAddr.toNat s.lat.dstCap.toNat ∧ t = s.raise .range 2 0) ∨
    (Overlap s.lat.srcAddr.toNat s.lat.srcLen.toNat s.lat.dstAddr.toNat s.lat.dstCap.toNat ∧
      t = s.raise .overlap 0 0) ∨
    (s.RegionsOk ∧ k = .next t) := by
  unfold withRegions at h
  split at h
  · exact Or.inl ⟨‹_›, by simpa [eq_comm] using h⟩
  · split at h
    · exact Or.inr (Or.inl ⟨‹_›, by simpa [eq_comm] using h⟩)
    · split at h
      · exact Or.inr (Or.inr (Or.inl ⟨‹_›, by simpa [eq_comm] using h⟩))
      · exact Or.inr (Or.inr (Or.inr ⟨⟨by simp_all, by simp_all, ‹_›⟩, h⟩))

/-- With the regions in order the checks pass. -/
theorem withRegions_ok {s : State} (h : s.RegionsOk) (k : Out) : withRegions s k = k := by
  obtain ⟨h1, h2, h3⟩ := h
  simp [withRegions, h1, h2, h3]

/-- `ENCODE` past its checks (R146): nothing written and an overflow, or the stream written. -/
theorem execEncode_next {s t : State} (h : execEncode s = .next t) :
    (∃ e sub, t = s.raise e sub 0 ∧ sub.toNat ≤ 4 ∧ ¬ s.RegionsOk) ∨
    ∃ inp out, s.RegionsOk ∧ s.SourceIs inp ∧
      out = encodeStream (buildTree s.build.freq) s.build.encRawFallback inp ∧
      ((s.lat.dstCap.toNat < out.length ∧
          t = s.raiseAt .dstOverflow 0 (BitVec.ofNat 32 out.length) s.lat.dstAddr 0) ∨
        (out.length ≤ s.lat.dstCap.toNat ∧
          t = successResult { s with buf := s.buf.writeList s.lat.dstAddr.toNat out } s.lat.dstAddr
            (BitVec.ofNat 32 out.length))) := by
  rcases withRegions_next h with ⟨hr, rfl⟩ | ⟨hr, rfl⟩ | ⟨hr, rfl⟩ | ⟨hok, h⟩
  · exact Or.inl ⟨_, _, rfl, by decide, fun h => hr h.1⟩
  · exact Or.inl ⟨_, _, rfl, by decide, fun h => hr h.2.1⟩
  · exact Or.inl ⟨_, _, rfl, by decide, fun h => h.2.2 hr⟩
  · obtain ⟨inp, hin, h⟩ := (orFault_next _ _ _).1 h
    obtain ⟨hl, -, hh⟩ := (readBytes_ok _ _ _ _).1 hin
    refine Or.inr ⟨inp, _, hok, ⟨hl, hh⟩, rfl, ?_⟩
    dsimp only at h
    split at h
    · exact Or.inl ⟨‹_›, by simpa [eq_comm] using h⟩
    · obtain ⟨u, hu, h⟩ := (orFault_next _ _ _).1 h
      obtain ⟨-, rfl⟩ := (writeBytes_ok _ _ _ _).1 hu
      exact Or.inr ⟨by omega, by simpa [eq_comm, complete_eq] using h⟩

/-- The bytes a `DECODE` past its region checks writes, and the completion it ends with (R147). -/
theorem execDecode_next {s t : State} (h : execDecode s = .next t) :
    (∃ e sub, t = s.raise e sub 0 ∧ sub.toNat ≤ 4) ∨
    ∃ out u, s.RegionsOk ∧ out.length ≤ s.lat.dstCap.toNat ∧
      u = { s with buf := s.buf.writeList s.lat.dstAddr.toNat out } ∧
      (t = u.complete s.lat.dstAddr (BitVec.ofNat 32 out.length) ∨
        ∃ e sub info, t = u.raiseAt e sub info s.lat.dstAddr (BitVec.ofNat 32 out.length) ∧ sub.toNat ≤ 4) := by
  rcases withRegions_next h with ⟨-, rfl⟩ | ⟨-, rfl⟩ | ⟨-, rfl⟩ | ⟨hok, h⟩
  · exact Or.inl ⟨_, _, rfl, by decide⟩
  · exact Or.inl ⟨_, _, rfl, by decide⟩
  · exact Or.inl ⟨_, _, rfl, by decide⟩
  · obtain ⟨inp, -, h⟩ := (orFault_next _ _ _).1 h
    cases inp with
    | nil => exact Or.inl ⟨_, _, by simpa [eq_comm] using h, by decide⟩
    | cons x data =>
      dsimp only at h
      split at h
      · obtain ⟨u, hu, h⟩ := (orFault_next _ _ _).1 h
        obtain ⟨-, rfl⟩ := (writeBytes_ok _ _ _ _).1 hu
        refine Or.inr ⟨data.take (min data.length s.lat.dstCap.toNat), _, hok, ?_, rfl, ?_⟩
        · simp only [List.length_take]
          omega
        split at h
        · exact Or.inr ⟨_, _, _, by simpa [eq_comm] using h, by decide⟩
        · rename_i hle
          refine Or.inl ?_
          have hk : (data.take (min data.length s.lat.dstCap.toNat)).length = data.length := by
            simp; omega
          rw [hk]
          simpa [eq_comm] using h
      · split at h
        · exact Or.inl ⟨_, _, by simpa [eq_comm] using h, by decide⟩
        · split at h
          · exact Or.inl ⟨_, _, by simpa [eq_comm] using h, by decide⟩
          · unfold decodeWalk at h
            split at h
            rename_i out stop hw
            have hlen : out.length ≤ s.lat.dstCap.toNat := by
              simpa [hw] using decodeCoded_length_le (buildTree s.build.freq) s.lat.dstCap.toNat x data
            obtain ⟨u, hu, h⟩ := (orFault_next _ _ _).1 h
            obtain ⟨-, rfl⟩ := (writeBytes_ok _ _ _ _).1 hu
            refine Or.inr ⟨_, _, hok, hlen, rfl, ?_⟩
            split at h
            · exact Or.inl (by simpa [eq_comm] using h)
            · exact Or.inr ⟨_, _, _, by simpa [eq_comm] using h, by decide⟩
            · exact Or.inr ⟨_, _, _, by simpa [eq_comm] using h, by decide⟩

/-- Appending bytes to the frame (R202, R203): they are written at the cursor, which moves past them. -/
theorem appendBytes_next (s t : State) (bs : List Byte) :
    appendBytes s bs = .next t ↔
      (bs = [] ∨ InRange s.build (s.frame.base.toNat + s.frame.cur.toNat) bs.length) ∧
      t = (({ s with
              buf := s.buf.writeList (s.frame.base.toNat + s.frame.cur.toNat) bs } : State).advanceFrame
            bs.length).complete s.frame.base (BitVec.ofNat 32 (s.frame.cur.toNat + bs.length)) := by
  unfold appendBytes
  rw [orFault_next]
  constructor
  · rintro ⟨u, hu, h⟩
    obtain ⟨hr, rfl⟩ := (writeBytes_ok _ _ _ _).1 hu
    exact ⟨hr, by simpa [eq_comm] using h⟩
  · rintro ⟨hr, rfl⟩
    exact ⟨_, (writeBytes_ok _ _ _ _).2 ⟨hr, rfl⟩, rfl⟩

/-- `FB_RAW` and `FB_TEXT` (R203, R204): an error that leaves everything but the completion as it was, or the source
bytes appended. -/
theorem appendSource_next {s t : State} (h : appendSource s = .next t) :
    (s.status.frameOpen = false ∧ t = s.raise .frameNotOpen 0 0) ∨
    (s.status.frameOpen = true ∧ ∃ e sub info, t = s.raiseAt e sub info s.frame.base s.frame.cur ∧ sub.toNat ≤ 4) ∨
    (s.status.frameOpen = true ∧
      ∃ bs, s.SourceIs bs ∧ InRange s.build s.lat.srcAddr.toNat s.lat.srcLen.toNat ∧
        ¬ Overlap s.lat.srcAddr.toNat s.lat.srcLen.toNat s.frame.base.toNat s.frame.cap.toNat ∧
        s.frame.cur.toNat + bs.length ≤ s.frame.cap.toNat ∧ appendBytes s bs = .next t) := by
  unfold appendSource at h
  dsimp only at h
  split at h
  · exact Or.inl ⟨by simp_all, by simpa [eq_comm] using h⟩
  · have ho : s.status.frameOpen = true := by simp_all
    split at h
    · exact Or.inr (Or.inl ⟨ho, _, _, _, by simpa [eq_comm, raiseFrame] using h, by decide⟩)
    · split at h
      · exact Or.inr (Or.inl ⟨ho, _, _, _, by simpa [eq_comm, raiseFrame] using h, by decide⟩)
      · split at h
        · exact Or.inr (Or.inl ⟨ho, _, _, _, by simpa [eq_comm, raiseFrame] using h, by decide⟩)
        · obtain ⟨bs, hbs, h⟩ := (orFault_next _ _ _).1 h
          obtain ⟨hl, -, hh⟩ := (readBytes_ok _ _ _ _).1 hbs
          exact Or.inr (Or.inr ⟨ho, bs, ⟨hl, hh⟩, by simp_all, ‹_›, by omega, h⟩)

/-- `FB_OPCODE` (R202): an error, or the immediate appended. -/
theorem execFbOpcode_next {s t : State} {imm : Byte} (h : execFbOpcode imm s = .next t) :
    (s.status.frameOpen = false ∧ t = s.raise .frameNotOpen 0 0) ∨
    (s.status.frameOpen = true ∧ ∃ e sub info, t = s.raiseAt e sub info s.frame.base s.frame.cur ∧ sub.toNat ≤ 4) ∨
    (s.status.frameOpen = true ∧ s.frame.cur.toNat + 1 ≤ s.frame.cap.toNat ∧ appendBytes s [imm] = .next t) := by
  unfold execFbOpcode at h
  split at h
  · exact Or.inl ⟨by simp_all, by simpa [eq_comm] using h⟩
  · have ho : s.status.frameOpen = true := by simp_all
    split at h
    · exact Or.inr (Or.inl ⟨ho, _, _, _, by simpa [eq_comm, raiseFrame] using h, by decide⟩)
    · exact Or.inr (Or.inr ⟨ho, by omega, h⟩)

/-- `FRAME_PARSE` (R210): an error, or the first byte and the remainder reported. -/
theorem execFrameParse_next {s t : State} (h : execFrameParse s = .next t) :
    (∃ e sub, t = s.raise e sub 0 ∧ sub.toNat ≤ 4) ∨
    (InRange s.build s.lat.srcAddr.toNat s.lat.srcLen.toNat ∧ s.lat.srcLen.toNat ≠ 0 ∧
      ∃ op, s.buf.read? s.lat.srcAddr.toNat = some op ∧
        t = (s.setOpcode op).complete (BitVec.ofNat 32 (s.lat.srcAddr.toNat + 1))
          (BitVec.ofNat 32 (s.lat.srcLen.toNat - 1))) := by
  unfold execFrameParse at h
  dsimp only at h
  split at h
  · exact Or.inl ⟨_, _, by simpa [eq_comm] using h, by decide⟩
  · split at h
    · exact Or.inl ⟨_, _, by simpa [eq_comm] using h, by decide⟩
    · obtain ⟨op, hop, h⟩ := (orFault_next _ _ _).1 h
      exact Or.inr ⟨by simp_all, ‹_›, op, ((readCell_ok _ _ _).1 hop).2, by simpa [eq_comm] using h⟩

/-! ### The step -/

/-- Everything a step that answers a next state can be: the engine's turn, or a turn of the agenda. -/
theorem step_next {s t : State} (h : step s = .next t) :
    s.build.wellFormed = true ∧
    ((s.agenda = [] ∧ engineTurn s = .next t) ∨
      (∃ op rest, s.agenda = .host op :: rest ∧ hostTurn op { s with agenda := rest } = .next t) ∨
      (∃ rest, s.agenda = .engine :: rest ∧ engineTurn { s with agenda := rest } = .next t) ∨
      (∃ rest, s.agenda = .hardReset :: rest ∧ t = State.hardReset { s with agenda := rest })) := by
  unfold step at h
  split at h
  · refine ⟨‹_›, ?_⟩
    split at h
    · exact Or.inl ⟨‹_›, h⟩
    · exact Or.inr (Or.inl ⟨_, _, ‹_›, h⟩)
    · exact Or.inr (Or.inr (Or.inl ⟨_, ‹_›, h⟩))
    · exact Or.inr (Or.inr (Or.inr ⟨_, ‹_›, by simpa [eq_comm] using h⟩))
  · simp at h

/-- The engine's turn: idle, an illegal word, or the command's meaning (R253). -/
theorem engineTurn_next {s t : State} (h : engineTurn s = .next t) :
    (s.status.busy = false ∧ t = s) ∨
    (s.status.busy = true ∧
      ((∃ e, decodeCmd s.latCmd = .error e ∧ t = s.raise .illegalCommand (illegalSub e) s.latCmd) ∨
        ∃ i, decodeCmd s.latCmd = .ok i ∧ exec i s = .next t)) := by
  unfold engineTurn at h
  split at h
  · refine Or.inr ⟨‹_›, ?_⟩
    unfold engineStep at h
    split at h
    · exact Or.inl ⟨_, ‹_›, by simpa [eq_comm] using h⟩
    · exact Or.inr ⟨_, ‹_›, h⟩
  · exact Or.inl ⟨by simp_all, by simpa [eq_comm] using h⟩

end Sys2Proof.Machine
end

