-- ==== Sys2Proof/Laws/Bus.lean ====
section
/-! SUPPORT. What a host bus operation can do, said once, and what each host mnemonic does. -/

namespace Sys2Proof.Machine

/-- Every register is found at its offset (R34). -/
@[simp] theorem regAt_regOffset (r : Reg) : regAt (regOffset r) = some r := by cases r <;> decide

/-- The bus map gives a cell only inside the buffer (R72). -/
theorem busTarget_cell {b : Build} {w : Width} {addr : Word} {i : Nat} (h : busTarget b w addr = .cell i) :
    i < b.bufBytes := by
  unfold busTarget at h
  dsimp only at h
  split at h
  · cases w <;> simp only [reduceCtorEq] at h
    split at h <;> simp at h
  · split at h
    · cases w <;> simp only [reduceCtorEq, BusTarget.cell.injEq] at h
      · omega
      · split at h <;> simp at h
    · simp at h

/-- The bus map gives four cells only aligned and inside the buffer (R72, R74). -/
theorem busTarget_cells4 {b : Build} {w : Width} {addr : Word} {i : Nat} (h : busTarget b w addr = .cells4 i) :
    i % 4 = 0 ∧ i + 4 ≤ b.bufBytes := by
  unfold busTarget at h
  dsimp only at h
  split at h
  · cases w <;> simp only [reduceCtorEq] at h
    split at h <;> simp at h
  · split at h
    · cases w <;> simp only [reduceCtorEq] at h
      split at h
      · simp only [BusTarget.cells4.injEq] at h
        subst h
        assumption
      · simp at h
    · simp at h

/-- No cell of a range lies in an in-flight region exactly when none is found (R334). -/
theorem inflightCell?_none (s : State) (i n : Nat) :
    inflightCell? s i n = none ↔ ∀ k, k < n → ¬ s.inflightSrc.Holds (i + k) ∧ ¬ s.inflightDst.Holds (i + k) := by
  induction n generalizing i with
  | zero => simp [inflightCell?]
  | succ n ih =>
    unfold inflightCell?
    split
    · rename_i hi
      simp only [reduceCtorEq, false_iff]
      intro h
      have h0 := h 0 (by omega)
      rw [Nat.add_zero] at h0
      exact hi.elim h0.1 h0.2
    · rename_i hi
      rw [ih]
      constructor
      · intro h k hk
        cases k with
        | zero => exact not_or.1 hi
        | succ k => simpa only [Nat.add_assoc, Nat.add_comm 1 k] using h k (by omega)
      · intro h k hk
        simpa only [Nat.add_assoc, Nat.add_comm 1 k] using h (k + 1) (by omega)

/-- A host buffer write: the bytes written, outside the in-flight regions (R74, R334). -/
theorem busWriteBytes_next {s t : State} {i : Nat} {bs : List Byte} (h : busWriteBytes s i bs = .next t) :
    (∀ k, k < bs.length → ¬ s.inflightSrc.Holds (i + k) ∧ ¬ s.inflightDst.Holds (i + k)) ∧
    (bs = [] ∨ InRange s.build i bs.length) ∧
    t = ({ s with buf := s.buf.writeList i bs } : State).respond .ack := by
  unfold busWriteBytes at h
  split at h
  · simp at h
  · obtain ⟨u, hu, h⟩ := (orFault_next _ _ _).1 h
    obtain ⟨hr, rfl⟩ := (writeBytes_ok _ _ _ _).1 hu
    exact ⟨(inflightCell?_none s i bs.length).1 ‹_›, hr, by simpa [eq_comm] using h⟩

/-- Everything a host turn can do: record a response (reads, bus errors, ignored writes), write a register, or write
buffer cells. -/
theorem hostTurn_next {s t : State} {op : BusOp} (h : hostTurn op s = .next t) :
    (∃ n r, t = (s.useFresh n).respond r) ∨
    (∃ r v, t = (s.writeReg r v).respond .ack) ∨
    (∃ i bs, (∀ k, k < bs.length → ¬ s.inflightSrc.Holds (i + k) ∧ ¬ s.inflightDst.Holds (i + k)) ∧
      (bs = [] ∨ InRange s.build i bs.length) ∧
      t = ({ s with buf := s.buf.writeList i bs } : State).respond .ack) := by
  cases op with
  | read w addr =>
    left
    simp only [hostTurn] at h
    split at h
    · rename_i r _
      obtain rfl : busReadReg s r = t := by simpa using h
      cases r with
      | none => exact ⟨0, _, rfl⟩
      | some r =>
        simp only [busReadReg]
        split
        · exact ⟨1, _, rfl⟩
        · exact ⟨0, _, rfl⟩
    · obtain ⟨b, -, h⟩ := (orFault_next _ _ _).1 h
      exact ⟨1, _, by simpa [eq_comm] using h⟩
    · obtain ⟨b0, -, h⟩ := (orFault_next _ _ _).1 h
      obtain ⟨b1, -, h⟩ := (orFault_next _ _ _).1 h
      obtain ⟨b2, -, h⟩ := (orFault_next _ _ _).1 h
      obtain ⟨b3, -, h⟩ := (orFault_next _ _ _).1 h
      exact ⟨4, _, by simpa [eq_comm] using h⟩
    · obtain rfl : s.respond .busError = t := by simpa using h
      exact ⟨0, .busError, rfl⟩
  | write w addr v =>
    simp only [hostTurn] at h
    split at h
    · rename_i r _
      obtain rfl : busWriteReg s r v = t := by simpa using h
      cases r with
      | none => exact Or.inl ⟨0, _, rfl⟩
      | some r => exact Or.inr (Or.inl ⟨r, v, rfl⟩)
    · exact Or.inr (Or.inr ⟨_, _, busWriteBytes_next h⟩)
    · exact Or.inr (Or.inr ⟨_, _, busWriteBytes_next h⟩)
    · obtain rfl : s.respond .busError = t := by simpa using h
      exact Or.inl ⟨0, .busError, rfl⟩

/-! ### The host mnemonics -/

/-- Every register offset is an aligned offset of the register window (R34, R73). -/
theorem busTarget_reg (b : Build) (r : Reg) :
    busTarget b .w32 (BitVec.ofNat 32 (regOffset r)) = .register (some r) := by
  cases r <;> rfl

/-- `WR <reg>, v` (R10). -/
theorem hostTurn_WR (r : Reg) (v : Word) (s : State) :
    hostTurn (opWR r v) s = .next ((s.writeReg r v).respond .ack) := by
  simp [hostTurn, opWR, busTarget_reg, busWriteReg]

/-- `RD <reg>` (R10). -/
theorem hostTurn_RD (r : Reg) (s : State) : hostTurn (opRD r) s = .next (busReadReg s (some r)) := by
  simp [hostTurn, opRD, busTarget_reg]

/-- An exact register read (R34 to R44, R333). -/
theorem busReadReg_exact (s : State) (r : Reg) (h : s.status.busy = false ∨ heldWhileBusy r = false) :
    busReadReg s (some r) = s.respond (.word (s.regValue r)) := by
  rcases h with h | h <;> simp [busReadReg, h]

/-- The bus address of a buffer offset does not wrap. -/
theorem bufferAddr_toNat (i : Nat) (h : i < 2 ^ 24) : (BitVec.ofNat 32 (bufWindow + i)).toNat = bufWindow + i := by
  have hw : bufWindow = 65536 := rfl
  rw [BitVec.toNat_ofNat, Nat.mod_eq_of_lt (by omega)]

/-- The buffer window lies above the register window (R72). -/
theorem bufferAddr_above (i : Nat) : regWindowLast < bufWindow + i := by
  have hw : bufWindow = 65536 := rfl
  have hl : regWindowLast = 255 := rfl
  omega

/-- The buffer window's bytes (R72, R74). -/
theorem busTarget_byte {b : Build} (hb : b.wellFormed = true) {i : Nat} (hi : i < b.bufBytes) :
    busTarget b .w8 (BitVec.ofNat 32 (bufWindow + i)) = .cell i := by
  have hb' : b.bufBytes ≤ 16777216 := by
    simp only [Build.wellFormed, Bool.and_eq_true, Nat.ble_eq] at hb
    exact hb.2
  rw [busTarget, bufferAddr_toNat i (by omega), if_neg (not_le_of_gt (bufferAddr_above i)), if_pos (by omega)]
  simp

/-- The buffer window's aligned words (R72, R74). -/
theorem busTarget_word {b : Build} (hb : b.wellFormed = true) {i : Nat} (h4 : i % 4 = 0) (hi : i + 4 ≤ b.bufBytes) :
    busTarget b .w32 (BitVec.ofNat 32 (bufWindow + i)) = .cells4 i := by
  have hb' : b.bufBytes ≤ 16777216 := by
    simp only [Build.wellFormed, Bool.and_eq_true, Nat.ble_eq] at hb
    exact hb.2
  rw [busTarget, bufferAddr_toNat i (by omega), if_neg (not_le_of_gt (bufferAddr_above i)), if_pos (by omega)]
  simp [h4, hi]

end Sys2Proof.Machine
end

