-- ==== Sys2Proof/Laws/PerInstr.lean ====
section
/-! SUPPORT. One lemma per command for the family `EncodedFields`: the command word holds the operation number of
spec/30_encoding.md R114 in `OP`, the immediate in `IMM8`, and 0 in both reserved fields (R110, R113). -/

namespace Sys2Proof.Laws.EncodedFields

open Sys2Proof.Machine

/-- The fields of the command word of `i`. -/
def Statement (i : Instr) : Prop :=
  (CmdWord.op (encodeCmd i)).toNat = opNumber i ∧ (CmdWord.imm8 (encodeCmd i)).toNat = immNumber i ∧
    CmdWord.rsv0 (encodeCmd i) = 0 ∧ CmdWord.rsv1 (encodeCmd i) = 0

theorem nop : Statement .nop := by unfold Statement; decide
theorem encode : Statement .encode := by unfold Statement; decide
theorem decode : Statement .decode := by unfold Statement; decide
theorem fbBegin : Statement .fbBegin := by unfold Statement; decide
theorem fbOpcode (imm : Byte) : Statement (.fbOpcode imm) := by
  have h : ∀ i : Byte, CmdWord.op (encodeCmd (.fbOpcode i)) = 4 ∧ CmdWord.imm8 (encodeCmd (.fbOpcode i)) = i ∧
      CmdWord.rsv0 (encodeCmd (.fbOpcode i)) = 0 ∧ CmdWord.rsv1 (encodeCmd (.fbOpcode i)) = 0 := by decide +kernel
  obtain ⟨h1, h2, h3, h4⟩ := h imm
  exact ⟨by rw [h1]; rfl, by rw [h2]; rfl, h3, h4⟩
theorem fbRaw : Statement .fbRaw := by unfold Statement; decide
theorem fbText : Statement .fbText := by unfold Statement; decide
theorem fbEnd : Statement .fbEnd := by unfold Statement; decide
theorem frameParse : Statement .frameParse := by unfold Statement; decide

end Sys2Proof.Laws.EncodedFields
end

