-- ==== Sys2Proof/Tests/Slice0.lean ====
section
/-! SUPPORT. The model's own tests, each on one step of a small state, with expected results from spec/95_test_vectors.md
(the vector is named in the comment) or written out from an encoding rule; and a witness for the hypotheses of every
statement of Sys2Proof/Certificates/Slice0/Obligations.lean that has any. -/

namespace Sys2Proof.Tests

open Sys2Proof.Machine

/-! ### Test builds and states -/

/-- The uniform table T1 (95 section 2). -/
def freqT1 : Vector Nat 256 := Vector.replicate 256 1

/-- The skewed table T2 (95 section 2). -/
def freqT2 : Vector Nat 256 := (((freqT1.set 0x20 512).set 0x61 256).set 0x70 128).set 0x6D 64

/-- A hard reset block with table T2. -/
def blockT2 : State := { State.reset with build := { freq := freqT2, bufBytes := 16384, encRawFallback := true } }

/-- The block with a latched command's operands and some bytes written. -/
def withOps (a n d c : Word) (m : Memory) : State :=
  { blockT2 with lat := { srcAddr := a, srcLen := n, dstAddr := d, dstCap := c }, buf := m }

/-- The block with an open frame, a latched source and some bytes written. -/
def withFrame (base cap cur a n : Word) (m : Memory) : State :=
  { withOps a n 0 0 m with
    frame := { base := base, cap := cap, cur := cur }
    status := { Status.zero with frameOpen := true } }

/-- `STATUS`, `RES_ADDR`, `RES_LEN` and `ERR_INFO` after a step, as the tables of 95 give them. -/
def seen (o : Out) : Option (Word × Word × Word × Word) :=
  (nextOf o).map fun t => (t.status.toWord, t.res.addr, t.res.len, t.res.errInfo)

/-- A cell after a step. -/
def cellAfter (o : Out) (a : Nat) : Option Byte := (nextOf o).bind fun t => t.buf.read? a

/-- The newest bus response after a step. -/
def lastResponse (o : Out) : Option BusResponse := (nextOf o).bind fun t => t.busLog.head?

/-! ### Well-formedness: an ill-formed term for each check (R5, 93 U21) -/

theorem test_wellFormed_default : blockT2.build.wellFormed = true := by decide
theorem test_wellFormed_multipleOf4 : ({ blockT2.build with bufBytes := 4098 } : Build).wellFormed = false := by decide
theorem test_wellFormed_atLeast4 : ({ blockT2.build with bufBytes := 0 } : Build).wellFormed = false := by decide
theorem test_wellFormed_atMost : ({ blockT2.build with bufBytes := 16777220 } : Build).wellFormed = false := by decide
theorem test_wellFormed_largest : ({ blockT2.build with bufBytes := 16777216 } : Build).wellFormed = true := by decide
theorem test_step_refuses_invalidBuild :
    step { blockT2 with build := { blockT2.build with bufBytes := 4098 } } = .refused .invalidBuild := rfl

/-! ### Decoding: words written out from R110 and R114, field by field: RSV1, IMM8, RSV0, OP -/

theorem test_decode_nop : decodeCmd 0b0000000000000000_00000000_0000_0000 = .ok .nop := by decide
theorem test_decode_encode : decodeCmd 0b0000000000000000_00000000_0000_0001 = .ok .encode := by decide
theorem test_decode_decode : decodeCmd 0b0000000000000000_00000000_0000_0010 = .ok .decode := by decide
theorem test_decode_fbBegin : decodeCmd 0b0000000000000000_00000000_0000_0011 = .ok .fbBegin := by decide
theorem test_decode_fbOpcode : decodeCmd 0b0000000000000000_00110110_0000_0100 = .ok (.fbOpcode 0x36) := by decide
theorem test_decode_fbOpcode_top : decodeCmd 0b0000000000000000_10000001_0000_0100 = .ok (.fbOpcode 0x81) := by decide
theorem test_decode_fbRaw : decodeCmd 0b0000000000000000_00000000_0000_0101 = .ok .fbRaw := by decide
theorem test_decode_fbText : decodeCmd 0b0000000000000000_00000000_0000_0110 = .ok .fbText := by decide
theorem test_decode_fbEnd : decodeCmd 0b0000000000000000_00000000_0000_0111 = .ok .fbEnd := by decide
theorem test_decode_frameParse : decodeCmd 0b0000000000000000_00000000_0000_1000 = .ok .frameParse := by decide
theorem test_encode_fbOpcode : encodeCmd (.fbOpcode 0x36) = 0x00003604 := by decide
/-- C2, C3. -/
theorem test_decode_badOp : decodeCmd 0x00000009 = .error .illegalOp ∧ decodeCmd 0x0000000F = .error .illegalOp := by
  decide
/-- C4, C5, C7. -/
theorem test_decode_reserved :
    decodeCmd 0x00000010 = .error .reservedField ∧ decodeCmd 0x00010001 = .error .reservedField ∧
      decodeCmd 0x00000103 = .error .reservedField := by decide
/-- C6: the operation is checked first. -/
theorem test_decode_priority : decodeCmd 0xFFFFFFFF = .error .illegalOp := by decide

/-! ### The tree (95 section 3) -/

/-- The perfect tree of depth `d` over leaves `2^d * n ..`. -/
def perfect : Nat → Nat → Tree
  | 0, n => .leaf (BitVec.ofNat 8 n)
  | d + 1, n => .node (perfect d (2 * n)) (perfect d (2 * n + 1))

/-- The subtree over a list of leaves in order, `d` levels deep. -/
def spread : Nat → List Nat → Tree
  | 0, ss => .leaf (BitVec.ofNat 8 (ss.headD 0))
  | d + 1, ss => .node (spread d (ss.take (2 ^ d))) (spread d (ss.drop (2 ^ d)))

/-- The bytes of V5's table from `lo` to `hi`, less the four short codes. -/
def plain (lo hi : Nat) : List Nat :=
  ((List.range 256).filter fun s => Nat.ble lo s && Nat.ble s hi).filter fun s => !([0x20, 0x61, 0x6D, 0x70].contains s)

/-- The pairs of leaves under 11-bit codes, and the four 10-bit ones before them (V5: codes `11010…`). -/
def pairs : List Nat → List Tree
  | a :: b :: ss => .node (.leaf (BitVec.ofNat 8 a)) (.leaf (BitVec.ofNat 8 b)) :: pairs ss
  | _ => []

/-- The tree of `2^d` subtrees in order. -/
def join : Nat → List Tree → Tree
  | 0, ts => ts.headD (.leaf 0)
  | d + 1, ts => .node (join d (ts.take (2 ^ d))) (join d (ts.drop (2 ^ d)))

/-- The code table V5, written as the tree its codes are the paths of. -/
def treeT2 : Tree :=
  .node (.leaf 0x20)
    (.node
      (.node (.leaf 0x70) (spread 7 (plain 0x39 0xBB)))
      (.node
        (.node (spread 6 (plain 0xBC 0xFB))
          (.node (join 5 ([.leaf 0xFC, .leaf 0xFD, .leaf 0xFE, .leaf 0xFF] ++ pairs (plain 0x00 0x38))) (.leaf 0x6D)))
        (.leaf 0x61)))

/-- V1. -/
theorem test_tree_T1 : buildTree freqT1 = perfect 8 0 := by decide +kernel

/-- V5. -/
theorem test_tree_T2 : buildTree freqT2 = treeT2 := by decide +kernel

/-- V4. -/
theorem test_codes_T2 :
    treeT2.code 0x20 = [false] ∧ treeT2.code 0x61 = [true, true, true] ∧ treeT2.code 0x70 = [true, false, false] ∧
      treeT2.code 0x36 = [true, true, false, true, false, true, true, true, true, false, true] := by decide +kernel

/-- V4. -/
theorem test_lMax_T2 : treeT2.lMax = 11 := by decide +kernel

/-! ### The transforms on byte sequences (95 sections 4 and 5) -/

/-- E2. -/
theorem test_stream_E2 : encodeStream (perfect 8 0) true [0x01] = [0x00, 0x80] := by decide +kernel
/-- E9: `m = n`, so coded. -/
theorem test_stream_E9 : encodeStream treeT2 true [0x61, 0x36] = [0x02, 0x5F, 0x2F] := by decide +kernel
/-- E10: `m > n`, so raw. -/
theorem test_stream_E10 : encodeStream treeT2 true [0x36] = [0xFF, 0x36] := by decide +kernel
/-- E16: coded without the fallback. -/
theorem test_stream_E16 : encodeStream treeT2 false [0x36] = [0x05, 0xEB, 0x05] := by decide +kernel
/-- D7: padding bits of value 1 are ignored. -/
theorem test_walk_D7 : decodeCoded treeT2 4 0x05 [0xFF] = ([0x61], .complete) := by decide +kernel
/-- D15. -/
theorem test_walk_D15 : decodeCoded treeT2 8 0x00 [0xFF] = ([0x61, 0x61], .truncated 6) := by decide +kernel
/-- D18: the overflow comes first in stream order. -/
theorem test_walk_D18 : decodeCoded treeT2 1 0x00 [0xFF] = ([0x61], .overflow 3) := by decide +kernel
/-- D19. -/
theorem test_walk_D19 : decodeCoded treeT2 3 0x00 [0x00] = ([0x20, 0x20, 0x20], .overflow 3) := by decide +kernel

/-! ### ENCODE and DECODE, whole commands -/

/-- E20's state. -/
def stateE20 : State := withOps 0x10 3 0x100 3 [(0x10, 0x70), (0x11, 0x61), (0x12, 0x6D)]

/-- E20. -/
theorem test_encode_E20 :
    seen (exec .encode stateE20) = some (0x00000002, 0x100, 3, 0) ∧ cellAfter (exec .encode stateE20) 0x102 = some 6 := by
  have h : buildTree stateE20.build.freq = treeT2 := test_tree_T2
  rw [exec, execEncode, h]
  decide +kernel

/-- E21: the overflow writes nothing. -/
theorem test_encode_E21 :
    seen (exec .encode { stateE20 with lat := { stateE20.lat with dstCap := 2 } }) = some (0x00000506, 0x100, 0, 3) ∧
      cellAfter (exec .encode { stateE20 with lat := { stateE20.lat with dstCap := 2 } }) 0x100 = none := by
  have h : buildTree ({ stateE20 with lat := { stateE20.lat with dstCap := 2 } } : State).build.freq = treeT2 :=
    test_tree_T2
  rw [exec, execEncode, h]
  decide +kernel

/-- E22: the empty stream needs one byte. -/
theorem test_encode_E22 : seen (exec .encode (withOps 0x10 0 0x100 0 [])) = some (0x00000506, 0x100, 0, 1) := by
  decide

/-- E25: the sum does not wrap. -/
theorem test_encode_E25 : seen (exec .encode (withOps 0xFFFFFFFF 2 0 0 [])) = some (0x00001306, 0, 0, 0) := by decide

/-- D15's state. -/
def stateD15 : State := withOps 0x200 2 0x300 8 [(0x200, 0x00), (0x201, 0xFF)]

/-- D15. -/
theorem test_decode_D15 :
    seen (exec .decode stateD15) = some (0x00004106, 0x300, 2, 6) ∧ cellAfter (exec .decode stateD15) 0x301 = some 0x61 := by
  have h : buildTree stateD15.build.freq = treeT2 := test_tree_T2
  simp only [exec, execDecode, decodeWalk, h]
  decide +kernel

/-- D20. -/
theorem test_decode_D20 :
    seen (exec .decode (withOps 0x200 4 0x300 2 [(0x200, 0xFF), (0x201, 1), (0x202, 2), (0x203, 3)])) =
      some (0x00000506, 0x300, 2, 16) := by decide

/-- D13: the header is checked before the missing data. -/
theorem test_decode_D13 :
    seen (exec .decode (withOps 0x200 1 0x300 4 [(0x200, 0xFE)])) = some (0x00002106, 0, 0, 0) := by decide

/-! ### The framer (95 section 6) -/

/-- F1. -/
theorem test_fbBegin_F1 : seen (exec .fbBegin (withOps 0 0 0x100 8 [])) = some (0x00000012, 0x100, 0, 0) := by decide
/-- F12: a failed `FB_BEGIN` closes the open frame. -/
theorem test_fbBegin_F12 :
    seen (exec .fbBegin { withFrame 0x100 8 1 0 0 [] with lat := { Operands.zero with dstAddr := 0x3FFC, dstCap := 8 } }) =
      some (0x00002306, 0, 0, 0) := by decide
/-- F2. -/
theorem test_fbOpcode_F2 :
    seen (exec (.fbOpcode 0x36) (withFrame 0x100 8 0 0 0 [])) = some (0x00000012, 0x100, 1, 0) ∧
      cellAfter (exec (.fbOpcode 0x36) (withFrame 0x100 8 0 0 0 [])) 0x100 = some 0x36 := by decide
/-- F8: the frame is full. -/
theorem test_fbOpcode_F8 :
    seen (exec (.fbOpcode 0) (withFrame 0x100 8 8 0 0 [])) = some (0x00000516, 0x100, 8, 9) := by decide
/-- F3: the source lies in the unused part of the frame region. -/
theorem test_fbRaw_F3 :
    seen (exec .fbRaw (withFrame 0x100 8 1 0x104 1 [(0x104, 1)])) = some (0x00000416, 0x100, 1, 0) := by decide
/-- F7: a zero-length field succeeds on a full frame. -/
theorem test_fbRaw_F7 :
    seen (exec .fbRaw (withFrame 0x100 8 8 0x4000 0 [])) = some (0x00000012, 0x100, 8, 0) := by decide
/-- R204's example: no terminator. -/
theorem test_fbText_example :
    seen (exec .fbText (withFrame 0x100 8 0 0 3 [(0, 0x6D), (1, 0x61), (2, 0x70)])) = some (0x00000012, 0x100, 3, 0) ∧
      cellAfter (exec .fbText (withFrame 0x100 8 0 0 3 [(0, 0x6D), (1, 0x61), (2, 0x70)])) 0x103 = none := by decide
/-- F5's shape: nine bytes do not fit eight. -/
theorem test_fbText_F5 :
    seen (exec .fbText (withFrame 0x100 8 1 0 8 [])) = some (0x00000516, 0x100, 1, 9) := by decide
/-- F9. -/
theorem test_fbEnd_F9 : seen (exec .fbEnd (withFrame 0x100 8 8 0 0 [])) = some (0x00000002, 0x100, 8, 0) := by decide
/-- F10. -/
theorem test_fbEnd_F10 : seen (exec .fbEnd blockT2) = some (0x00000706, 0, 0, 0) := by decide
/-- F20: the remainder's cells need not be written. -/
theorem test_frameParse_F20 :
    seen (exec .frameParse (withOps 0x200 4 0 0 [(0x200, 0x25)])) = some (0x00000002, 0x201, 3, 0) ∧
      (nextOf (exec .frameParse (withOps 0x200 4 0 0 [(0x200, 0x25)]))).map (·.res.opcode) = some 0x25 := by decide
/-- F24: in range, then empty. -/
theorem test_frameParse_F24 : seen (exec .frameParse (withOps 0x4000 0 0 0 [])) = some (0x00000206, 0, 0, 0) := by decide

/-! ### Sequencing, host bus, interrupt, reset (95 section 7) -/

/-- C10. -/
theorem test_nop_C10 : seen (step (blockT2.withFetchWord 32 0)) = some (0x00000002, 0, 0, 0) := by decide
/-- C2, by way of a step. -/
theorem test_illegal_C2 : seen (step (blockT2.withFetchWord 32 9)) = some (0x00001606, 0, 0, 9) := by decide
/-- R323: the block accepts a command at once after reset, and each of the nine completes (R253). -/
theorem test_first_step_after_reset :
    ([0x0, 0x1, 0x2, 0x3, 0x3604, 0x5, 0x6, 0x7, 0x8].all fun w =>
      (seen (step (State.reset.withFetchWord 32 w))).isSome) = true := by decide
/-- C11: `IRQ` rises with the completion. -/
theorem test_irq_C11 : (nextOf (exec .nop { blockT2 with ie := true })).map State.irq = some true := by decide
/-- A reserved field error, completed and not acknowledged. -/
def failedStatus : Status :=
  { busy := false, done := true, err := true, overrun := true, frameOpen := false, errCode := 6, errSub := 1 }

/-- C12: the codes survive the acknowledge. -/
theorem test_ack_C12 :
    seen (hostTurn (opWR .status 0xE) { blockT2 with status := failedStatus }) = some (0x00001600, 0, 0, 0) := by decide
/-- C13 (b): the second issue is dropped. -/
theorem test_overrun_C13 : seen (hostTurn (opCommand .nop) (blockT2.issue 0)) = some (0x00000009, 0, 0, 0) := by decide
/-- C14: an operand write while busy leaves the latched copy. -/
theorem test_latch_C14 :
    (nextOf (hostTurn (opWR .srcLen 7) (({ blockT2 with opnd := { Operands.zero with srcLen := 5 } } : State).issue 0))).map
      (fun t => (t.opnd.srcLen, t.lat.srcLen)) = some (7, 5) := by decide
/-- C16: `IE` is 0 although bit 0 is 1, and memory stays. -/
theorem test_softReset_C16 :
    (nextOf (hostTurn (opWR .ctrl 3) { stateE20 with ie := true })).map (fun t => (t.ie, t.status.toWord, t.buf)) =
      some (false, 0, stateE20.buf) := by decide
/-- C17: a host read and a decode of unwritten cells fault. -/
theorem test_uninit_C17 :
    faultOf (hostTurn (opLB 0) blockT2) = some (.uninitRead 0) ∧
      faultOf (exec .decode (withOps 0 1 0 0 [])) = some (.uninitRead 0) := by decide
/-- R74 and R83: a word read that covers one unwritten cell faults, with a command in flight too. -/
theorem test_uninit_word :
    faultOf (hostTurn (opLW 0x10) stateE20) = some (.uninitRead 0x13) ∧
      faultOf (hostTurn (opLW 0x10) (stateE20.issue 1)) = some (.uninitRead 0x13) := by decide
/-- C18. -/
theorem test_busError_C18 :
    lastResponse (hostTurn (.read .w32 0x0002) blockT2) = some .busError ∧
      lastResponse (hostTurn (.read .w16 0x10000) blockT2) = some .busError ∧
      lastResponse (hostTurn (.read .w32 0x0100) blockT2) = some .busError ∧
      lastResponse (hostTurn (.read .w32 0x0034) blockT2) = some (.word 0) := by decide
/-- P2's `SW 0x200, 0x0FDDEB02` and its `LW`: little-endian. -/
theorem test_word_P2 :
    cellAfter (hostTurn (opSW 0x200 0x0FDDEB02) blockT2) 0x201 = some 0xEB ∧
      lastResponse (hostTurn (opLW 0x300) (withOps 0 0 0 0 [(0x300, 0x36), (0x301, 0x6D), (0x302, 0x61), (0x303, 0x70)])) =
        some (.word 0x70616D36) := by decide
/-- R34: `ID` and `BUF_SIZE`. -/
theorem test_constants :
    lastResponse (hostTurn (opRD .id) blockT2) = some (.word 0x48434531) ∧
      lastResponse (hostTurn (opRD .bufSize) blockT2) = some (.word 0x4000) := by decide
/-- R72: a platform address reaches the block only between its base and its decode limit. -/
theorem test_platform :
    platformOffset 0x40000000 0x20000 0x40010002 = some 0x10002 ∧ platformOffset 0x40000000 0x20000 0x3FFFFFFF = none := by
  decide
/-- R212's property on byte lists, with an empty payload too. -/
theorem test_parse_build :
    parseIncoming (buildOutgoing [.opcode 0x25, .text [0x68, 0x69]]) = some (0x25, [0x68, 0x69]) ∧
      parseIncoming (buildOutgoing [.opcode 0x37, .raw []]) = some (0x37, []) := by decide
/-- R220: a `Salt` payload is exactly 32 bytes, `Pong` has none. -/
theorem test_payloads :
    serverPayload .salt (List.replicate 32 0) = true ∧ serverPayload .salt (List.replicate 31 0) = false ∧
      clientPayload .pong [] = true ∧ clientPayload .pong [0] = false := by decide

/-! ### Witnesses: for each statement with hypotheses, concrete values that meet all of them, and each of its clauses -/

theorem next_of_nextOf {o : Out} {t : State} (h : nextOf o = some t) : o = .next t := by
  cases o <;> simp_all [nextOf]

/-- The state with the command issued and not yet performed. -/
def inFlight (i : Instr) (s : State) : State :=
  { s with latCmd := encodeCmd i, status := { s.status with busy := true } }

/-- A used block whose hard reset comes next. -/
def stateHardReset : State :=
  { stateE20 with ie := true, status := failedStatus, opnd := stateE20.lat, agenda := [.hardReset, .engine] }

theorem witness_HardResetState :
    stateHardReset.build.wellFormed = true ∧ stateHardReset.agenda = .hardReset :: [.engine] := by decide

theorem witness_DecodeProcedureIsTotal :
    (BadOp 0x00000009 ∧ BadOp 0xFFFFFFFF) ∧
    (BadReserved 0x00000010 ∧ BadReserved 0x000000F8 ∧ BadReserved 0x00010001 ∧ BadReserved 0x00000103) ∧
    (¬ BadOp 0x00000008 ∧ ¬ BadReserved 0x00000008 ∧ ¬ BadOp 0x0000FF04 ∧ ¬ BadReserved 0x0000FF04) := by decide

theorem witness_DecodeAndEncodeAgree :
    (Instr.fbOpcode 0xFF).wellFormed = true ∧ decodeCmd 0x0000FF04 = .ok (.fbOpcode 0xFF) := by decide

theorem witness_StepRunsTheDecodedCommand :
    blockT2.build.wellFormed = true ∧
    ((inFlight .encode stateE20).status.busy = true ∧ decodeCmd (inFlight .encode stateE20).latCmd = .ok .encode ∧
      (inFlight .encode stateE20).agenda = []) ∧
    (({ inFlight .encode stateE20 with agenda := [.engine] } : State).agenda = .engine :: []) ∧
    (blockT2.status.busy = false ∧ blockT2.agenda = []) ∧
    (({ blockT2 with agenda := [.engine] } : State).agenda = .engine :: [] ∧
      ({ blockT2 with agenda := [.host (opRD .id)] } : State).agenda = .host (opRD .id) :: []) := by decide

theorem witness_FetchedWordIsRun :
    blockT2.build.wellFormed = true ∧ decodeTableWord 32 0x0000FF04 = some (.fbOpcode 0xFF) ∧
      decodeTableWord 32 0x100000008 = some .frameParse := by decide

theorem witness_IllegalCommandCompletes :
    (BadOp (blockT2.issue 0x00000009).latCmd ∧ BadOp (blockT2.issue 0x0000000F).latCmd) ∧
    (BadReserved (blockT2.issue 0x00000010).latCmd ∧ BadReserved (blockT2.issue 0x00010000).latCmd ∧
      BadReserved (blockT2.issue 0x00000103).latCmd) := by decide

theorem witness_EveryCompletionSetsDone :
    (∃ t, engineStep (blockT2.issue 0x00000000) = .next t) ∧ (∃ t, engineStep (blockT2.issue 0x00000009) = .next t) :=
  ⟨⟨_, rfl⟩, ⟨_, rfl⟩⟩

/-- A full frame at the end of the buffer meets R46's invariant. -/
theorem witness_EngineStepCompletesOrReadsUnwritten :
    (withFrame 0x3FF8 8 8 0 0 []).FrameInv ∧ (withFrame 0x3FF8 8 8 0 0 []).status.frameOpen = true := by decide

theorem witness_IssuedCommandIsPerformed :
    (inFlight .fbRaw (withFrame 0x3FF8 8 8 0 0 [])).build.wellFormed = true ∧
      (inFlight .fbRaw (withFrame 0x3FF8 8 8 0 0 [])).FrameInv ∧
      (inFlight .fbRaw (withFrame 0x3FF8 8 8 0 0 [])).status.busy = true ∧
      (inFlight .fbRaw (withFrame 0x3FF8 8 8 0 0 [])).agenda = [] := by decide

theorem witness_NopCompletes : (0x00000010 : Word).toNat % 16 = 0 ∧ (0x00000010 : Word) ≠ 0 := by decide

/-- E20: the stream fills the destination exactly. -/
theorem witness_EncodeWritesTheStream :
    stateE20.RegionsOk ∧ stateE20.SourceIs [0x70, 0x61, 0x6D] ∧
      (encodeStream (buildTree stateE20.build.freq) stateE20.build.encRawFallback [0x70, 0x61, 0x6D]).length =
        stateE20.lat.dstCap.toNat := by
  have h : buildTree stateE20.build.freq = treeT2 := test_tree_T2
  rw [h]
  decide +kernel

/-- E21. -/
def stateE21 : State := { stateE20 with lat := { stateE20.lat with dstCap := 2 } }

/-- Region errors of a codec command (E25, E26, E28 and at the last offsets). -/
theorem witness_EncodeErrorsInOrder :
    (¬ InRange (withOps 0xFFFFFFFF 2 0 0 []).build 0xFFFFFFFF 2 ∧ ¬ InRange (withOps 0x4001 0 0 0 []).build 0x4001 0) ∧
    (InRange (withOps 0x4000 0 0x3FFD 4 []).build 0x4000 0 ∧ ¬ InRange (withOps 0x4000 0 0x3FFD 4 []).build 0x3FFD 4) ∧
    (InRange (withOps 0x10 4 0x13 1 []).build 0x10 4 ∧ InRange (withOps 0x10 4 0x13 1 []).build 0x13 1 ∧
      Overlap 0x10 4 0x13 1) ∧
    (stateE21.RegionsOk ∧ stateE21.SourceIs [0x70, 0x61, 0x6D] ∧ stateE21.lat.dstCap.toNat <
      (encodeStream (buildTree stateE21.build.freq) stateE21.build.encRawFallback [0x70, 0x61, 0x6D]).length) := by
  have h : buildTree stateE21.build.freq = treeT2 := test_tree_T2
  rw [h]
  decide +kernel

/-- E9 and E10. -/
theorem witness_EncodedStreamForm :
    (([0x36].flatMap treeT2.code).length ≤ 8 * 2 ∧ 8 * 2 < ([0x36].flatMap treeT2.code).length + 8 ∧
      [(0x36 : Byte)].length < 2) ∧
    (([0x61, 0x36].flatMap treeT2.code).length ≤ 8 * 2 ∧ 8 * 2 < ([0x61, 0x36].flatMap treeT2.code).length + 8 ∧
      ¬ [(0x61 : Byte), 0x36].length < 2) := by decide +kernel

theorem witness_BitPackingIsLsbFirst :
    (List.replicate 16 true).length = 8 * 2 ∧ 1 < 2 ∧ 7 < 8 ∧ 15 < 8 * [(0x01 : Byte), 0x80].length := by decide

theorem witness_DecodeErrorsBeforeTheBits :
    (¬ InRange (withOps 0x3FFF 2 0 0 []).build 0x3FFF 2) ∧
    (InRange (withOps 0x3FFF 1 0x4001 0 []).build 0x3FFF 1 ∧ ¬ InRange (withOps 0x3FFF 1 0x4001 0 []).build 0x4001 0) ∧
    (InRange (withOps 8 1 0 9 []).build 8 1 ∧ InRange (withOps 8 1 0 9 []).build 0 9 ∧ Overlap 8 1 0 9) ∧
    ((withOps 0x4000 0 0 4 []).RegionsOk ∧ (withOps 0x4000 0 0 4 []).lat.srcLen = 0) ∧
    ((withOps 0 2 8 4 [(0, 0x08), (1, 0)]).RegionsOk ∧ (withOps 0 2 8 4 [(0, 0x08), (1, 0)]).SourceIs [0x08, 0]) ∧
    ((withOps 0 2 8 4 [(0, 0xFE), (1, 0)]).RegionsOk ∧ (withOps 0 2 8 4 [(0, 0xFE), (1, 0)]).SourceIs [0xFE, 0]) ∧
    ((withOps 0 1 8 4 [(0, 0x01)]).RegionsOk ∧ (withOps 0 1 8 4 [(0, 0x01)]).SourceIs [0x01]) ∧
    ((withOps 0 1 8 4 [(0, 0x07)]).RegionsOk ∧ (withOps 0 1 8 4 [(0, 0x07)]).SourceIs [0x07]) := by decide

/-- A raw escape of two bytes, with room for `c`. -/
def stateRaw (c : Word) : State := withOps 0x200 3 0x300 c [(0x200, 0xFF), (0x201, 1), (0x202, 2)]

theorem witness_DecodeRawEscape :
    ((stateRaw 2).RegionsOk ∧ (stateRaw 2).SourceIs (0xFF :: [1, 2]) ∧ [(1 : Byte), 2].length ≤ (stateRaw 2).lat.dstCap.toNat) ∧
    ((stateRaw 1).RegionsOk ∧ (stateRaw 1).SourceIs (0xFF :: [1, 2]) ∧ (stateRaw 1).lat.dstCap.toNat < [(1 : Byte), 2].length) := by
  decide

/-- A coded stream of one data byte of ones, with room for `c`. -/
def stateOnes (h : Byte) (c : Word) : State := withOps 0x200 2 0x300 c [(0x200, h), (0x201, 0xFF)]

/-- D7, D15 and D18, and the stream `[0x00]`. -/
theorem witness_DecodeCodedStream :
    ((stateOnes 5 1).RegionsOk ∧ (stateOnes 5 1).SourceIs (5 :: [0xFF]) ∧
      (unpackBytes [0xFF]).take (8 * [(0xFF : Byte)].length - (5 : Byte).toNat) =
        [0x61].flatMap (buildTree (stateOnes 5 1).build.freq).code ∧
      [(0x61 : Byte)].length ≤ (stateOnes 5 1).lat.dstCap.toNat) ∧
    ((withOps 0 1 8 0 [(0, 0)]).RegionsOk ∧ (withOps 0 1 8 0 [(0, 0)]).SourceIs (0 :: []) ∧
      (unpackBytes []).take (8 * ([] : List Byte).length - (0 : Byte).toNat) =
        [].flatMap (buildTree (stateOnes 5 1).build.freq).code) ∧
    ((stateOnes 0 2).RegionsOk ∧ (stateOnes 0 2).SourceIs (0 :: [0xFF]) ∧
      (unpackBytes [0xFF]).take (8 * [(0xFF : Byte)].length - (0 : Byte).toNat) =
        [0x61, 0x61].flatMap (buildTree (stateOnes 5 1).build.freq).code ++ [true, true] ∧
      [true, true] ≠ [] ∧ (∀ x : Byte, ¬ (buildTree (stateOnes 5 1).build.freq).code x <+: [true, true]) ∧
      [(0x61 : Byte), 0x61].length ≤ (stateOnes 0 2).lat.dstCap.toNat) ∧
    ((stateOnes 0 1).RegionsOk ∧ (stateOnes 0 1).SourceIs (0 :: [0xFF]) ∧
      (unpackBytes [0xFF]).take (8 * [(0xFF : Byte)].length - (0 : Byte).toNat) =
        [0x61].flatMap (buildTree (stateOnes 5 1).build.freq).code ++
          (buildTree (stateOnes 5 1).build.freq).code 0x61 ++ [true, true] ∧
      [(0x61 : Byte)].length = (stateOnes 0 1).lat.dstCap.toNat) := by
  have h : buildTree (stateOnes 5 1).build.freq = treeT2 := test_tree_T2
  rw [h]
  decide +kernel

theorem witness_LeastEntryIsPicked :
    (([⟨3, 0, .leaf 0⟩, ⟨1, 1, .leaf 1⟩, ⟨1, 2, .leaf 2⟩] : List PoolEntry).map PoolEntry.id).Nodup := by decide

theorem witness_CodesAreTreePaths :
    [true] <+: (buildTree freqT2).code 0x61 ∧ [true] ≠ (buildTree freqT2).code 0x61 := by
  rw [test_tree_T2]
  decide +kernel

theorem witness_CodesAreAPrefixCode :
    (0x00 : Byte) ≠ 0xFF ∧ (buildTree freqT2).lMax ≤ (List.replicate 11 true).length := by
  rw [test_tree_T2]
  decide +kernel

/-- What E20 leaves. -/
def stateE20Done : State :=
  { successResult stateE20 0x100 3 with
    buf := [(0x10, 0x70), (0x11, 0x61), (0x12, 0x6D), (0x100, 0x05), (0x101, 0xF9), (0x102, 0x06)] }

theorem test_encode_E20_state : exec .encode stateE20 = .next stateE20Done := by
  have h : buildTree stateE20.build.freq = treeT2 := test_tree_T2
  apply next_of_nextOf
  rw [exec, execEncode, h]
  decide +kernel

/-- E20's stream to be decoded, by another block of the same table. -/
def stateD20 : State :=
  { withOps 0 3 8 3 [(0, 0x05), (1, 0xF9), (2, 0x06)] with
    build := { freq := freqT2, bufBytes := 64, encRawFallback := false } }

theorem witness_EncodeDecodeRoundTrip :
    stateE20.SourceIs [0x70, 0x61, 0x6D] ∧ exec .encode stateE20 = .next stateE20Done ∧
      stateE20Done.status.err = false ∧ stateD20.build.freq = stateE20.build.freq ∧ stateD20.RegionsOk ∧
      stateD20.SourceIs (stateE20Done.bytesOf stateE20Done.res.addr.toNat stateE20Done.res.len.toNat) ∧
      [(0x70 : Byte), 0x61, 0x6D].length ≤ stateD20.lat.dstCap.toNat :=
  ⟨by decide, test_encode_E20_state, by decide, rfl, by decide, by decide, by decide⟩

theorem witness_TransformsAreBounded :
    (stateE20.SourceIs [0x70, 0x61, 0x6D] ∧ exec .encode stateE20 = .next stateE20Done ∧
      stateE20.build.encRawFallback = true) ∧
    ((stateRaw 2).SourceIs (0xFF :: [1, 2]) ∧ ∃ t, exec .decode (stateRaw 2) = .next t) :=
  ⟨⟨by decide, test_encode_E20_state, rfl⟩, by decide, ⟨_, rfl⟩⟩

/-- Two states that agree on a raw escape and differ in the rest. -/
theorem witness_CodecIsStateless :
    (stateRaw 2).lat = ({ stateRaw 2 with res := { Results.zero with opcode := 9 }, ie := true } : State).lat ∧
      (stateRaw 2).build = ({ stateRaw 2 with res := { Results.zero with opcode := 9 }, ie := true } : State).build ∧
      (∃ t, exec .decode (stateRaw 2) = .next t) ∧ (∃ t, exec .encode (withOps 0 0 8 0 []) = .next t) :=
  ⟨rfl, rfl, ⟨_, rfl⟩, ⟨_, rfl⟩⟩

theorem witness_FbBeginOpensAFrame :
    InRange (withOps 0 0 0x4000 0 []).build 0x4000 0 ∧ ¬ InRange (withOps 0 0 0x4000 1 []).build 0x4000 1 := by decide

/-- Open frames meet R46's invariant here; the last one ends with the buffer and has one free byte. -/
theorem witness_FbOpcodeAppendsItsByte :
    blockT2.status.frameOpen = false ∧
    ((withFrame 0x100 8 8 0 0 []).status.frameOpen = true ∧
      (withFrame 0x100 8 8 0 0 []).frame.cap.toNat < (withFrame 0x100 8 8 0 0 []).frame.cur.toNat + 1) ∧
    ((withFrame 0x3FF8 8 7 0 0 []).status.frameOpen = true ∧
      (withFrame 0x3FF8 8 7 0 0 []).frame.cur.toNat + 1 ≤ (withFrame 0x3FF8 8 7 0 0 []).frame.cap.toNat ∧
      (withFrame 0x3FF8 8 7 0 0 []).frame.base.toNat + (withFrame 0x3FF8 8 7 0 0 []).frame.cap.toNat ≤
        (withFrame 0x3FF8 8 7 0 0 []).build.bufBytes) := by decide

/-- The clauses of `FB_RAW` and `FB_TEXT`, which have the same hypotheses: `s` is the frame state of each. -/
theorem witness_FbRawAppendsTheSource :
    blockT2.status.frameOpen = false ∧
    ((withFrame 0x100 8 0 0x3FFF 2 []).status.frameOpen = true ∧ ¬ InRange blockT2.build 0x3FFF 2) ∧
    (InRange blockT2.build 0x107 1 ∧ Overlap 0x107 1 0x100 8) ∧
    (InRange blockT2.build 0 8 ∧ ¬ Overlap 0 8 0x100 8 ∧ 8 < 1 + 8) ∧
    ((withFrame 0x3FF8 8 7 0x3FF7 1 [(0x3FF7, 5)]).status.frameOpen = true ∧ InRange blockT2.build 0x3FF7 1 ∧
      ¬ Overlap 0x3FF7 1 0x3FF8 8 ∧ 7 + 1 ≤ 8 ∧ 0x3FF8 + 8 ≤ blockT2.build.bufBytes ∧
      (withFrame 0x3FF8 8 7 0x3FF7 1 [(0x3FF7, 5)]).SourceIs [5]) := by decide

theorem witness_FbTextAppendsTheSource :
    blockT2.status.frameOpen = false ∧
    ((withFrame 0x100 8 0 0x4001 0 []).status.frameOpen = true ∧ ¬ InRange blockT2.build 0x4001 0) ∧
    (InRange blockT2.build 0xFF 2 ∧ Overlap 0xFF 2 0x100 8) ∧
    (InRange blockT2.build 0x108 9 ∧ ¬ Overlap 0x108 9 0x100 8 ∧ 8 < 0 + 9) ∧
    ((withFrame 0x100 8 8 0x4000 0 []).status.frameOpen = true ∧ InRange blockT2.build 0x4000 0 ∧
      ¬ Overlap 0x4000 0 0x100 8 ∧ 8 + 0 ≤ 8 ∧ 0x100 + 8 ≤ blockT2.build.bufBytes ∧
      (withFrame 0x100 8 8 0x4000 0 []).SourceIs []) := by decide

theorem witness_FbEndClosesTheFrame :
    blockT2.status.frameOpen = false ∧ (withFrame 0x100 0 0 0 0 []).status.frameOpen = true := by decide

theorem witness_FrameParseSplitsTheFrame :
    ¬ InRange (withOps 0x4001 0 0 0 []).build 0x4001 0 ∧
    (InRange (withOps 0x4000 0 0 0 []).build 0x4000 0 ∧ (withOps 0x4000 0 0 0 []).lat.srcLen = 0) ∧
    (InRange (withOps 0x3FFF 1 0 0 [(0x3FFF, 0x25)]).build 0x3FFF 1 ∧
      (withOps 0x3FFF 1 0 0 [(0x3FFF, 0x25)]).lat.srcLen ≠ 0 ∧
      (withOps 0x3FFF 1 0 0 [(0x3FFF, 0x25)]).buf.read? 0x3FFF = some 0x25) := by decide

theorem witness_FrameErrorsKeepTheFrame :
    ((withFrame 0x100 8 8 0 0 []).status.frameOpen = true ∧
      ∃ t, exec (.fbOpcode 1) (withFrame 0x100 8 8 0 0 []) = .next t ∧ t.status.err = true) ∧
    (∃ t, exec .fbRaw (withFrame 0x100 8 0 0x107 1 []) = .next t ∧ t.status.err = true) ∧
    (∃ t, exec .fbText (withFrame 0x100 8 0 0x3FFF 2 []) = .next t ∧ t.status.err = true) :=
  ⟨⟨rfl, _, rfl, rfl⟩, ⟨_, rfl, rfl⟩, ⟨_, rfl, rfl⟩⟩

/-- The fields `[0x25, "hi"]` from source offset 8. -/
def fieldsHi : List FieldSource := [.opcode 0x25, .raw 8 2]

/-- What the frame commands leave of them, the frame just large enough. -/
theorem witness_BuildOutgoingConcatenates :
    (∀ f ∈ fieldsHi, f.Written (withOps 0 0 0 0 [(8, 0x68), (9, 0x69)])) ∧
      ((runSucceeding (frameCommands 0x100 3 fieldsHi) (withOps 0 0 0 0 [(8, 0x68), (9, 0x69)])).map
        fun t => (t.res.addr, t.res.len, t.buf)) =
        some (0x100, 3, [(8, 0x68), (9, 0x69), (0x100, 0x25), (0x101, 0x68), (0x102, 0x69)]) ∧
      InRange blockT2.build 0x100 3 ∧ (∀ f ∈ fieldsHi, f.Fits blockT2.build 0x100 3) ∧
      (fieldsHi.map FieldSource.size).sum ≤ 3 := by decide

theorem witness_FramingRoundTrip :
    blockT2.build.wellFormed = true ∧
      (∃ t, runSucceeding (frameCommands 0x100 3 [.opcode 0x25, .raw 8 2]) (withOps 0 0 0 0 [(8, 0x68), (9, 0x69)]) =
        some t) ∧
      (∃ t, runSucceeding (frameCommands 0x3FFF 1 [.opcode 0x37, .raw 0x4000 0]) blockT2 = some t) :=
  ⟨by decide, ⟨_, rfl⟩, ⟨_, rfl⟩⟩

theorem witness_CommandsKeepTheRest :
    (∃ t, exec .nop blockT2 = .next t) ∧ (∃ t, exec .fbEnd blockT2 = .next t) ∧
      (∃ t, exec .frameParse (withOps 0x3FFF 1 0 0 [(0x3FFF, 0x25)]) = .next t) := ⟨⟨_, rfl⟩, ⟨_, rfl⟩, ⟨_, rfl⟩⟩

theorem witness_CodecIgnoresTheFrame :
    (∃ t, exec .nop blockT2 = .next t) ∧ (∃ t, exec .decode (stateRaw 2) = .next t) ∧
      exec .encode stateE20 = .next stateE20Done := ⟨⟨_, rfl⟩, ⟨_, rfl⟩, test_encode_E20_state⟩

theorem witness_CommandsWriteOnlyTheirDestination :
    (inFlight .decode (stateRaw 2)).status.busy = true ∧
      decodeCmd (inFlight .decode (stateRaw 2)).latCmd = .ok .decode ∧
      (∃ t, exec .decode (inFlight .decode (stateRaw 2)) = .next t) ∧
      ¬ (inFlight .decode (stateRaw 2)).inflightDst.Holds 0x302 :=
  ⟨rfl, by decide, ⟨_, rfl⟩, by decide⟩

/-- An in-flight append to a full frame at the end of the buffer, and a used block whose completion is acknowledged. -/
theorem witness_StepKeepsInvariant :
    (inFlight .fbEnd (withFrame 0x3FF8 8 8 0 0 [(0x3FFF, 1)])).Inv ∧
      (∃ t, step (inFlight .fbEnd (withFrame 0x3FF8 8 8 0 0 [(0x3FFF, 1)])) = .next t) ∧ stateE20Done.Inv ∧
      (∃ t, step { stateE20Done with agenda := [.host (opWR .status 0xE)] } = .next t) :=
  ⟨by decide, ⟨_, rfl⟩, by decide, ⟨_, rfl⟩⟩

theorem witness_BuildNeverChanges :
    (∃ t, step stateHardReset = .next t) ∧ (∃ t, step { stateE20 with agenda := [.host (opWR .ctrl 2)] } = .next t) :=
  ⟨⟨_, rfl⟩, ⟨_, rfl⟩⟩

/-- A dropped second issue while `ENCODE` is in flight. -/
theorem witness_InFlightCommandIsProtected :
    ∃ t, step { inFlight .encode stateE20 with agenda := [.host (opCommand .nop)] } = .next t ∧
      (inFlight .encode stateE20).status.busy = true ∧ t.status.busy = true ∧
      (inFlight .encode stateE20).inflightSrc.Holds 0x10 ∧ (inFlight .encode stateE20).inflightDst.Holds 0x102 :=
  ⟨_, rfl, rfl, rfl, by decide, by decide⟩

theorem witness_BusyAndOverrunFallOnlyAsStated :
    (∃ t, step (inFlight .nop blockT2) = .next t ∧ t.status.busy = false) ∧
    (∃ t, step { blockT2 with status := failedStatus, agenda := [.host (opWR .status 8)] } = .next t ∧
      failedStatus.overrun = true ∧ t.status.overrun = false) := ⟨⟨_, rfl, rfl⟩, ⟨_, rfl, rfl, rfl⟩⟩

theorem witness_BusErrorsChangeNothing_unmapped :
    Unmapped blockT2.build 0x100 ∧ Unmapped blockT2.build 0xFFFF ∧ Unmapped blockT2.build 0x14000 ∧
      Unmapped blockT2.build 0xFFFFFFFF ∧ ¬ Unmapped blockT2.build 0xFF ∧ ¬ Unmapped blockT2.build 0x10000 := by decide

theorem witness_BusErrorsChangeNothing_badAccess :
    BadAccess blockT2.build .w32 0x02 ∧ BadAccess blockT2.build .w8 0xFF ∧ BadAccess blockT2.build .w16 0x10000 ∧
      BadAccess blockT2.build .w32 0x13FFF := by
  refine ⟨?_, ?_, ?_, ?_⟩ <;> decide

/-- A read and a write that answer. -/
theorem witness_BusErrorsChangeNothing_answers :
    (∃ t, hostTurn (.read .w32 0x00) blockT2 = .next t) ∧ (∃ t, hostTurn (.write .w32 0x10 7) blockT2 = .next t) :=
  ⟨⟨_, rfl⟩, ⟨_, rfl⟩⟩

/-- The neighbours of the bad accesses are good ones. -/
theorem witness_BusErrorsChangeNothing_good :
    ¬ BadAccess blockT2.build .w32 0xFC ∧ ¬ BadAccess blockT2.build .w32 0x13FFC ∧
      ¬ BadAccess blockT2.build .w8 0x13FFF := by
  refine ⟨?_, ?_, ?_⟩ <;> decide

theorem witness_RegisterReads :
    blockT2.status.busy = false ∧
      (0x34 ≤ (0x34 : Word).toNat ∧ (0x34 : Word).toNat ≤ 0xFC ∧ (0x34 : Word).toNat % 4 = 0) ∧
      (0x34 ≤ (0xFC : Word).toNat ∧ (0xFC : Word).toNat ≤ 0xFC ∧ (0xFC : Word).toNat % 4 = 0) := by decide

/-- Each clause of the layout has a bit: `STATUS = 0x00001606` has bits 1, 2, 9, 10 and 12. -/
theorem witness_StatusRegister :
    (0 < 32 ∧ 31 < 32) ∧ ({ failedStatus with overrun := false } : Status).toWord = 0x00001606 := by decide

theorem witness_CtrlRegister :
    (0x00000001 : Word).getLsbD 1 = false ∧ (0xFFFFFFFD : Word).getLsbD 1 = false ∧
      (0x00000002 : Word).getLsbD 1 = true ∧ (0x00000003 : Word).getLsbD 1 = true := by decide

theorem witness_AcceptedIssue : blockT2.status.busy = false := rfl

theorem witness_DroppedIssue : (blockT2.issue 0).status.busy = true := rfl

theorem witness_ReadOnlyRegistersIgnoreWrites :
    (0x30 : Word).toNat = 0x30 ∧
      (0x34 ≤ (0xFC : Word).toNat ∧ (0xFC : Word).toNat ≤ 0xFC ∧ (0xFC : Word).toNat % 4 = 0) := by decide

/-- The last byte and the last word of the buffer. -/
theorem witness_HostBufferAccess :
    blockT2.build.wellFormed = true ∧ blockT2.status.busy = false ∧
    ((withOps 0 0 0 0 [(16383, 7)]).buf.read? 16383 = some 7 ∧ 16383 < blockT2.build.bufBytes) ∧
    ((withOps 0 0 0 0 [(16380, 1), (16381, 2), (16382, 3), (16383, 4)]).HoldsBytes 16380 [1, 2, 3, 4] ∧
      16380 % 4 = 0 ∧ 16380 + 4 ≤ blockT2.build.bufBytes) ∧
    ((Width.w16 = .w16 ∨ (Width.w16 = .w32 ∧ 16380 % 4 ≠ 0)) ∧
      (Width.w32 = .w16 ∨ (Width.w32 = .w32 ∧ 16383 % 4 ≠ 0))) := by decide

/-- The second source byte is unwritten; `FB_RAW`'s source lies before a frame that has room. -/
theorem witness_UnwrittenReadsFault :
    (1 < (withFrame 0x100 8 6 0x10 2 [(0x10, 1)]).lat.srcLen.toNat ∧
      (withFrame 0x100 8 6 0x10 2 [(0x10, 1)]).buf.read? (0x10 + 1) = none ∧
      (∀ j, j < 1 → ((withFrame 0x100 8 6 0x10 2 [(0x10, 1)]).buf.read? (0x10 + j)).isSome = true) ∧
      (withFrame 0x100 8 6 0x10 2 [(0x10, 1)]).RegionsOk ∧
      (withFrame 0x100 8 6 0x10 2 [(0x10, 1)]).status.frameOpen = true ∧ InRange blockT2.build 0x10 2 ∧
      ¬ Overlap 0x10 2 0x100 8 ∧ 6 + 2 ≤ 8) ∧
    (InRange (withOps 0x3FFF 1 0 0 []).build 0x3FFF 1 ∧ (withOps 0x3FFF 1 0 0 []).lat.srcLen ≠ 0 ∧
      (withOps 0x3FFF 1 0 0 []).buf.read? 0x3FFF = none) ∧
    (blockT2.build.wellFormed = true ∧ 16383 < blockT2.build.bufBytes ∧ blockT2.buf.read? 16383 = none) ∧
    (16380 % 4 = 0 ∧ 16380 + 4 ≤ blockT2.build.bufBytes ∧ 3 < 4 ∧
      (withOps 0 0 0 0 [(16380, 1), (16381, 2), (16382, 3)]).buf.read? (16380 + 3) = none ∧
      (∀ j, j < 3 → ((withOps 0 0 0 0 [(16380, 1), (16381, 2), (16382, 3)]).buf.read? (16380 + j)).isSome = true)) := by
  decide

/-- `ENCODE` in flight with source `0x10 .. 0x12` and destination `0x100 .. 0x102`, some of it written. -/
def stateBusy : State :=
  inFlight .encode { stateE20 with buf := stateE20.buf ++ [(0x100, 9), (0x101, 9), (0x102, 9), (0x103, 9)] }

theorem witness_InFlightRegions :
    (stateBusy.inflightSrc.Holds 0x10 ∧ stateBusy.inflightSrc.Holds 0x12 ∧ ¬ stateBusy.inflightSrc.Holds 0x13) ∧
    (stateBusy.inflightDst.Holds 0x100 ∧ stateBusy.inflightDst.Holds 0x102 ∧ ¬ stateBusy.inflightDst.Holds 0x103) ∧
    ((inFlight .fbText (withFrame 0x100 8 6 0 0 [])).inflightDst.Holds 0x107 ∧
      ¬ (inFlight .fbText (withFrame 0x100 8 6 0 0 [])).inflightDst.Holds 0x105) := by decide

theorem witness_ReadsWhileBusy :
    (stateBusy.build.wellFormed = true ∧ stateBusy.status.busy = true) ∧
    ((0x20 : Word).toNat = 0x20 ∧ (0x2C : Word).toNat = 0x2C) ∧
    (0x102 < stateBusy.build.bufBytes ∧ stateBusy.buf.read? 0x102 = some 9 ∧ stateBusy.inflightDst.Holds 0x102) ∧
    (stateBusy.buf.read? 0x103 = some 9 ∧ ¬ stateBusy.inflightDst.Holds 0x103) ∧
    (0x104 < stateBusy.build.bufBytes ∧ stateBusy.buf.read? 0x104 = none) ∧
    (0x100 % 4 = 0 ∧ 0x100 + 4 ≤ stateBusy.build.bufBytes ∧ stateBusy.HoldsBytes 0x100 [9, 9, 9, 9] ∧
      stateBusy.inflightDst.Holds (0x100 + 2) ∧ ¬ stateBusy.inflightDst.Holds (0x100 + 3)) := by decide

/-- A word with an unwritten cell outside the in-flight destination, and one inside it. -/
theorem witness_ReadsWhileBusy_unwrittenWord :
    (0x10 % 4 = 0 ∧ 0x10 + 4 ≤ stateBusy.build.bufBytes ∧ 3 < 4 ∧ stateBusy.buf.read? (0x10 + 3) = none) ∧
    ((inFlight .encode stateE20).inflightDst.Holds (0x100 + 0) ∧ 0x100 % 4 = 0 ∧
      (inFlight .encode stateE20).buf.read? (0x100 + 0) = none) := by decide

theorem witness_HostWriteWhileBusy :
    (stateBusy.build.wellFormed = true ∧ stateBusy.status.busy = true) ∧
    (0x12 < stateBusy.build.bufBytes ∧ (stateBusy.inflightSrc.Holds 0x12 ∨ stateBusy.inflightDst.Holds 0x12)) ∧
    (0x13 < stateBusy.build.bufBytes ∧ ¬ (stateBusy.inflightSrc.Holds 0x13 ∨ stateBusy.inflightDst.Holds 0x13)) ∧
    (0x10 % 4 = 0 ∧ 0x10 + 4 ≤ stateBusy.build.bufBytes ∧
      (∃ k, k < 4 ∧ (stateBusy.inflightSrc.Holds (0x10 + k) ∨ stateBusy.inflightDst.Holds (0x10 + k)))) ∧
    (0x14 % 4 = 0 ∧ 0x14 + 4 ≤ stateBusy.build.bufBytes ∧
      (∀ k, k < 4 → ¬ (stateBusy.inflightSrc.Holds (0x14 + k) ∨ stateBusy.inflightDst.Holds (0x14 + k)))) := by
  refine ⟨by decide, by decide, by decide, ⟨by decide, by decide, 0, by decide, by decide⟩, by decide⟩

theorem witness_SoftReset :
    (0x00000003 : Word).getLsbD 1 = true ∧ stateBusy.inflightDst.Holds 0x102 ∧
      ¬ stateBusy.inflightDst.Holds 0x103 ∧ blockT2.status.busy = false := by decide

theorem witness_InterruptIsALevel :
    ((∃ t, hostTurn (.write .w32 0x08 2) blockT2 = .next t) ∧ (2 : Word).getLsbD 1 = true) ∧
    ((∃ t, hostTurn (.write .w32 0x0C 0) blockT2 = .next t) ∧ blockT2.status.busy = false) ∧
    ((∃ t, hostTurn (.write .w32 0x0C 0) (blockT2.issue 0) = .next t) ∧ (blockT2.issue 0).status.busy = true) ∧
    ((∃ t, hostTurn (.write .w32 0x04 1) blockT2 = .next t) ∧ (1 : Word).getLsbD 1 = false ∧
      (1 : Word).getLsbD 0 = true) :=
  ⟨⟨⟨_, rfl⟩, by decide⟩, ⟨⟨_, rfl⟩, rfl⟩, ⟨⟨_, rfl⟩, rfl⟩, ⟨⟨_, rfl⟩, by decide, by decide⟩⟩

theorem witness_ReadsHaveNoSideEffect_register : ∃ t, hostTurn (.read .w32 0x20) stateBusy = .next t := ⟨_, rfl⟩

theorem witness_ReadsHaveNoSideEffect_cell :
    (nextOf (hostTurn (.read .w8 0x10200) (inFlight .decode (stateRaw 2)))).isSome = true := by decide

end Sys2Proof.Tests
end

section
/-! Bus errors and bus responses (spec/20_memory.md R72 to R74, R80): which accesses reach nothing, what a host
read and a host write record, and the proof of `Obligations.BusErrorsChangeNothing`. -/

namespace Sys2Proof.Machine

/-! ### Accesses that reach nothing -/

/-- The gap between the windows and everything above the buffer is mapped to nothing (R72). -/
theorem busTarget_of_unmapped {b : Build} {addr : Word} (w : Width) (h : Unmapped b addr.toNat) :
    busTarget b w addr = .nothing := by
  have hreg : ¬ addr.toNat ≤ regWindowLast := by simp only [regWindowLast]; omega
  have hbuf : ¬ (bufWindow ≤ addr.toNat ∧ addr.toNat < bufWindow + b.bufBytes) := by simp only [bufWindow]; omega
  simp only [busTarget, if_neg hreg, if_neg hbuf]

/-- A register access that is not an aligned word reaches nothing (R73). -/
theorem busTarget_of_badRegister {b : Build} {w : Width} {addr : Word} (ho : addr.toNat < 0x100)
    (hw : w ≠ .w32 ∨ addr.toNat % 4 ≠ 0) : busTarget b w addr = .nothing := by
  have hreg : addr.toNat ≤ regWindowLast := by simp only [regWindowLast]; omega
  cases w with
  | w8 | w16 => simp only [busTarget, if_pos hreg]
  | w32 =>
    have halign : addr.toNat % 4 ≠ 0 := hw.resolve_left (not_not_intro rfl)
    simp only [busTarget, if_pos hreg, if_neg halign]

/-- A buffer access of 16 bits, or a misaligned word, reaches nothing (R74). -/
theorem busTarget_of_badBuffer {b : Build} {w : Width} {addr : Word} (hlo : 0x10000 ≤ addr.toNat)
    (hhi : addr.toNat < 0x10000 + b.bufBytes) (hw : w = .w16 ∨ (w = .w32 ∧ addr.toNat % 4 ≠ 0)) :
    busTarget b w addr = .nothing := by
  have hreg : ¬ addr.toNat ≤ regWindowLast := by simp only [regWindowLast]; omega
  have hbuf : bufWindow ≤ addr.toNat ∧ addr.toNat < bufWindow + b.bufBytes := ⟨hlo, hhi⟩
  obtain rfl | ⟨rfl, halign⟩ := hw
  · simp only [busTarget, if_neg hreg, if_pos hbuf]
  · have hoff : ¬ ((addr.toNat - bufWindow) % 4 = 0 ∧ addr.toNat - bufWindow + 4 ≤ b.bufBytes) := by
      simp only [bufWindow]
      omega
    simp only [busTarget, if_neg hreg, if_pos hbuf, if_neg hoff]

/-- Every access that R80 answers with a bus error reaches nothing. -/
theorem busTarget_eq_nothing {b : Build} {w : Width} {addr : Word}
    (h : Unmapped b addr.toNat ∨ BadAccess b w addr.toNat) : busTarget b w addr = .nothing := by
  obtain hun | ⟨ho, hw⟩ | ⟨hlo, hhi, hw⟩ := h
  · exact busTarget_of_unmapped w hun
  · exact busTarget_of_badRegister ho hw
  · exact busTarget_of_badBuffer hlo hhi hw

theorem hostTurn_read_nothing {s : State} {w : Width} {addr : Word} (h : busTarget s.build w addr = .nothing) :
    hostTurn (.read w addr) s = .next (s.respond .busError) := by
  simp only [hostTurn, h]

theorem hostTurn_write_nothing {s : State} {w : Width} {addr : Word} (v : Word)
    (h : busTarget s.build w addr = .nothing) : hostTurn (.write w addr v) s = .next (s.respond .busError) := by
  simp only [hostTurn, h]

/-! ### What a read records -/

/-- A register read returns a word, held or free (R34, R333). -/
theorem busReadReg_eq_respond (s : State) (r : Option Reg) :
    ∃ n x, busReadReg s r = (s.useFresh n).respond (.word x) := by
  cases r with
  | none => exact ⟨0, _, rfl⟩
  | some r =>
    simp only [busReadReg]
    split
    · exact ⟨1, _, rfl⟩
    · exact ⟨0, _, rfl⟩

theorem busReadByte_next {s t : State} {i : Nat} (h : busReadByte s i = .next t) :
    ∃ b, t = (s.useFresh 1).respond (.byte b) := by
  obtain ⟨b, -, h⟩ := (orFault_next _ _ _).1 h
  exact ⟨b, by simpa [eq_comm] using h⟩

theorem busReadWord_next {s t : State} {i : Nat} (h : busReadWord s i = .next t) :
    ∃ x, t = (s.useFresh 4).respond (.word x) := by
  obtain ⟨b0, -, h⟩ := (orFault_next _ _ _).1 h
  obtain ⟨b1, -, h⟩ := (orFault_next _ _ _).1 h
  obtain ⟨b2, -, h⟩ := (orFault_next _ _ _).1 h
  obtain ⟨b3, -, h⟩ := (orFault_next _ _ _).1 h
  exact ⟨composeWord b0 b1 b2 b3, by simpa [eq_comm] using h⟩

/-- A host read that answers only uses free values and records one response, which is no acknowledgement (R80, R85). -/
theorem hostTurn_read_next {s t : State} {w : Width} {addr : Word} (h : hostTurn (.read w addr) s = .next t) :
    ∃ n r, r ≠ .ack ∧ t = (s.useFresh n).respond r := by
  simp only [hostTurn] at h
  split at h
  case h_1 r _ =>
    obtain ⟨n, x, hr⟩ := busReadReg_eq_respond s r
    exact ⟨n, .word x, by simp, by simpa [hr, eq_comm] using h⟩
  case h_2 =>
    obtain ⟨b, ht⟩ := busReadByte_next h
    exact ⟨1, .byte b, by simp, ht⟩
  case h_3 =>
    obtain ⟨x, ht⟩ := busReadWord_next h
    exact ⟨4, .word x, by simp, ht⟩
  case h_4 =>
    obtain rfl : s.respond .busError = t := by simpa using h
    exact ⟨0, .busError, by simp, rfl⟩

/-! ### What a write records -/

/-- A register write, a soft reset and an issue included, records nothing itself. -/
@[simp] theorem State.writeReg_busLog (s : State) (r : Reg) (v : Word) : (s.writeReg r v).busLog = s.busLog := by
  cases r with
  | ctrl => simp only [State.writeReg, writeCtrl]; split <;> rfl
  | cmd => simp only [State.writeReg, writeCmd]; split <;> rfl
  | _ => rfl

@[simp] theorem busWriteReg_busLog (s : State) (r : Option Reg) (v : Word) :
    (busWriteReg s r v).busLog = .ack :: s.busLog := by
  cases r <;> simp [busWriteReg]

theorem busWriteBytes_busLog {s t : State} {i : Nat} {bs : List Byte} (h : busWriteBytes s i bs = .next t) :
    t.busLog = .ack :: s.busLog := by
  obtain ⟨-, -, rfl⟩ := busWriteBytes_next h
  rfl

/-- A host write that answers records one response, an acknowledgement or a bus error (R80). -/
theorem hostTurn_write_busLog {s t : State} {w : Width} {addr v : Word}
    (h : hostTurn (.write w addr v) s = .next t) :
    ∃ r, t.busLog = r :: s.busLog ∧ (r = .ack ∨ r = .busError) := by
  simp only [hostTurn] at h
  split at h
  case h_1 r _ =>
    obtain rfl : busWriteReg s r v = t := by simpa using h
    exact ⟨.ack, busWriteReg_busLog s r v, .inl rfl⟩
  case h_2 => exact ⟨.ack, busWriteBytes_busLog h, .inl rfl⟩
  case h_3 => exact ⟨.ack, busWriteBytes_busLog h, .inl rfl⟩
  case h_4 =>
    obtain rfl : s.respond .busError = t := by simpa using h
    exact ⟨.busError, rfl, .inr rfl⟩

/-! ### The obligation -/

/-- Settles O43: such an access reaches nothing by the bus map, and each kind of host turn records its own response. -/
theorem busErrorsChangeNothing : Obligations.BusErrorsChangeNothing := by
  refine ⟨fun s w addr v hbad => ?_, fun s t w addr v => ⟨fun hread => ?_, hostTurn_write_busLog⟩⟩
  · have hnothing : busTarget s.build w addr = .nothing := busTarget_eq_nothing hbad
    exact ⟨hostTurn_read_nothing hnothing, hostTurn_write_nothing v hnothing⟩
  · obtain ⟨n, r, hr, rfl⟩ := hostTurn_read_next hread
    exact ⟨r, rfl, hr⟩

end Sys2Proof.Machine
end

section
/-! The decode procedure (spec/30_encoding.md R110 to R116): the fields of a command word by arithmetic on the word,
what `decodeCmd` answers on each kind of word, and the proof of `Obligations.DecodeProcedureIsTotal`. -/

namespace Sys2Proof

/-! ### The fields by arithmetic (R110, R111) -/

theorem CmdWord.op_toNat (v : Word) : (CmdWord.op v).toNat = v.toNat % 16 := by
  simp [CmdWord.op]

theorem CmdWord.rsv0_toNat (v : Word) : (CmdWord.rsv0 v).toNat = v.toNat / 16 % 16 := by
  simp [CmdWord.rsv0, Nat.shiftRight_eq_div_pow]

theorem CmdWord.imm8_toNat (v : Word) : (CmdWord.imm8 v).toNat = v.toNat / 256 % 256 := by
  simp [CmdWord.imm8, Nat.shiftRight_eq_div_pow]

/-- `RSV1` is the whole upper half, so nothing is cut off above it. -/
theorem CmdWord.rsv1_toNat (v : Word) : (CmdWord.rsv1 v).toNat = v.toNat / 65536 := by
  have hlt : v.toNat / 65536 < 65536 := by omega
  simp [CmdWord.rsv1, Nat.shiftRight_eq_div_pow, Nat.mod_eq_of_lt hlt]

end Sys2Proof

namespace Sys2Proof.Machine

/-! ### What each check of `decodeCmd` asks of the word (R113, R115) -/

theorem badOp_iff_op {v : Word} : BadOp v ↔ 9 ≤ (CmdWord.op v).toNat := by
  rw [CmdWord.op_toNat]

theorem badReserved_iff_fields {v : Word} :
    BadReserved v ↔ ¬ 9 ≤ (CmdWord.op v).toNat ∧
      ((CmdWord.rsv0 v ≠ 0 ∨ CmdWord.rsv1 v ≠ 0) ∨ (CmdWord.op v ≠ 4 ∧ CmdWord.imm8 v ≠ 0)) := by
  simp [BadReserved, BitVec.toNat_eq, CmdWord.op_toNat, CmdWord.rsv0_toNat, CmdWord.rsv1_toNat, CmdWord.imm8_toNat,
    or_assoc]

/-! ### The three answers of `decodeCmd` (R116) -/

theorem decodeCmd_of_badOp {v : Word} (h : BadOp v) : decodeCmd v = .error .illegalOp :=
  if_pos (badOp_iff_op.1 h)

theorem decodeCmd_of_badReserved {v : Word} (h : BadReserved v) : decodeCmd v = .error .reservedField := by
  obtain ⟨hop, hrsv | himm⟩ := badReserved_iff_fields.1 h
  · simp only [decodeCmd, if_neg hop, if_pos hrsv]
  · simp only [decodeCmd, if_neg hop, if_pos himm, ite_self]

/-- A word that passes the checks is the command with its operation number and its immediate: past the checks `IMM8`
is 0 in every row of the opcode map but `FB_OPCODE`'s (R114). -/
theorem decodeCmd_of_legal {v : Word} (hop : ¬ BadOp v) (hres : ¬ BadReserved v) :
    ∃ i, decodeCmd v = .ok i ∧ opNumber i = (CmdWord.op v).toNat ∧ immNumber i = (CmdWord.imm8 v).toNat := by
  rw [badOp_iff_op] at hop
  obtain ⟨hrsv, himm⟩ := not_or.1 fun h => hres (badReserved_iff_fields.2 ⟨hop, h⟩)
  simp only [decodeCmd, if_neg hop, if_neg hrsv, if_neg himm]
  by_cases h4 : CmdWord.op v = 4
  · exact ⟨.fbOpcode (CmdWord.imm8 v), by simp [h4], by simp [h4, opNumber], rfl⟩
  · have himm0 : CmdWord.imm8 v = 0 := not_not.1 fun h => himm ⟨h4, h⟩
    have hne : (CmdWord.op v).toNat ≠ 4 := fun h => h4 (BitVec.eq_of_toNat_eq h)
    rw [himm0]
    generalize (CmdWord.op v).toNat = n at hop hne
    match n with
    | 0 => exact ⟨.nop, rfl, rfl, rfl⟩
    | 1 => exact ⟨.encode, rfl, rfl, rfl⟩
    | 2 => exact ⟨.decode, rfl, rfl, rfl⟩
    | 3 => exact ⟨.fbBegin, rfl, rfl, rfl⟩
    | 4 => exact absurd rfl hne
    | 5 => exact ⟨.fbRaw, rfl, rfl, rfl⟩
    | 6 => exact ⟨.fbText, rfl, rfl, rfl⟩
    | 7 => exact ⟨.fbEnd, rfl, rfl, rfl⟩
    | 8 => exact ⟨.frameParse, rfl, rfl, rfl⟩
    | n + 9 => exact absurd (Nat.le_add_left 9 n) hop

/-! ### The obligation -/

/-- Settles O4: the three answers of `decodeCmd`, the fields read by arithmetic. -/
theorem decodeProcedureIsTotal : Obligations.DecodeProcedureIsTotal := by
  refine fun v => ⟨fun hop => ⟨.illegalOp, decodeCmd_of_badOp hop, rfl⟩,
    fun hres => ⟨.reservedField, decodeCmd_of_badReserved hres, rfl⟩, fun hop hres => ?_⟩
  rw [← CmdWord.op_toNat, ← CmdWord.imm8_toNat]
  exact decodeCmd_of_legal hop hres

end Sys2Proof.Machine
end

section
/-! Bit packing (spec/40_huffman.md R144): which bit of the sequence each packed bit is, that unpacking gives the
sequence back, and the proof of `Obligations.BitPackingIsLsbFirst`. -/

namespace Sys2Proof.Machine

/-- Bit `k` of the number is element `k` of the list (R144). -/
theorem bitsToNat_testBit (bs : List Bool) (k : Nat) : (bitsToNat bs).testBit k = bs.getD k false := by
  induction bs generalizing k with
  | nil => simp [bitsToNat]
  | cons b bs ih =>
    have hbit : bitsToNat (b :: bs) = Nat.bit b (bitsToNat bs) := by
      cases b <;> simp [bitsToNat, Nat.bit_val, Nat.add_comm]
    rw [hbit]
    cases k with
    | zero => exact Nat.testBit_bit_zero ..
    | succ k => rw [Nat.testBit_bit_succ, ih, List.getD_cons_succ]

theorem byteBits_getD (b : Byte) {k : Nat} (hk : k < 8) : (byteBits b).getD k false = b.getLsbD k := by
  interval_cases k <;> rfl

/-- Bit `k` of packed byte `j` is bit `8*j + k` of the sequence (R144). -/
theorem packBytes_bit {m j k : Nat} (q : List Bool) (hj : j < m) (hk : k < 8) :
    ((packBytes m q).getD j 0).getLsbD k = q.getD (8 * j + k) false := by
  induction m generalizing q j with
  | zero => omega
  | succ m ih =>
    cases j with
    | zero =>
      rw [packBytes, List.getD_cons_zero, BitVec.getLsbD_ofNat, bitsToNat_testBit]
      simp [hk]
    | succ j =>
      have hshift : 8 + (8 * j + k) = 8 * (j + 1) + k := by omega
      rw [packBytes, List.getD_cons_succ, ih (q.drop 8) (by omega)]
      simp [List.getElem?_drop, hshift]

/-- Stream bit `i` is bit `i mod 8` of data byte `floor(i / 8)` (R144). -/
theorem unpackBytes_getD (bs : List Byte) {i : Nat} (hi : i < 8 * bs.length) :
    (unpackBytes bs).getD i false = (bs.getD (i / 8) 0).getLsbD (i % 8) := by
  induction bs generalizing i with
  | nil => simp at hi
  | cons b bs ih =>
    rw [List.length_cons] at hi
    rw [unpackBytes_cons]
    by_cases h8 : i < 8
    · rw [List.getD_append _ _ _ _ (by simpa using h8), byteBits_getD b h8, Nat.div_eq_of_lt h8, Nat.mod_eq_of_lt h8,
        List.getD_cons_zero]
    · obtain ⟨n, rfl⟩ : ∃ n, i = n + 8 := ⟨i - 8, by omega⟩
      rw [List.getD_append_right _ _ _ _ (by simp), byteBits_length, Nat.add_sub_cancel, ih (by omega),
        Nat.add_div_right n (by omega), Nat.add_mod_right, List.getD_cons_succ]

/-- Unpacking is the inverse of packing: both sides have the same bit at every index (R144). -/
theorem unpackBytes_packBytes {m : Nat} {q : List Bool} (hq : q.length = 8 * m) :
    unpackBytes (packBytes m q) = q := by
  have hlen : (unpackBytes (packBytes m q)).length = 8 * m := by rw [unpackBytes_length, packBytes_length]
  refine List.ext_getElem (hlen.trans hq.symm) fun i h1 h2 => ?_
  have hi : i < 8 * m := hlen ▸ h1
  rw [← List.getD_eq_getElem _ false h1, ← List.getD_eq_getElem _ false h2,
    unpackBytes_getD _ (by rwa [packBytes_length]), packBytes_bit q (by omega) (by omega), Nat.div_add_mod]

/-- Settles O16: the bits of a packed byte, and unpacking as its inverse, bit by bit. -/
theorem bitPackingIsLsbFirst : Obligations.BitPackingIsLsbFirst :=
  ⟨fun m q hq => ⟨packBytes_length m q, fun _ _ hj hk => packBytes_bit q hj hk, unpackBytes_packBytes hq⟩,
    fun bs _ hi => unpackBytes_getD bs hi⟩

end Sys2Proof.Machine
end

section
/-! The construction of the tree (spec/40_huffman.md R141): a pass of `BuildTree` has one result up to the order of the
pool, `mergePool` makes such passes, no pass loses a leaf, and the proof of `Obligations.TreeIsBuiltByMerging`. -/

namespace Sys2Proof.Machine

/-! ### A pass has one result -/

/-- A pool has at most one entry before all its others. -/
theorem least_unique {x x' : PoolEntry} {r r' : List PoolEntry} (hp : (x :: r).Perm (x' :: r'))
    (hx : ∀ z ∈ r, Before x z) (hx' : ∀ z ∈ r', Before x' z) : x = x' ∧ r.Perm r' := by
  have heq : x = x' := by
    by_contra hne
    have hmem : x ∈ r' := (List.mem_cons.1 (hp.subset List.mem_cons_self)).resolve_left hne
    have hmem' : x' ∈ r := (List.mem_cons.1 (hp.symm.subset List.mem_cons_self)).resolve_left (Ne.symm hne)
    have := hx _ hmem'
    have := hx' _ hmem
    omega
  subst heq
  exact ⟨rfl, hp.cons_inv⟩

theorem Before.trans {x y z : PoolEntry} (hxy : Before x y) (hyz : Before y z) : Before x z := by
  omega

/-- Equal pools have equal pools after a pass, the order of entries aside (R141). -/
theorem MergeStep.unique {n : Nat} {p p' q q' : List PoolEntry} (h : MergeStep n p q) (h' : MergeStep n p' q')
    (hp : p.Perm p') : q.Perm q' := by
  obtain ⟨x, y, rest, hpx, hxy, hrest, hq⟩ := h
  obtain ⟨x', y', rest', hpx', hxy', hrest', hq'⟩ := h'
  obtain ⟨rfl, hp1⟩ := least_unique (hpx.symm.trans (hp.trans hpx'))
    (List.forall_mem_cons.2 ⟨hxy, fun z hz => hxy.trans (hrest z hz)⟩)
    (List.forall_mem_cons.2 ⟨hxy', fun z hz => hxy'.trans (hrest' z hz)⟩)
  obtain ⟨rfl, hp2⟩ := least_unique hp1 hrest hrest'
  exact hq.trans ((hp2.cons _).trans hq'.symm)

/-- The procedure has at most one result (R141). -/
theorem BuildsTree.unique {freq : Vector Nat 256} {t t' : Tree} (h : BuildsTree freq t) (h' : BuildsTree freq t') :
    t = t' := by
  obtain ⟨pools, h0, hstep, w, hlast⟩ := h
  obtain ⟨pools', h0', hstep', w', hlast'⟩ := h'
  have hsame : ∀ k, k ≤ 255 → (pools k).Perm (pools' k) := by
    intro k hk
    induction k with
    | zero => exact h0.trans h0'.symm
    | succ k ih => exact (hstep k hk).unique (hstep' k hk) (ih (by omega))
  have hend := hsame 255 (le_refl _)
  rw [hlast, hlast', List.singleton_perm_singleton] at hend
  exact congrArg PoolEntry.tree hend

/-! ### What a pass keeps -/

/-- The numbers of the pool's entries are distinct and lie below that of the next node (R141). -/
def IdsDistinctBelow (n : Nat) (p : List PoolEntry) : Prop :=
  (p.map PoolEntry.id).Nodup ∧ ∀ e ∈ p, e.id < n

theorem MergeStep.idsDistinctBelow {n : Nat} {p q : List PoolEntry} (h : MergeStep n p q)
    (hp : IdsDistinctBelow n p) : IdsDistinctBelow (n + 1) q := by
  obtain ⟨x, y, rest, hpx, -, -, hq⟩ := h
  obtain ⟨hnodup, hlt⟩ := hp
  have hrest : ∀ e ∈ rest, e.id < n := fun e he => hlt e (hpx.symm.subset (by simp [he]))
  rw [(hpx.map _).nodup_iff, List.map_cons, List.map_cons, List.nodup_cons, List.nodup_cons] at hnodup
  constructor
  · rw [(hq.map _).nodup_iff, List.map_cons, List.nodup_cons]
    refine ⟨fun hmem => ?_, hnodup.2.2⟩
    obtain ⟨e, he, hid⟩ := List.mem_map.1 hmem
    exact absurd hid (hrest e he).ne
  · intro e he
    obtain rfl | he := List.mem_cons.1 (hq.subset he)
    · exact Nat.lt_succ_self n
    · exact (hrest e he).trans (Nat.lt_succ_self n)

theorem MergeStep.length_eq {n : Nat} {p q : List PoolEntry} (h : MergeStep n p q) : p.length = q.length + 1 := by
  obtain ⟨x, y, rest, hpx, -, -, hq⟩ := h
  simp [hpx.length_eq, hq.length_eq]

/-- The bytes at the leaves of a pool's trees. -/
def poolLeaves (p : List PoolEntry) : List Byte := p.flatMap fun e => e.tree.leaves

theorem poolLeaves_singleton (e : PoolEntry) : poolLeaves [e] = e.tree.leaves := List.flatMap_singleton ..

/-- A pool of leaves holds their bytes, in order. -/
theorem poolLeaves_ofFn {n : Nat} (w : Fin n → Nat) (b : Fin n → Byte) :
    poolLeaves (List.ofFn fun s => { weight := w s, id := s.val, tree := .leaf (b s) }) = List.ofFn b := by
  rw [List.ofFn_eq_map, List.ofFn_eq_map, poolLeaves, List.flatMap_map]
  exact (List.map_eq_flatMap ..).symm

theorem MergeStep.leaves_perm {n : Nat} {p q : List PoolEntry} (h : MergeStep n p q) :
    (poolLeaves q).Perm (poolLeaves p) := by
  obtain ⟨x, y, rest, hpx, -, -, hq⟩ := h
  refine (hq.flatMap_right _).trans (List.Perm.trans ?_ (hpx.flatMap_right _).symm)
  simp [Tree.leaves]

/-- The pools of `k` passes one after the other, the first of which makes node `n` (R141). -/
abbrev Passes (n k : Nat) (pools : Nat → List PoolEntry) : Prop :=
  ∀ j, j < k → MergeStep (n + j) (pools j) (pools (j + 1))

theorem passes_length {n k : Nat} {pools : Nat → List PoolEntry} (h : Passes n k pools) :
    (pools k).length + k = (pools 0).length := by
  induction k with
  | zero => rfl
  | succ k ih =>
    have := (h k (Nat.lt_succ_self k)).length_eq
    have := ih fun j hj => h j (hj.trans (Nat.lt_succ_self k))
    omega

theorem passes_leaves {n k : Nat} {pools : Nat → List PoolEntry} (h : Passes n k pools) :
    (poolLeaves (pools k)).Perm (poolLeaves (pools 0)) := by
  induction k with
  | zero => exact List.Perm.refl _
  | succ k ih =>
    exact (h k (Nat.lt_succ_self k)).leaves_perm.trans (ih fun j hj => h j (hj.trans (Nat.lt_succ_self k)))

/-! ### The passes of the model -/

/-- No entry of the pool is before the one `takeLeast` picks (R141). -/
theorem takeLeast_not_before (e : PoolEntry) (p : List PoolEntry) :
    ∀ z ∈ e :: p, ¬ Before z (takeLeast e p).1 := by
  induction p generalizing e with
  | nil => simp [takeLeast]
  | cons y p ih =>
    simp only [List.forall_mem_cons]
    unfold takeLeast
    cases hprec : precedes y e
    · have hye : ¬ Before y e := by simp [Before, ← precedes_iff, hprec]
      obtain ⟨he, hp⟩ := List.forall_mem_cons.1 (ih e)
      exact ⟨he, by dsimp only [cond]; omega, hp⟩
    · have hye : Before y e := (precedes_iff y e).1 hprec
      obtain ⟨hy, hp⟩ := List.forall_mem_cons.1 (ih y)
      exact ⟨fun h => hy (hye.trans h), hy, hp⟩

/-- With distinct numbers, the picked entry is before all the others (R141). -/
theorem takeLeast_before {e : PoolEntry} {p : List PoolEntry} (hids : ((e :: p).map PoolEntry.id).Nodup) :
    ∀ z ∈ (takeLeast e p).2, Before (takeLeast e p).1 z := by
  intro z hz
  have hperm := takeLeast_perm e p
  have hnot := takeLeast_not_before e p z (hperm.subset (List.mem_cons_of_mem _ hz))
  rw [← (hperm.map _).nodup_iff, List.map_cons, List.nodup_cons] at hids
  have hne : (takeLeast e p).1.id ≠ z.id := fun h => hids.1 (h ▸ List.mem_map_of_mem hz)
  omega

/-- One merge of the model is a pass of the procedure (R141). -/
theorem mergePool_succ {n : Nat} {p : List PoolEntry} (k : Nat) (hids : (p.map PoolEntry.id).Nodup)
    (hlen : 2 ≤ p.length) : ∃ q, MergeStep n p q ∧ mergePool (k + 1) n p = mergePool k (n + 1) q := by
  match p with
  | e :: p' =>
    have hperm := takeLeast_perm e p'
    have hleast := takeLeast_before hids
    have hlen2 : (takeLeast e p').2.length = p'.length := takeLeast_length e p'
    match htake : takeLeast e p' with
    | (x, []) =>
      rw [htake, List.length_nil] at hlen2
      rw [List.length_cons] at hlen
      omega
    | (x, f :: q') =>
      rw [htake] at hperm hleast
      have hids' : ((f :: q').map PoolEntry.id).Nodup := by
        rw [← (hperm.map _).nodup_iff, List.map_cons, List.nodup_cons] at hids
        exact hids.2
      have hperm' := takeLeast_perm f q'
      refine ⟨_, ⟨x, _, _, hperm.symm.trans (hperm'.symm.cons x), ?_, takeLeast_before hids', List.Perm.refl _⟩, ?_⟩
      · exact hleast _ (hperm'.subset List.mem_cons_self)
      · simp only [mergePool, htake]

/-- `k` merges of the model are `k` passes of the procedure (R141). -/
theorem mergePool_passes {k n : Nat} {p : List PoolEntry} (hids : IdsDistinctBelow n p) (hlen : k < p.length) :
    ∃ pools : Nat → List PoolEntry, pools 0 = p ∧ pools k = mergePool k n p ∧ Passes n k pools := by
  induction k generalizing n p with
  | zero => exact ⟨fun _ => p, rfl, rfl, fun j hj => absurd hj (Nat.not_lt_zero j)⟩
  | succ k ih =>
    obtain ⟨q, hstep, hq⟩ := mergePool_succ (n := n) k hids.1 (by omega)
    obtain ⟨pools, h0, hk, hpasses⟩ := ih (hstep.idsDistinctBelow hids) (by have := hstep.length_eq; omega)
    refine ⟨fun j => Nat.casesOn j p pools, rfl, hk.trans hq.symm, fun j hj => ?_⟩
    cases j with
    | zero =>
      rw [← h0] at hstep
      exact hstep
    | succ j => exact Nat.add_right_comm n 1 j ▸ hpasses j (by omega)

/-! ### The built tree -/

/-- Leaf `s` has weight `FREQ[s]` and number `s` (R141). -/
theorem leafPool_eq_ofFn (freq : Vector Nat 256) :
    leafPool freq =
      List.ofFn fun s : Fin 256 => { weight := freq[s], id := s.val, tree := .leaf (BitVec.ofNat 8 s.val) } := by
  refine List.ext_getElem (by rw [leafPool_length, List.length_ofFn]) fun s h _ => ?_
  rw [leafPool_length] at h
  rw [leafPool_getElem freq s h, List.getElem_ofFn]
  rfl

theorem leafPool_idsDistinctBelow (freq : Vector Nat 256) : IdsDistinctBelow 256 (leafPool freq) := by
  rw [leafPool_eq_ofFn]
  constructor
  · rw [List.map_ofFn, List.nodup_ofFn]
    exact Fin.val_injective
  · rw [List.forall_mem_ofFn_iff]
    exact Fin.is_lt

/-- The model's tree is a result of the procedure (R141). -/
theorem buildsTree_buildTree (freq : Vector Nat 256) : BuildsTree freq (buildTree freq) := by
  obtain ⟨pools, h0, hmerged, hpasses⟩ :=
    mergePool_passes (k := 255) (leafPool_idsDistinctBelow freq) (by rw [leafPool_length]; omega)
  have hlen := passes_length hpasses
  rw [h0, leafPool_length] at hlen
  obtain ⟨x, y, rest, -, -, -, hroot⟩ := hpasses 254 (by omega)
  obtain rfl : rest = [] := by
    have hrest : (pools 255).length = rest.length + 1 := hroot.length_eq
    exact List.eq_nil_of_length_eq_zero (by omega)
  have hlast := List.perm_singleton.1 hroot
  have htree : buildTree freq = .node x.tree y.tree := by rw [buildTree, ← hmerged, hlast]
  exact ⟨pools, by rw [h0, leafPool_eq_ofFn], hpasses, x.weight + y.weight, by rw [hlast, htree]⟩

/-- The procedure loses no leaf: each byte value is at exactly one (R141). -/
theorem BuildsTree.leaves_perm {freq : Vector Nat 256} {t : Tree} (h : BuildsTree freq t) :
    t.leaves.Perm ((List.range 256).map (BitVec.ofNat 8)) := by
  obtain ⟨pools, h0, hstep, w, hlast⟩ := h
  have hkept := (passes_leaves hstep).trans (h0.flatMap_right _)
  rw [hlast, poolLeaves_singleton, ← poolLeaves, poolLeaves_ofFn] at hkept
  have hleaves : (List.range 256).map (BitVec.ofNat 8) = List.ofFn fun s : Fin 256 => BitVec.ofNat 8 s.val := by
    rw [List.ofFn_eq_map, ← List.map_coe_finRange_eq_range, List.map_map]
    rfl
  rwa [hleaves]

/-- Settles O59: the model's tree is a result of the procedure, which has only one. -/
theorem treeIsBuiltByMerging : Obligations.TreeIsBuiltByMerging :=
  ⟨fun freq _ => ⟨fun h => h.unique (buildsTree_buildTree freq), fun h => h ▸ buildsTree_buildTree freq⟩,
    fun _ _ => ⟨rfl, rfl⟩⟩

end Sys2Proof.Machine
end

section
/-! The path codes (spec/40_huffman.md R142, R143): a path leads to its leaf and to none before, how long paths are in a
tree with that many leaves, and the proofs of `Obligations.CodesAreTreePaths` and `Obligations.CodesAreAPrefixCode`. -/

namespace Sys2Proof.Machine

/-! ### Paths of any tree -/

theorem Tree.leaves_length_pos (t : Tree) : 0 < t.leaves.length := by
  induction t with
  | leaf s => exact Nat.one_pos
  | node l r ihl _ => rw [Tree.leaves, List.length_append]; omega

@[simp] theorem Tree.path?_leaf (x y : Byte) : (Tree.leaf x).path? y = if x = y then some [] else none := rfl

/-- A path from a node is a step to a child and a path from there (R142). -/
theorem Tree.path?_node {l r : Tree} {x : Byte} {p : List Bool} (h : (Tree.node l r).path? x = some p) :
    (∃ p', l.path? x = some p' ∧ p = false :: p') ∨ (∃ p', r.path? x = some p' ∧ p = true :: p') := by
  simp only [Tree.path?] at h
  split at h
  · exact .inl ⟨_, ‹_›, by simpa [eq_comm] using h⟩
  · exact .inr (by simpa [eq_comm] using h)

theorem Tree.path?_node_left {l : Tree} (r : Tree) {x : Byte} {p : List Bool} (h : l.path? x = some p) :
    (Tree.node l r).path? x = some (false :: p) := by
  simp [Tree.path?, h]

theorem Tree.path?_node_right {l r : Tree} {x : Byte} {p : List Bool} (hl : l.path? x = none)
    (h : r.path? x = some p) : (Tree.node l r).path? x = some (true :: p) := by
  simp [Tree.path?, hl, h]

/-- Exactly the bytes at the leaves have a path. -/
theorem Tree.path?_isSome {t : Tree} {x : Byte} : (t.path? x).isSome = true ↔ x ∈ t.leaves := by
  induction t with
  | leaf s => by_cases h : s = x <;> simp [Tree.leaves, h, Ne.symm]
  | node l r ihl ihr =>
    rw [Tree.leaves, List.mem_append, ← ihl, ← ihr]
    cases hl : l.path? x with
    | some p => simp [Tree.path?_node_left r hl]
    | none =>
      rw [Tree.path?, hl]
      simp

theorem Tree.mem_leaves_of_path? {t : Tree} {x : Byte} {p : List Bool} (h : t.path? x = some p) : x ∈ t.leaves :=
  Tree.path?_isSome.1 (by rw [h]; rfl)

theorem Tree.exists_path (t : Tree) : ∃ x p, t.path? x = some p := by
  obtain ⟨x, hx⟩ := List.exists_mem_of_length_pos t.leaves_length_pos
  exact ⟨x, Option.isSome_iff_exists.1 (Tree.path?_isSome.2 hx)⟩

/-- Where no byte is at two leaves, a path in the right subtree is one from the node. -/
theorem Tree.path?_node_right_of_nodup {l r : Tree} {x : Byte} {p : List Bool}
    (hnodup : (Tree.node l r).leaves.Nodup) (h : r.path? x = some p) :
    (Tree.node l r).path? x = some (true :: p) := by
  refine Tree.path?_node_right (Option.not_isSome_iff_eq_none.1 fun hl => ?_) h
  exact (List.disjoint_of_nodup_append hnodup) (Tree.path?_isSome.1 hl) (Tree.mem_leaves_of_path? h)

/-- A path leads to its leaf (R142). -/
theorem Tree.follow_path {t : Tree} {x : Byte} {p : List Bool} (h : t.path? x = some p) : t.follow p = .leaf x := by
  induction t generalizing p with
  | leaf s =>
    obtain ⟨rfl, rfl⟩ : s = x ∧ [] = p := by simpa using h
    rfl
  | node l r ihl ihr =>
    obtain ⟨p', hp', rfl⟩ | ⟨p', hp', rfl⟩ := Tree.path?_node h
    · exact ihl hp'
    · exact ihr hp'

/-- Before its end a path leads to inner nodes (R142). -/
theorem Tree.follow_path_prefix {t : Tree} {x : Byte} {p q : List Bool} (h : t.path? x = some q) (hp : p <+: q)
    (hne : p ≠ q) : ∃ l r, t.follow p = .node l r := by
  induction t generalizing p q with
  | leaf s =>
    obtain ⟨-, rfl⟩ : s = x ∧ [] = q := by simpa using h
    exact absurd (List.prefix_nil.1 hp) hne
  | node l r ihl ihr =>
    cases p with
    | nil => exact ⟨l, r, rfl⟩
    | cons b p =>
      obtain ⟨q', hq', rfl⟩ | ⟨q', hq', rfl⟩ := Tree.path?_node h
      all_goals obtain ⟨rfl, hp'⟩ := List.cons_prefix_cons.1 hp
      · exact ihl hq' hp' fun he => hne (by rw [he])
      · exact ihr hq' hp' fun he => hne (by rw [he])

/-! ### How long paths are -/

/-- Each step of a path leaves at least one leaf aside. -/
theorem Tree.path_length_lt {t : Tree} {x : Byte} {p : List Bool} (h : t.path? x = some p) :
    p.length < t.leaves.length := by
  induction t generalizing p with
  | leaf s =>
    obtain ⟨-, rfl⟩ : s = x ∧ [] = p := by simpa using h
    exact Nat.one_pos
  | node l r ihl ihr =>
    rw [Tree.leaves, List.length_append]
    have := l.leaves_length_pos
    have := r.leaves_length_pos
    obtain ⟨p', hp', rfl⟩ | ⟨p', hp', rfl⟩ := Tree.path?_node h
    · have := ihl hp'
      rw [List.length_cons]
      omega
    · have := ihr hp'
      rw [List.length_cons]
      omega

/-- A tree whose paths have at most `d` steps has at most `2^d` leaves. -/
theorem Tree.leaves_length_le {t : Tree} {d : Nat} (hnodup : t.leaves.Nodup)
    (hd : ∀ x p, t.path? x = some p → p.length ≤ d) : t.leaves.length ≤ 2 ^ d := by
  induction t generalizing d with
  | leaf s => exact Nat.one_le_two_pow
  | node l r ihl ihr =>
    have hl : ∀ x p, l.path? x = some p → p.length + 1 ≤ d := fun x p h => hd x _ (Tree.path?_node_left r h)
    have hr : ∀ x p, r.path? x = some p → p.length + 1 ≤ d := fun x p h =>
      hd x _ (Tree.path?_node_right_of_nodup hnodup h)
    obtain ⟨x, p, hp⟩ := l.exists_path
    obtain ⟨d, rfl⟩ : ∃ d', d = d' + 1 := ⟨d - 1, by have := hl x p hp; omega⟩
    obtain ⟨hnl, hnr, -⟩ := List.nodup_append.1 hnodup
    have := ihl hnl fun x p h => Nat.le_of_succ_le_succ (hl x p h)
    have := ihr hnr fun x p h => Nat.le_of_succ_le_succ (hr x p h)
    rw [Tree.leaves, List.length_append, Nat.pow_succ]
    omega

/-- Bits as many as the longest path has begin with a path (R143). -/
theorem Tree.exists_path_prefix {t : Tree} {q : List Bool} (hnodup : t.leaves.Nodup)
    (hq : ∀ x p, t.path? x = some p → p.length ≤ q.length) : ∃ x p, t.path? x = some p ∧ p <+: q := by
  induction t generalizing q with
  | leaf s => exact ⟨s, [], by simp, List.nil_prefix⟩
  | node l r ihl ihr =>
    have hl : ∀ x p, l.path? x = some p → p.length + 1 ≤ q.length := fun x p h => hq x _ (Tree.path?_node_left r h)
    have hr : ∀ x p, r.path? x = some p → p.length + 1 ≤ q.length := fun x p h =>
      hq x _ (Tree.path?_node_right_of_nodup hnodup h)
    obtain ⟨hnl, hnr, -⟩ := List.nodup_append.1 hnodup
    match q with
    | [] =>
      obtain ⟨x, p, hp⟩ := l.exists_path
      exact absurd (hl x p hp) (by simp)
    | false :: q =>
      obtain ⟨x, p, hp, hpq⟩ := ihl hnl fun x p h => Nat.le_of_succ_le_succ (hl x p h)
      exact ⟨x, false :: p, Tree.path?_node_left r hp, List.cons_prefix_cons.2 ⟨rfl, hpq⟩⟩
    | true :: q =>
      obtain ⟨x, p, hp, hpq⟩ := ihr hnr fun x p h => Nat.le_of_succ_le_succ (hr x p h)
      exact ⟨x, true :: p, Tree.path?_node_right_of_nodup hnodup hp, List.cons_prefix_cons.2 ⟨rfl, hpq⟩⟩

/-! ### `L_MAX` -/

theorem Tree.lMax_eq (t : Tree) :
    t.lMax = ((List.range 256).map fun s => (t.code (BitVec.ofNat 8 s)).length).foldr max ⊥ := by
  rw [List.foldr_map]
  rfl

theorem mem_allBytes (x : Byte) : x ∈ (List.range 256).map (BitVec.ofNat 8) :=
  List.mem_map.2 ⟨x.toNat, List.mem_range.2 x.isLt, BitVec.ofNat_toNat 8 x⟩

theorem Tree.code_length_le_lMax (t : Tree) (x : Byte) : (t.code x).length ≤ t.lMax := by
  obtain ⟨s, hs, rfl⟩ := List.mem_map.1 (mem_allBytes x)
  rw [t.lMax_eq]
  exact List.le_max_of_le (List.mem_map_of_mem hs) le_rfl

/-- Some code has length `L_MAX`: else all were shorter than the greatest of their lengths. -/
theorem Tree.exists_code_length_eq_lMax (t : Tree) : ∃ x, (t.code x).length = t.lMax := by
  by_contra hne
  have hlt : ∀ x, (t.code x).length < t.lMax := fun x =>
    lt_of_le_of_ne (t.code_length_le_lMax x) fun h => hne ⟨x, h⟩
  have hle : t.lMax ≤ t.lMax - 1 := by
    conv_lhs => rw [t.lMax_eq]
    refine List.max_le_of_forall_le _ _ fun n hn => ?_
    obtain ⟨s, -, rfl⟩ := List.mem_map.1 hn
    exact Nat.le_sub_one_of_lt (hlt _)
  have := hlt 0
  omega

/-! ### The codes of the built tree -/

section BuiltTree

variable (freq : Vector Nat 256)

/-- Each byte value is at exactly one leaf of the built tree (R141). -/
theorem buildTree_leaves_perm : (buildTree freq).leaves.Perm ((List.range 256).map (BitVec.ofNat 8)) :=
  (buildsTree_buildTree freq).leaves_perm

theorem buildTree_leaves_length : (buildTree freq).leaves.length = 256 := by
  simpa using (buildTree_leaves_perm freq).length_eq

theorem buildTree_leaves_nodup : (buildTree freq).leaves.Nodup := by
  refine (buildTree_leaves_perm freq).nodup_iff.2 (List.Nodup.map_on (fun x hx y hy h => ?_) List.nodup_range)
  have hmod := congrArg BitVec.toNat h
  rwa [BitVec.toNat_ofNat, BitVec.toNat_ofNat, Nat.mod_eq_of_lt (List.mem_range.1 hx),
    Nat.mod_eq_of_lt (List.mem_range.1 hy)] at hmod

/-- The default of `Tree.code` is never used (log entry 12). -/
theorem buildTree_path? (x : Byte) : (buildTree freq).path? x = some ((buildTree freq).code x) := by
  have hmem := (buildTree_leaves_perm freq).symm.subset (mem_allBytes x)
  obtain ⟨p, hp⟩ := Option.isSome_iff_exists.1 (Tree.path?_isSome.2 hmem)
  rw [Tree.code, hp]
  rfl

theorem buildTree_path?_length_le {x : Byte} {p : List Bool} (h : (buildTree freq).path? x = some p) :
    p.length ≤ (buildTree freq).lMax := by
  rw [buildTree_path?, Option.some.injEq] at h
  exact h ▸ (buildTree freq).code_length_le_lMax x

/-- The root is no leaf, so that no code is empty (R142). -/
theorem code_ne_nil (x : Byte) : (buildTree freq).code x ≠ [] := by
  intro hnil
  have hroot := Tree.follow_path (buildTree_path? freq x)
  rw [hnil, Tree.follow] at hroot
  have hlen := buildTree_leaves_length freq
  rw [hroot, Tree.leaves, List.length_singleton] at hlen
  omega

theorem code_injective : Function.Injective (buildTree freq).code := by
  intro x y h
  have hx := Tree.follow_path (buildTree_path? freq x)
  rw [h, Tree.follow_path (buildTree_path? freq y)] at hx
  exact (Tree.leaf.inj hx).symm

/-- No code begins another byte's code: it would end at a leaf inside the other's path (R143). -/
theorem code_not_prefix {x y : Byte} (hne : x ≠ y) : ¬ (buildTree freq).code x <+: (buildTree freq).code y := by
  intro hpre
  obtain ⟨l, r, hnode⟩ := Tree.follow_path_prefix (buildTree_path? freq y) hpre fun h => hne (code_injective freq h)
  rw [Tree.follow_path (buildTree_path? freq x)] at hnode
  exact Tree.noConfusion hnode

/-- The bounds of `L_MAX`: 256 leaves need a path of 8 steps, and none is longer than 255 (R142). -/
theorem lMax_bounds : 8 ≤ (buildTree freq).lMax ∧ (buildTree freq).lMax ≤ 255 := by
  constructor
  · have hle := Tree.leaves_length_le (buildTree_leaves_nodup freq) fun x p h => buildTree_path?_length_le freq h
    rw [buildTree_leaves_length] at hle
    exact (Nat.pow_le_pow_iff_right (a := 2) (by omega)).1 hle
  · obtain ⟨x, hx⟩ := (buildTree freq).exists_code_length_eq_lMax
    have hlt := Tree.path_length_lt (buildTree_path? freq x)
    rw [buildTree_leaves_length] at hlt
    omega

end BuiltTree

/-! ### The obligations -/

/-- Settles O22: a code is a path of the built tree, which has 256 leaves. -/
theorem codesAreTreePaths : Obligations.CodesAreTreePaths := by
  refine fun freq => ⟨fun x => ⟨Tree.follow_path (buildTree_path? freq x), fun p hp hne y hleaf => ?_, ?_,
    (buildTree freq).code_length_le_lMax x⟩, (buildTree freq).exists_code_length_eq_lMax, lMax_bounds freq⟩
  · obtain ⟨l, r, hnode⟩ := Tree.follow_path_prefix (buildTree_path? freq x) hp hne
    exact Tree.noConfusion (hnode.symm.trans hleaf)
  · exact List.length_pos_iff.2 (code_ne_nil freq x)

/-- Settles O23: bits as many as `L_MAX` begin with a code, and two codes they begin with are one. -/
theorem codesAreAPrefixCode : Obligations.CodesAreAPrefixCode := by
  refine fun freq => ⟨fun x y => code_not_prefix freq, fun q hq => ?_⟩
  obtain ⟨x, p, hp, hpq⟩ := Tree.exists_path_prefix (buildTree_leaves_nodup freq) fun x p h =>
    (buildTree_path?_length_le freq h).trans hq
  rw [buildTree_path?, Option.some.injEq] at hp
  subst hp
  refine ⟨x, hpq, fun y hy => ?_⟩
  by_contra hne
  obtain hpre | hpre := List.prefix_or_prefix_of_prefix hy hpq
  · exact code_not_prefix freq hne hpre
  · exact code_not_prefix freq (Ne.symm hne) hpre

end Sys2Proof.Machine
end

section
/-! The codec commands as functions of their operands, build and source bytes (spec/40_huffman.md R151): `ENCODE` and
`DECODE` leave what such a function says, so that they depend on nothing else; the proof of
`Obligations.CodecIsStateless`. -/

namespace Sys2Proof.Machine

/-! ### Completions as data -/

/-- How a codec command completes: the bytes written at `DST_ADDR`, whose number is `RES_LEN`, then `RES_ADDR`,
`ERR_INFO` and the error, if it is one (R281, R282). -/
structure Completion where
  out : List Byte
  addr : Word
  info : Word
  error : Option (ErrorCode × BitVec 4)

/-- The state after the completion: what a codec command does to any state (R151). -/
def Completion.onto (r : Completion) (s : State) : State :=
  { s with
    buf := s.buf.writeList s.lat.dstAddr.toNat r.out
    res := { addr := r.addr, len := BitVec.ofNat 32 r.out.length, opcode := s.res.opcode, errInfo := r.info }
    status := r.error.elim s.status.succeeded fun e => s.status.failed e.1 e.2 }

/-- The success completion with the result `out` at `ra` (R281). -/
def Completion.success (out : List Byte) (ra : Word) : Completion :=
  { out := out, addr := ra, info := 0, error := none }

/-- The error completion with the partial result `out` at `ra` (R282). -/
def Completion.failure (e : ErrorCode) (sub : BitVec 4) (info : Word) (out : List Byte) (ra : Word) : Completion :=
  { out := out, addr := ra, info := info, error := some (e, sub) }

/-- A completion changes the destination cells, the result registers but `RES_OPCODE`, and the completion flags. -/
theorem Completion.onto_eq (r : Completion) (s s' : State) :
    r.onto s =
      { s with
        buf := (r.onto s).buf
        res := { (r.onto s').res with opcode := s.res.opcode }
        status :=
          { (r.onto s').status with overrun := s.status.overrun, frameOpen := s.status.frameOpen } } := by
  obtain ⟨out, addr, info, _ | e⟩ := r <;> rfl

/-- At most `n` bytes written are at most `n` bytes reported, and no cell after them is touched. -/
theorem Completion.onto_bounds {r : Completion} {n : Nat} (s : State) (h : r.out.length ≤ n) :
    (r.onto s).res.len.toNat ≤ n ∧ SameOutside s (r.onto s) s.lat.dstAddr.toNat n := by
  constructor
  · exact ((BitVec.toNat_ofNat ..).trans_le (Nat.mod_le ..)).trans h
  · exact fun x hx => sameOutside_written s s.lat.dstAddr.toNat r.out x (by omega)

theorem Completion.onto_holdsBytes (r : Completion) (s : State) :
    (r.onto s).HoldsBytes s.lat.dstAddr.toNat r.out := holdsBytes_written s s.lat.dstAddr.toNat r.out

/-! ### The three parts of a codec command -/

/-- The error of regions that fail a check, the first that fails (R286). -/
def regionError (b : Build) (l : Operands) : Completion :=
  if ¬ InRange b l.srcAddr.toNat l.srcLen.toNat then .failure .range 1 0 [] 0
  else if ¬ InRange b l.dstAddr.toNat l.dstCap.toNat then .failure .range 2 0 [] 0
  else .failure .overlap 0 0 [] 0

/-- What `ENCODE` makes of its source bytes (R146). -/
def encodeResult (b : Build) (l : Operands) (inp : List Byte) : Completion :=
  if l.dstCap.toNat < (encodeStream (buildTree b.freq) b.encRawFallback inp).length then
    .failure .dstOverflow 0
      (BitVec.ofNat 32 (encodeStream (buildTree b.freq) b.encRawFallback inp).length) [] l.dstAddr
  else .success (encodeStream (buildTree b.freq) b.encRawFallback inp) l.dstAddr

/-- What `DECODE` makes of a raw escape with the bytes `body` (R147). -/
def rawResult (l : Operands) (body : List Byte) : Completion :=
  if l.dstCap.toNat < body.length then
    .failure .dstOverflow 0 (BitVec.ofNat 32 (8 * l.dstCap.toNat)) (body.take l.dstCap.toNat) l.dstAddr
  else .success body l.dstAddr

/-- What `DECODE` makes of a walk that decoded `out` (R147). -/
def walkResult (l : Operands) (out : List Byte) : WalkEnd → Completion
  | .complete => .success out l.dstAddr
  | .overflow start => .failure .dstOverflow 0 (BitVec.ofNat 32 start) out l.dstAddr
  | .truncated start => .failure .corruptStream 4 (BitVec.ofNat 32 start) out l.dstAddr

/-- What `DECODE` makes of its source bytes (R147). -/
def decodeResult (b : Build) (l : Operands) : List Byte → Completion
  | [] => .failure .corruptStream 1 0 [] 0
  | h :: data =>
    if h = rawHeader then rawResult l data
    else if 8 ≤ h.toNat then .failure .corruptStream 2 0 [] 0
    else if data = [] ∧ h ≠ 0 then .failure .corruptStream 3 0 [] 0
    else
      walkResult l (decodeCoded (buildTree b.freq) l.dstCap.toNat h data).1
        (decodeCoded (buildTree b.freq) l.dstCap.toNat h data).2

/-- A codec command with the transform `f`: the region checks, the reading of the source, the transform. -/
def runTransform (f : Build → Operands → List Byte → Completion) (s : State) : Out :=
  if s.RegionsOk then
    orFault (s.readBytes s.lat.srcAddr.toNat s.lat.srcLen.toNat) fun inp => .next ((f s.build s.lat inp).onto s)
  else .next ((regionError s.build s.lat).onto s)

/-! ### The commands are these functions -/

theorem withRegions_error {s : State} (h : ¬ s.RegionsOk) (k : Out) :
    withRegions s k = .next ((regionError s.build s.lat).onto s) := by
  unfold withRegions regionError
  split
  · rfl
  · split
    · rfl
    · have hover : Overlap s.lat.srcAddr.toNat s.lat.srcLen.toNat s.lat.dstAddr.toNat s.lat.dstCap.toNat := by
        by_contra hno
        exact h ⟨not_not.1 ‹_›, not_not.1 ‹_›, hno⟩
      rw [if_pos hover]
      rfl

/-- A transform with what its command does after the reading. -/
theorem withRegions_eq_runTransform {s : State} {f : Build → Operands → List Byte → Completion}
    {k : List Byte → Out} (h : s.RegionsOk → ∀ inp, k inp = .next ((f s.build s.lat inp).onto s)) :
    withRegions s (orFault (s.readBytes s.lat.srcAddr.toNat s.lat.srcLen.toNat) k) = runTransform f s := by
  unfold runTransform
  split
  · rw [withRegions_ok ‹_›, funext (h ‹_›)]
  · exact withRegions_error ‹_› _

/-- No more bytes than the destination holds are written without a fault (R77, R82). -/
theorem orFault_writeBytes {s : State} {out : List Byte} (hok : s.RegionsOk) (hlen : out.length ≤ s.lat.dstCap.toNat)
    (k : State → Out) :
    orFault (s.writeBytes s.lat.dstAddr.toNat out) k =
      k { s with buf := s.buf.writeList s.lat.dstAddr.toNat out } := by
  obtain ⟨-, hdst, -⟩ := hok
  have hrange : InRange s.build s.lat.dstAddr.toNat out.length := by
    simp only [InRange] at hdst ⊢
    omega
  rw [writeBytes_inRange s _ out hrange, orFault]

theorem decodeRaw_eq {s : State} (hok : s.RegionsOk) (body : List Byte) :
    decodeRaw s body = .next ((rawResult s.lat body).onto s) := by
  unfold decodeRaw rawResult
  rw [orFault_writeBytes hok (by simp)]
  split
  · have hmin : min body.length s.lat.dstCap.toNat = s.lat.dstCap.toNat := by omega
    have hlen : (body.take s.lat.dstCap.toNat).length = s.lat.dstCap.toNat := by rw [List.length_take]; omega
    simp [hmin, Completion.onto, Completion.failure, State.raiseAt, hlen]
  · have hmin : min body.length s.lat.dstCap.toNat = body.length := by omega
    rw [hmin, List.take_length]
    rfl

theorem decodeWalk_eq {s : State} (hok : s.RegionsOk) (h : Byte) (data : List Byte) :
    decodeWalk s h data =
      .next ((walkResult s.lat (decodeCoded (buildTree s.build.freq) s.lat.dstCap.toNat h data).1
        (decodeCoded (buildTree s.build.freq) s.lat.dstCap.toNat h data).2).onto s) := by
  have hlen := decodeCoded_length_le (buildTree s.build.freq) s.lat.dstCap.toNat h data
  unfold decodeWalk
  generalize decodeCoded (buildTree s.build.freq) s.lat.dstCap.toNat h data = w at hlen ⊢
  obtain ⟨out, stop⟩ := w
  dsimp only
  rw [orFault_writeBytes hok hlen]
  cases stop <;> rfl

/-- `ENCODE` is its transform (R146, R151). -/
theorem exec_encode_eq (s : State) : exec .encode s = runTransform encodeResult s := by
  refine withRegions_eq_runTransform fun hok inp => ?_
  unfold encodeResult
  dsimp only
  split
  · rfl
  · exact orFault_writeBytes hok (not_lt.1 ‹_›) _

/-- `DECODE` is its transform (R147, R151). -/
theorem exec_decode_eq (s : State) : exec .decode s = runTransform decodeResult s := by
  refine withRegions_eq_runTransform fun hok inp => ?_
  cases inp with
  | nil => rfl
  | cons h data =>
    unfold decodeResult
    dsimp only
    split
    · exact decodeRaw_eq hok data
    · split
      · rfl
      · split
        · rfl
        · exact decodeWalk_eq hok h data

/-! ### What a transform's command does -/

/-- A transform answers a next state on regions that fail a check, and on a written source. -/
theorem runTransform_next {f : Build → Operands → List Byte → Completion} {s t : State} :
    runTransform f s = .next t ↔
      (¬ s.RegionsOk ∧ t = (regionError s.build s.lat).onto s) ∨
      (s.RegionsOk ∧ ∃ inp, s.SourceIs inp ∧ t = (f s.build s.lat inp).onto s) := by
  unfold runTransform
  by_cases hok : s.RegionsOk
  · have hread : ∀ inp, s.readBytes s.lat.srcAddr.toNat s.lat.srcLen.toNat = .ok inp ↔ s.SourceIs inp := fun inp =>
      (readBytes_ok ..).trans ⟨fun h => ⟨h.1, h.2.2⟩, fun h => ⟨h.1, .inr hok.1, h.2⟩⟩
    rw [if_pos hok, orFault_next, or_iff_right fun h => h.1 hok, and_iff_right hok]
    simp only [hread, Host.Outcome.next.injEq, eq_comm (a := t)]
  · rw [if_neg hok, or_iff_left fun h => hok h.1, and_iff_right hok, Host.Outcome.next.injEq, eq_comm]

/-- A source region holds one byte list only. -/
theorem sourceIs_unique {s : State} {bs bs' : List Byte} (h : s.SourceIs bs) (h' : s.SourceIs bs') : bs = bs' :=
  List.ext_getElem (h.1.trans h'.1.symm) fun k hk hk' => Option.some.inj ((h.2 k hk).symm.trans (h'.2 k hk'))

/-- A region error writes nothing. -/
@[simp] theorem regionError_out (b : Build) (l : Operands) : (regionError b l).out = [] := by
  unfold regionError
  split
  · rfl
  · split <;> rfl

theorem encodeResult_out_length_le (b : Build) (l : Operands) (inp : List Byte) :
    (encodeResult b l inp).out.length ≤ l.dstCap.toNat := by
  unfold encodeResult
  split
  · exact Nat.zero_le _
  · exact not_lt.1 ‹_›

theorem rawResult_out_length_le (l : Operands) (body : List Byte) :
    (rawResult l body).out.length ≤ min body.length l.dstCap.toNat := by
  unfold rawResult
  split
  · exact (List.length_take ..).trans_le (min_comm _ _).le
  · exact le_min le_rfl (not_lt.1 ‹_›)

@[simp] theorem walkResult_out (l : Operands) (out : List Byte) (stop : WalkEnd) :
    (walkResult l out stop).out = out := by
  cases stop <;> rfl

/-- The bytes `DECODE` writes are none, or those of a raw escape, or those of the walk (R147). -/
theorem decodeResult_out (b : Build) (l : Operands) (h : Byte) (data : List Byte) :
    (decodeResult b l (h :: data)).out = [] ∨
    (h = rawHeader ∧ (decodeResult b l (h :: data)).out = (rawResult l data).out) ∨
    (h ≠ rawHeader ∧
      (decodeResult b l (h :: data)).out = (decodeCoded (buildTree b.freq) l.dstCap.toNat h data).1) := by
  rw [decodeResult]
  split
  · exact .inr (.inl ⟨‹_›, rfl⟩)
  · split
    · exact .inl rfl
    · split
      · exact .inl rfl
      · exact .inr (.inr ⟨‹_›, walkResult_out ..⟩)

theorem decodeResult_out_length_le (b : Build) (l : Operands) (inp : List Byte) :
    (decodeResult b l inp).out.length ≤ l.dstCap.toNat := by
  cases inp with
  | nil => exact Nat.zero_le _
  | cons h data =>
    obtain hout | ⟨-, hout⟩ | ⟨-, hout⟩ := decodeResult_out b l h data
    · simp [hout]
    · exact hout ▸ (rawResult_out_length_le l data).trans (min_le_right _ _)
    · exact hout ▸ decodeCoded_length_le ..

/-- Two states that agree on the operands, the build and the source bytes complete a transform alike (R151). -/
theorem runTransform_alike {f : Build → Operands → List Byte → Completion} {s1 s2 t1 : State}
    (hf : ∀ inp, (f s1.build s1.lat inp).out.length ≤ s1.lat.dstCap.toNat) (hlat : s1.lat = s2.lat)
    (hbuild : s1.build = s2.build)
    (hsrc : ∀ k, k < s1.lat.srcLen.toNat →
      s1.buf.read? (s1.lat.srcAddr.toNat + k) = s2.buf.read? (s1.lat.srcAddr.toNat + k))
    (h : runTransform f s1 = .next t1) :
    ∃ r : Completion, r.out.length ≤ s1.lat.dstCap.toNat ∧ t1 = r.onto s1 ∧ runTransform f s2 = .next (r.onto s2) := by
  have hregions : s1.RegionsOk ↔ s2.RegionsOk := by rw [State.RegionsOk, State.RegionsOk, hlat, hbuild]
  obtain ⟨hbad, rfl⟩ | ⟨hok, inp, ⟨hlen, hholds⟩, rfl⟩ := runTransform_next.1 h
  · exact ⟨_, by simp, rfl, runTransform_next.2 (.inl ⟨mt hregions.2 hbad, by rw [hlat, hbuild]⟩)⟩
  · refine ⟨_, hf inp, rfl, runTransform_next.2 (.inr ⟨hregions.1 hok, inp, ⟨by rw [hlen, hlat], fun k hk => ?_⟩,
      by rw [hlat, hbuild]⟩)⟩
    rw [← hlat, ← hsrc k (hlen ▸ hk)]
    exact hholds k hk

/-- Settles O26: both commands are transforms, which two such states complete alike. -/
theorem codecIsStateless : Obligations.CodecIsStateless := by
  intro i s1 s2 t1 hi hlat hbuild hsrc h
  obtain ⟨r, hlen, rfl, h2⟩ : ∃ r : Completion, r.out.length ≤ s1.lat.dstCap.toNat ∧ t1 = r.onto s1 ∧
      exec i s2 = .next (r.onto s2) := by
    obtain rfl | rfl := hi
    · rw [exec_encode_eq] at h ⊢
      exact runTransform_alike (encodeResult_out_length_le _ _) hlat hbuild hsrc h
    · rw [exec_decode_eq] at h ⊢
      exact runTransform_alike (decodeResult_out_length_le _ _) hlat hbuild hsrc h
  refine ⟨r.onto s2, h2, r.onto_eq s1 s1, r.onto_eq s2 s1, fun x => ?_, (r.onto_bounds s1 hlen).2,
    hlat ▸ (r.onto_bounds s2 (hlat ▸ hlen)).2⟩
  by_cases hx : s1.lat.dstAddr.toNat ≤ x ∧ x < s1.lat.dstAddr.toNat + r.out.length
  · obtain ⟨k, rfl⟩ := Nat.exists_eq_add_of_le hx.1
    have hk : k < r.out.length := by omega
    have hwritten2 := r.onto_holdsBytes s2 k hk
    rw [← hlat] at hwritten2
    exact .inr ((r.onto_holdsBytes s1 k hk).trans hwritten2.symm)
  · exact .inl ⟨(r.onto_bounds s1 le_rfl).2 x hx, (r.onto_bounds s2 le_rfl).2 x (hlat ▸ hx)⟩

end Sys2Proof.Machine
end

section
/-! The laws of the codec (spec/40_huffman.md R148, R150): how long streams and decoded bytes are, the decoder's walk
over codes, and the proofs of `Obligations.TransformsAreBounded` and `Obligations.EncodeDecodeRoundTrip`. -/

namespace Sys2Proof.Machine

/-! ### Lengths -/

/-- Padding to whole bytes takes at most 7 bits (R145). -/
theorem ceil8_padding (x : Nat) : x ≤ 8 * ceil8 x ∧ 8 * ceil8 x - x ≤ 7 := by
  unfold ceil8
  omega

/-- A header byte holds the padding count (R145). -/
theorem padding_toNat (x : Nat) : (BitVec.ofNat 8 (8 * ceil8 x - x)).toNat = 8 * ceil8 x - x := by
  have := (ceil8_padding x).2
  rw [BitVec.toNat_ofNat, Nat.mod_eq_of_lt (by omega)]

theorem ceil8_mono {x y : Nat} (h : x ≤ y) : ceil8 x ≤ ceil8 y :=
  (ceil8_spec x _).2 (h.trans ((ceil8_spec y _).1 le_rfl))

/-- The padded code bits fill their bytes (R146). -/
theorem length_padded (bits : List Bool) :
    (bits ++ List.replicate (8 * ceil8 bits.length - bits.length) false).length = 8 * ceil8 bits.length := by
  have := (ceil8_padding bits.length).1
  rw [List.length_append, List.length_replicate]
  omega

/-- A header and at most `ceil(B / 8)` bytes, and no more bytes than the input has where the raw escape is allowed
(R146). -/
theorem encodeStream_length (t : Tree) (raw : Bool) (inp : List Byte) :
    (encodeStream t raw inp).length ≤ 1 + ceil8 (inp.flatMap t.code).length ∧
      (raw = true → (encodeStream t raw inp).length ≤ inp.length + 1) := by
  unfold encodeStream
  dsimp only
  split
  · rw [List.length_cons]
    exact ⟨by omega, fun _ => le_rfl⟩
  · rename_i hcoded
    rw [List.length_cons, packBytes_length]
    refine ⟨by omega, fun hraw => ?_⟩
    have := mt (And.intro hraw) hcoded
    omega

theorem length_flatMap_code_le (t : Tree) (inp : List Byte) :
    (inp.flatMap t.code).length ≤ t.lMax * inp.length := by
  induction inp with
  | nil => exact Nat.zero_le _
  | cons x inp ih =>
    have := t.code_length_le_lMax x
    rw [List.flatMap_cons, List.length_append, List.length_cons, Nat.mul_succ]
    omega

/-- The walk decodes at most one byte a bit (R147, R150). -/
theorem walk_length_le_bits (t : Tree) (c : Nat) (bits : List Bool) (i : Nat) (node : Option Tree) (start : Nat)
    (out : List Byte) : (walk t c bits i node start out).1.length ≤ out.length + bits.length := by
  induction bits generalizing i node start out with
  | nil => cases node <;> exact le_rfl
  | cons b bits ih =>
    rw [walk, List.length_cons]
    split
    · split
      · exact Nat.le_add_right ..
      · refine (ih ..).trans ?_
        rw [List.length_append, List.length_singleton]
        omega
    · exact (ih ..).trans (by omega)

theorem meaningfulBits_length_le (h : Byte) (data : List Byte) : (meaningfulBits h data).length ≤ 8 * data.length := by
  rw [meaningfulBits, ← unpackBytes_length]
  exact List.length_take_le' ..

theorem decodeResult_cons_length_le (b : Build) (l : Operands) (h : Byte) (data : List Byte) :
    (decodeResult b l (h :: data)).out.length ≤ 8 * data.length ∧
      (h = 0xFF → (decodeResult b l (h :: data)).out.length ≤ data.length) := by
  obtain hout | ⟨-, hout⟩ | ⟨hraw, hout⟩ := decodeResult_out b l h data
  · simp [hout]
  · have := hout ▸ (rawResult_out_length_le l data).trans (min_le_left _ _)
    exact ⟨by omega, fun _ => this⟩
  · refine ⟨?_, fun h => absurd h hraw⟩
    rw [hout, decodeCoded]
    exact (walk_length_le_bits ..).trans ((Nat.zero_add _).trans_le (meaningfulBits_length_le h data))

/-- A bound on the bytes a transform writes bounds what its command reports and writes. -/
theorem runTransform_bounds {f : Build → Operands → List Byte → Completion} {s t : State} {inp : List Byte} {n : Nat}
    (h : runTransform f s = .next t) (hsrc : s.SourceIs inp) (hf : (f s.build s.lat inp).out.length ≤ n) :
    t.res.len.toNat ≤ n ∧ SameOutside s t s.lat.dstAddr.toNat n := by
  obtain ⟨-, rfl⟩ | ⟨-, inp', hsrc', rfl⟩ := runTransform_next.1 h
  · exact Completion.onto_bounds s (by simp)
  · obtain rfl := sourceIs_unique hsrc hsrc'
    exact Completion.onto_bounds s hf

theorem encodeResult_out_length_le_stream (b : Build) (l : Operands) (inp : List Byte) :
    (encodeResult b l inp).out.length ≤ (encodeStream (buildTree b.freq) b.encRawFallback inp).length := by
  unfold encodeResult
  split
  · exact Nat.zero_le _
  · exact le_rfl

/-- Settles O25: the bounds on what the two transforms write. -/
theorem transformsAreBounded : Obligations.TransformsAreBounded := by
  constructor
  · intro s t inp hsrc h
    rw [exec_encode_eq] at h
    obtain ⟨hcoded, hraw⟩ := encodeStream_length (buildTree s.build.freq) s.build.encRawFallback inp
    have hout := encodeResult_out_length_le_stream s.build s.lat inp
    have hcodes := ceil8_mono (length_flatMap_code_le (buildTree s.build.freq) inp)
    obtain ⟨hlen, hsame⟩ := runTransform_bounds h hsrc (hout.trans (hcoded.trans (Nat.add_le_add_left hcodes 1)))
    exact ⟨hlen, hsame, fun hfallback => runTransform_bounds h hsrc (hout.trans (hraw hfallback))⟩
  · intro s t hd data hsrc h
    rw [exec_decode_eq] at h
    obtain ⟨hcoded, hraw⟩ := decodeResult_cons_length_le s.build s.lat hd data
    obtain ⟨hlen, hsame⟩ := runTransform_bounds h hsrc hcoded
    exact ⟨hlen, hsame, meaningfulBits_length_le hd data, fun hff => runTransform_bounds h hsrc (hraw hff)⟩

/-! ### The walk over codes -/

/-- A path that begins with `b` goes on from the child of `b` (R142). -/
theorem Tree.path?_child {t : Tree} {x : Byte} {b : Bool} {p : List Bool} (h : t.path? x = some (b :: p)) :
    (t.child b).path? x = some p := by
  cases t with
  | leaf s => simp at h
  | node l r =>
    obtain ⟨p', hp', he⟩ | ⟨p', hp', he⟩ := Tree.path?_node h
    all_goals
      obtain ⟨rfl, rfl⟩ := List.cons.inj he
      exact hp'

/-- The walk over the rest of a code, from a node inside it, decodes the code's byte if there is room (R147). -/
theorem walk_path {t : Tree} {c : Nat} {x : Byte} {b : Bool} {p rest : List Bool} {i start : Nat} {node : Option Tree}
    {out : List Byte} (hpath : (node.getD t).path? x = some (b :: p)) (hroom : out.length ≠ c) :
    walk t c (b :: p ++ rest) i node start out =
      walk t c rest (i + (p.length + 1)) none (i + (p.length + 1)) (out ++ [x]) := by
  induction p generalizing b i node with
  | nil =>
    have hleaf := Tree.follow_path hpath
    simp only [Tree.follow] at hleaf
    simp [walk, hleaf, hroom]
  | cons b' p ih =>
    have hchild := Tree.path?_child hpath
    match hnode : (node.getD t).child b with
    | .leaf s => simp [hnode] at hchild
    | .node l r =>
      rw [List.cons_append, walk, hnode]
      rw [hnode] at hchild
      refine (ih (node := some (.node l r)) hchild).trans ?_
      simp only [List.length_cons, Nat.add_assoc, Nat.add_comm 1]

/-- The walk over codes decodes their bytes (R148). -/
theorem walk_codes (freq : Vector Nat 256) {c : Nat} (bs : List Byte) {i : Nat} {out : List Byte}
    (hroom : out.length + bs.length ≤ c) :
    walk (buildTree freq) c (bs.flatMap (buildTree freq).code) i none i out = (out ++ bs, .complete) := by
  induction bs generalizing i out with
  | nil => simp [walk]
  | cons x bs ih =>
    rw [List.length_cons] at hroom
    have hpath := buildTree_path? freq x
    obtain ⟨b, p, hcode⟩ := List.exists_cons_of_ne_nil (code_ne_nil freq x)
    rw [hcode] at hpath
    have hfree : out.length ≠ c := by omega
    rw [List.flatMap_cons, hcode, walk_path (t := buildTree freq) (node := none) hpath hfree, ih (by simp; omega),
      List.append_assoc]
    rfl

/-! ### Round trip -/

/-- The meaningful bits of packed, zero-padded bits are the bits (R145, R146). -/
theorem meaningfulBits_packBytes (bits : List Bool) :
    meaningfulBits (BitVec.ofNat 8 (8 * ceil8 bits.length - bits.length))
      (packBytes (ceil8 bits.length) (bits ++ List.replicate (8 * ceil8 bits.length - bits.length) false)) = bits := by
  rw [meaningfulBits, unpackBytes_packBytes (length_padded bits), packBytes_length, padding_toNat,
    Nat.sub_sub_self (ceil8_padding bits.length).1, List.take_left]

/-- `DECODE`'s transform undoes `ENCODE`'s where there is room (R148). -/
theorem decodeResult_encodeStream (b : Build) {l : Operands} {bs : List Byte} (raw : Bool)
    (hroom : bs.length ≤ l.dstCap.toNat) :
    decodeResult b l (encodeStream (buildTree b.freq) raw bs) = .success bs l.dstAddr := by
  unfold encodeStream
  dsimp only
  split
  · rw [decodeResult, if_pos rfl, rawResult, if_neg (by omega)]
  · have hbits := meaningfulBits_packBytes (bs.flatMap (buildTree b.freq).code)
    generalize (bs.flatMap (buildTree b.freq).code).length = n at hbits ⊢
    have hpad := (ceil8_padding n).2
    have hp := padding_toNat n
    have hcoded : BitVec.ofNat 8 (8 * ceil8 n - n) ≠ rawHeader := fun h => by
      rw [h] at hp
      exact absurd (hp ▸ hpad) (by decide)
    rw [decodeResult, if_neg hcoded, if_neg (by omega), if_neg ?_, decodeCoded, hbits,
      walk_codes b.freq bs (by simpa using hroom)]
    · rfl
    · rintro ⟨hempty, hne⟩
      have hm : ceil8 n = 0 := by simpa using congrArg List.length hempty
      exact hne (by rw [hm]; simp)

/-- A count that a register value bounds fits a register (R5). -/
theorem toNat_ofNat_of_le {n : Nat} {w : Word} (h : n ≤ w.toNat) : (BitVec.ofNat 32 n).toNat = n :=
  (BitVec.toNat_ofNat ..).trans (Nat.mod_eq_of_lt (h.trans_lt w.isLt))

theorem bytesOf_length {s : State} {a : Nat} {bs : List Byte} (h : s.HoldsBytes a bs) : s.bytesOf a bs.length = bs :=
  List.ext_getElem (by simp [State.bytesOf]) fun k _ hk => by simp [State.bytesOf, h k hk]

/-- A success of `ENCODE` leaves its stream at the place it reports (R146). -/
theorem exec_encode_success {s t : State} {b : List Byte} (hsrc : s.SourceIs b) (h : exec .encode s = .next t)
    (hok : t.status.err = false) :
    t.bytesOf t.res.addr.toNat t.res.len.toNat =
      encodeStream (buildTree s.build.freq) s.build.encRawFallback b := by
  obtain ⟨e, sub, rfl, -⟩ | ⟨inp, out, -, hinp, rfl, ⟨-, rfl⟩ | ⟨hlen, rfl⟩⟩ := execEncode_next h
  · simp at hok
  · simp at hok
  · obtain rfl := sourceIs_unique hsrc hinp
    exact (congrArg _ (toNat_ofNat_of_le hlen)).trans (bytesOf_length (holdsBytes_written s _ _))

/-- Settles O24: `DECODE`'s transform of the stream that `ENCODE` left gives the source bytes back. -/
theorem encodeDecodeRoundTrip : Obligations.EncodeDecodeRoundTrip := by
  intro s t u b hsrc henc hok hfreq hregions hstream hroom
  rw [exec_encode_success hsrc henc hok, ← hfreq] at hstream
  have hdec := (runTransform_next (f := decodeResult)).2 (.inr ⟨hregions, _, hstream, rfl⟩)
  rw [← exec_decode_eq, decodeResult_encodeStream u.build _ hroom] at hdec
  exact ⟨_, hdec, rfl, rfl, toNat_ofNat_of_le hroom, Completion.onto_holdsBytes _ u,
    (Completion.onto_bounds u le_rfl).2⟩

end Sys2Proof.Machine
end

section
/-! The frame commands one by one (spec/45_framer.md R201 to R205, R210): what appending to the open frame does, and the
proofs of `Obligations.FbBeginOpensAFrame`, `Obligations.FbOpcodeAppendsItsByte`, `Obligations.FbRawAppendsTheSource`,
`Obligations.FbTextAppendsTheSource`, `Obligations.FbEndClosesTheFrame` and `Obligations.FrameParseSplitsTheFrame`. -/

namespace Sys2Proof.Machine

/-! ### Appending to the frame -/

/-- The state after a success completion that appended `bs` to the open frame (R202, R203). -/
def State.appended (s : State) (bs : List Byte) : State :=
  { successResult s s.frame.base (BitVec.ofNat 32 (s.frame.cur.toNat + bs.length)) with
    buf := s.buf.writeList (s.frame.base.toNat + s.frame.cur.toNat) bs
    frame := { s.frame with cur := BitVec.ofNat 32 (s.frame.cur.toNat + bs.length) } }

theorem State.appended_holdsBytes (s : State) (bs : List Byte) :
    (s.appended bs).HoldsBytes (s.frame.base.toNat + s.frame.cur.toNat) bs := holdsBytes_written s _ bs

theorem State.appended_sameOutside (s : State) (bs : List Byte) :
    SameOutside s (s.appended bs) (s.frame.base.toNat + s.frame.cur.toNat) bs.length := sameOutside_written s _ bs

/-- Whatever `appendBytes` answers is the appended state. -/
theorem appendBytes_next_eq {s t : State} {bs : List Byte} (h : appendBytes s bs = .next t) : t = s.appended bs :=
  ((appendBytes_next s t bs).1 h).2

/-- With room in a frame that lies in the buffer, appending does not fault (R46, R82). -/
theorem appendBytes_of_room {s : State} {bs : List Byte} (hroom : s.frame.cur.toNat + bs.length ≤ s.frame.cap.toNat)
    (hregion : s.frame.base.toNat + s.frame.cap.toNat ≤ s.build.bufBytes) :
    appendBytes s bs = .next (s.appended bs) := by
  have hrange : InRange s.build (s.frame.base.toNat + s.frame.cur.toNat) bs.length := by omega
  exact (appendBytes_next s _ bs).2 ⟨.inr hrange, rfl⟩

/-! ### `FB_OPCODE` -/

theorem execFbOpcode_of_room {s : State} (imm : Byte) (hopen : s.status.frameOpen = true)
    (hroom : s.frame.cur.toNat + 1 ≤ s.frame.cap.toNat)
    (hregion : s.frame.base.toNat + s.frame.cap.toNat ≤ s.build.bufBytes) :
    exec (.fbOpcode imm) s = .next (s.appended [imm]) := by
  simp only [exec, execFbOpcode, hopen, not_true, if_false, if_neg (not_lt.2 hroom)]
  exact appendBytes_of_room hroom hregion

/-- Settles O28: the two errors, and the immediate appended where the frame has room. -/
theorem fbOpcodeAppendsItsByte : Obligations.FbOpcodeAppendsItsByte := by
  refine fun s imm => ⟨fun hclosed => ?_, fun hopen hfull => ?_, fun hopen hroom hregion => ?_⟩
  · exact if_pos (by simp [hclosed])
  · simp only [exec, execFbOpcode, hopen, not_true, if_false, if_pos hfull]
    rfl
  · exact ⟨s.appended [imm], execFbOpcode_of_room imm hopen hroom hregion, rfl,
      s.appended_holdsBytes [imm] 0 Nat.one_pos, s.appended_sameOutside [imm]⟩

/-! ### `FB_RAW` and `FB_TEXT` -/

/-- A written source that passes the checks is read and appended (R203). -/
theorem appendSource_of_room {s : State} {bs : List Byte} (hopen : s.status.frameOpen = true)
    (hrange : InRange s.build s.lat.srcAddr.toNat s.lat.srcLen.toNat)
    (hapart : ¬ Overlap s.lat.srcAddr.toNat s.lat.srcLen.toNat s.frame.base.toNat s.frame.cap.toNat)
    (hroom : s.frame.cur.toNat + s.lat.srcLen.toNat ≤ s.frame.cap.toNat)
    (hregion : s.frame.base.toNat + s.frame.cap.toNat ≤ s.build.bufBytes) (hsrc : s.SourceIs bs) :
    appendSource s = .next (s.appended bs) := by
  have hread : s.readBytes s.lat.srcAddr.toNat s.lat.srcLen.toNat = .ok bs :=
    (readBytes_ok ..).2 ⟨hsrc.1, .inr hrange, hsrc.2⟩
  simp only [appendSource, hopen, hrange, not_true, if_false, if_neg hapart, if_neg (not_lt.2 hroom), hread, orFault]
  exact appendBytes_of_room (hsrc.1 ▸ hroom) hregion

/-- Settles O29: each error with the checks before it passed, and the source appended where all pass. -/
theorem fbRawAppendsTheSource : Obligations.FbRawAppendsTheSource := by
  refine fun s => ⟨fun hclosed => ?_, fun hopen hrange => ?_, fun hopen hrange hover => ?_,
    fun hopen hrange hapart hfull => ?_, fun bs hopen hrange hapart hroom hregion hsrc => ?_⟩
  · exact if_pos (by simp [hclosed])
  · simp only [exec, execFbRaw, appendSource, hopen, not_true, if_false, if_pos hrange]
    rfl
  · simp only [exec, execFbRaw, appendSource, hopen, hrange, not_true, if_false, if_pos hover]
    rfl
  · simp only [exec, execFbRaw, appendSource, hopen, hrange, not_true, if_false, if_neg hapart, if_pos hfull]
    rfl
  · exact ⟨s.appended bs, appendSource_of_room hopen hrange hapart hroom hregion hsrc, rfl, s.appended_holdsBytes bs,
      s.appended_sameOutside bs⟩

/-- `FB_TEXT` has `FB_RAW`'s meaning (R204). -/
theorem exec_fbText (s : State) : exec .fbText s = exec .fbRaw s := rfl

/-- Settles O30: `FB_TEXT` does what `FB_RAW` does. -/
theorem fbTextAppendsTheSource : Obligations.FbTextAppendsTheSource := by
  intro s
  rw [exec_fbText]
  exact fbRawAppendsTheSource s

/-! ### `FB_BEGIN`, `FB_END` and `FRAME_PARSE` -/

/-- Settles O27: the two sides of the range check. -/
theorem fbBeginOpensAFrame : Obligations.FbBeginOpensAFrame :=
  fun _ => ⟨fun hrange => if_pos hrange, fun hrange => if_neg hrange⟩

/-- Settles O31: the two sides of the check for an open frame. -/
theorem fbEndClosesTheFrame : Obligations.FbEndClosesTheFrame :=
  fun _ => ⟨fun hclosed => if_pos (by simp [hclosed]), fun hopen => if_neg (by simp [hopen])⟩

/-- Settles O32: the two errors, and past them the one cell that is read, which the range check covers. -/
theorem frameParseSplitsTheFrame : Obligations.FrameParseSplitsTheFrame := by
  refine fun s => ⟨fun hrange => if_pos hrange, fun hrange hempty => ?_, fun op hrange hne hop => ?_⟩
  · have hzero : s.lat.srcLen.toNat = 0 := by simp [hempty]
    simp only [exec, execFrameParse, if_neg (not_not_intro hrange), if_pos hzero]
    rfl
  · have hpos : s.lat.srcLen.toNat ≠ 0 := fun h => hne (BitVec.eq_of_toNat_eq h)
    have hcell : s.readCell s.lat.srcAddr.toNat = .ok op := (readCell_ok ..).2 ⟨by omega, hop⟩
    simp only [exec, execFrameParse, if_neg (not_not_intro hrange), if_neg hpos, hcell]
    rfl

end Sys2Proof.Machine
end

section
/-! Frames built field by field (spec/45_framer.md R207, R212): the state of a frame being built, what each command of
`buildOutgoing` needs and adds, and the proofs of `Obligations.BuildOutgoingConcatenates` and
`Obligations.FramingRoundTrip`. -/

namespace Sys2Proof.Machine

/-! ### Runs of succeeding commands -/

/-- The command completes with success, and leaves `t`. -/
abbrev Succeeds (i : Instr) (o : Operands) (s t : State) : Prop := runWith i o s = .next t ∧ t.status.err = false

@[simp] theorem runSucceeding_nil (s : State) : runSucceeding [] s = some s := rfl

theorem runSucceeding_cons {i : Instr} {o : Operands} {rest : List (Instr × Operands)} {s t : State} :
    runSucceeding ((i, o) :: rest) s = some t ↔ ∃ u, Succeeds i o s u ∧ runSucceeding rest u = some t := by
  rw [runSucceeding]
  cases hrun : runWith i o s with
  | next u => cases herr : u.status.err <;> simp [Succeeds, hrun, herr]
  | fault f => simp [Succeeds, hrun]
  | refused r => simp [Succeeds, hrun]

theorem runSucceeding_append {l l' : List (Instr × Operands)} {s t : State} :
    runSucceeding (l ++ l') s = some t ↔ ∃ u, runSucceeding l s = some u ∧ runSucceeding l' u = some t := by
  induction l generalizing s with
  | nil => simp
  | cons c l ih =>
    obtain ⟨i, o⟩ := c
    simp only [List.cons_append, runSucceeding_cons, ih]
    exact ⟨fun ⟨v, hv, u, hu, ht⟩ => ⟨u, ⟨v, hv, hu⟩, ht⟩, fun ⟨u, ⟨v, hv, hu⟩, ht⟩ => ⟨v, hv, u, hu, ht⟩⟩

/-! ### When a frame command succeeds -/

theorem fbBegin_succeeds {o : Operands} {s t : State} :
    Succeeds .fbBegin o s t ↔ InRange s.build o.dstAddr.toNat o.dstCap.toNat ∧
      t = { s with
        lat := o
        frame := { base := o.dstAddr, cap := o.dstCap, cur := 0 }
        status := { successStatus s.status with frameOpen := true }
        res := { addr := o.dstAddr, len := 0, opcode := s.res.opcode, errInfo := 0 } } := by
  obtain ⟨hok, hbad⟩ := fbBeginOpensAFrame { s with lat := o }
  by_cases hrange : InRange s.build o.dstAddr.toNat o.dstCap.toNat
  · rw [Succeeds, runWith, hok hrange, and_iff_right hrange, Host.Outcome.next.injEq, eq_comm, and_iff_left_of_imp]
    rintro rfl
    rfl
  · rw [Succeeds, runWith, hbad hrange, Host.Outcome.next.injEq]
    refine iff_of_false ?_ fun h => hrange h.1
    rintro ⟨rfl, herr⟩
    simp [errorResult] at herr

/-- While the frame lies in the buffer, `FB_OPCODE` succeeds where one more byte fits (R202). -/
theorem execFbOpcode_succeeds {s t : State} {imm : Byte}
    (hregion : s.frame.base.toNat + s.frame.cap.toNat ≤ s.build.bufBytes) (hopen : s.status.frameOpen = true) :
    exec (.fbOpcode imm) s = .next t ∧ t.status.err = false ↔
      s.frame.cur.toNat + 1 ≤ s.frame.cap.toNat ∧ t = s.appended [imm] := by
  constructor
  · rintro ⟨h, herr⟩
    obtain ⟨-, rfl⟩ | ⟨-, e, sub, info, rfl, -⟩ | ⟨-, hroom, happend⟩ := execFbOpcode_next h
    · simp at herr
    · simp at herr
    · exact ⟨hroom, appendBytes_next_eq happend⟩
  · rintro ⟨hroom, rfl⟩
    exact ⟨execFbOpcode_of_room imm hopen hroom hregion, rfl⟩

/-- While the frame lies in the buffer, `FB_RAW` and `FB_TEXT` succeed where the source is written, in range, apart
from the frame region and no longer than the room left (R203, R204). -/
theorem appendSource_succeeds {s t : State}
    (hregion : s.frame.base.toNat + s.frame.cap.toNat ≤ s.build.bufBytes) (hopen : s.status.frameOpen = true) :
    appendSource s = .next t ∧ t.status.err = false ↔
      ∃ bs, s.SourceIs bs ∧ InRange s.build s.lat.srcAddr.toNat s.lat.srcLen.toNat ∧
        ¬ Overlap s.lat.srcAddr.toNat s.lat.srcLen.toNat s.frame.base.toNat s.frame.cap.toNat ∧
        s.frame.cur.toNat + s.lat.srcLen.toNat ≤ s.frame.cap.toNat ∧ t = s.appended bs := by
  constructor
  · rintro ⟨h, herr⟩
    obtain ⟨-, rfl⟩ | ⟨-, e, sub, info, rfl, -⟩ | ⟨-, bs, hsrc, hrange, hapart, hroom, happend⟩ := appendSource_next h
    · simp at herr
    · simp at herr
    · exact ⟨bs, hsrc, hrange, hapart, hsrc.1 ▸ hroom, appendBytes_next_eq happend⟩
  · rintro ⟨bs, hsrc, hrange, hapart, hroom, rfl⟩
    exact ⟨appendSource_of_room hopen hrange hapart hroom hregion hsrc, rfl⟩

@[simp] theorem State.bytesOf_length (s : State) (a n : Nat) : (s.bytesOf a n).length = n := by
  simp [State.bytesOf]

theorem holdsBytes_bytesOf {s : State} {a n : Nat} (h : ∀ k, k < n → (s.buf.read? (a + k)).isSome = true) :
    s.HoldsBytes a (s.bytesOf a n) := by
  intro k hk
  obtain ⟨b, hb⟩ := Option.isSome_iff_exists.1 (h k (by simpa using hk))
  simp [State.bytesOf, hb]

/-- A source region holds bytes exactly when it is written, and then those that `State.bytesOf` reads. -/
theorem sourceIs_iff_bytesOf {s : State} {bs : List Byte} :
    s.SourceIs bs ↔
      (∀ k, k < s.lat.srcLen.toNat → (s.buf.read? (s.lat.srcAddr.toNat + k)).isSome = true) ∧
        bs = s.bytesOf s.lat.srcAddr.toNat s.lat.srcLen.toNat := by
  constructor
  · rintro ⟨hlen, hholds⟩
    exact ⟨fun k hk => by rw [hholds k (hlen ▸ hk)]; rfl, by rw [← hlen, bytesOf_length hholds]⟩
  · rintro ⟨hwritten, rfl⟩
    exact ⟨s.bytesOf_length _ _, holdsBytes_bytesOf hwritten⟩

/-! ### A frame being built -/

/-- `u` is a state on the way from `s` in which a frame over `d, c` is open and holds `bs`, and no cell after these was
written (R46, R207). -/
structure Building (s : State) (d c : Word) (bs : List Byte) (u : State) : Prop where
  build : u.build = s.build
  isOpen : u.status.frameOpen = true
  base : u.frame.base = d
  cap : u.frame.cap = c
  cur : u.frame.cur.toNat = bs.length
  fits : bs.length ≤ c.toNat
  region : InRange s.build d.toNat c.toNat
  holds : u.HoldsBytes d.toNat bs
  same : SameOutside s u d.toNat bs.length

/-- `FB_BEGIN` begins the building. -/
theorem Building.of_fbBegin {o : Operands} {s u : State} (h : Succeeds .fbBegin o s u) :
    Building s o.dstAddr o.dstCap [] u := by
  obtain ⟨hrange, rfl⟩ := fbBegin_succeeds.1 h
  exact ⟨rfl, rfl, rfl, rfl, rfl, Nat.zero_le _, hrange, fun k hk => absurd hk (Nat.not_lt_zero k), fun _ _ => rfl⟩

section

variable {s u : State} {d c : Word} {bs : List Byte} (h : Building s d c bs u)
include h

theorem Building.frame_in_buffer : u.frame.base.toNat + u.frame.cap.toNat ≤ u.build.bufBytes := by
  rw [h.base, h.cap, h.build]
  exact h.region

/-- Appending bytes that fit goes on with the building, whatever operands were latched meanwhile. -/
theorem Building.append (o : Operands) {new : List Byte} (hfits : bs.length + new.length ≤ c.toNat) :
    Building s d c (bs ++ new) (State.appended { u with lat := o } new) := by
  have hlen : (bs ++ new).length = bs.length + new.length := List.length_append
  have hholds : (State.appended { u with lat := o } new).HoldsBytes (u.frame.base.toNat + u.frame.cur.toNat) new :=
    State.appended_holdsBytes _ new
  have hsame : SameOutside u (State.appended { u with lat := o } new) (u.frame.base.toNat + u.frame.cur.toNat)
      new.length := State.appended_sameOutside { u with lat := o } new
  rw [h.base, h.cur] at hholds hsame
  refine ⟨h.build, h.isOpen, h.base, h.cap, ?_, hlen ▸ hfits, h.region, fun k hk => ?_, fun x hx => ?_⟩
  · exact (congrArg (fun n => (BitVec.ofNat 32 (n + new.length)).toNat) h.cur).trans
      ((toNat_ofNat_of_le hfits).trans hlen.symm)
  · by_cases hold : k < bs.length
    · rw [List.getElem_append_left hold, ← h.holds k hold]
      exact hsame _ (by omega)
    · obtain ⟨j, rfl⟩ := Nat.exists_eq_add_of_le (not_lt.1 hold)
      have hj : j < new.length := by omega
      rw [List.getElem_append_right (Nat.le_add_right ..), ← Nat.add_assoc, hholds _ (by omega)]
      simp
  · rw [hlen] at hx
    exact (hsame x (by omega)).trans (h.same x (by omega))

/-- A source apart from the frame region still reads as it did at the beginning. -/
theorem Building.read?_source {a n : Nat} (hapart : ¬ Overlap a n d.toNat c.toNat) {k : Nat} (hk : k < n) :
    u.buf.read? (a + k) = s.buf.read? (a + k) := by
  have := h.fits
  exact h.same _ (by omega)

theorem Building.bytesOf_source {a n : Nat} (hapart : ¬ Overlap a n d.toNat c.toNat) :
    u.bytesOf a n = s.bytesOf a n :=
  List.map_congr_left fun k hk => by rw [h.read?_source hapart (List.mem_range.1 hk)]

/-- When a source field's command succeeds, by what `s` holds (R207). -/
theorem Building.appendSource_iff {o : Operands} {v : State} :
    appendSource { u with lat := o } = .next v ∧ v.status.err = false ↔
      (∀ k, k < o.srcLen.toNat → (s.buf.read? (o.srcAddr.toNat + k)).isSome = true) ∧
      (InRange s.build o.srcAddr.toNat o.srcLen.toNat ∧
        ¬ Overlap o.srcAddr.toNat o.srcLen.toNat d.toNat c.toNat) ∧
      bs.length + o.srcLen.toNat ≤ c.toNat ∧
      v = State.appended { u with lat := o } (s.bytesOf o.srcAddr.toNat o.srcLen.toNat) := by
  rw [appendSource_succeeds (s := { u with lat := o }) h.frame_in_buffer h.isOpen]
  simp only [sourceIs_iff_bytesOf, h.base, h.cap, h.cur, h.build]
  constructor
  · rintro ⟨-, ⟨hwritten, rfl⟩, hrange, hapart, hfits, rfl⟩
    refine ⟨fun k hk => ?_, ⟨hrange, hapart⟩, hfits, congrArg _ (h.bytesOf_source hapart)⟩
    rw [← h.read?_source hapart hk]
    exact hwritten k hk
  · rintro ⟨hwritten, ⟨hrange, hapart⟩, hfits, rfl⟩
    refine ⟨_, ⟨fun k hk => ?_, (h.bytesOf_source hapart).symm⟩, hrange, hapart, hfits, rfl⟩
    rw [h.read?_source hapart hk]
    exact hwritten k hk

end

/-! ### The fields -/

/-- A field's command with the operands it is issued with (R207). -/
def FieldSource.issued (d c : Word) (f : FieldSource) : Instr × Operands :=
  (f.command, { srcAddr := f.region.1, srcLen := f.region.2, dstAddr := d, dstCap := c })

@[simp] theorem FieldSource.bytes_length (s : State) (f : FieldSource) : (f.bytes s).length = f.size := by
  cases f <;> simp [FieldSource.bytes, FieldSource.size]

theorem FieldSource.flatMap_bytes_length (s : State) (fs : List FieldSource) :
    (fs.flatMap (FieldSource.bytes s)).length = (fs.map FieldSource.size).sum := by
  simp [List.length_flatMap]

/-- A field's command succeeds exactly when its source is written and fits, and its bytes fit the room left; it then
appends them (R207). -/
theorem Building.field_iff {s u v : State} {d c : Word} {bs : List Byte} (h : Building s d c bs u) (f : FieldSource) :
    Succeeds (f.issued d c).1 (f.issued d c).2 u v ↔
      f.Written s ∧ f.Fits s.build d.toNat c.toNat ∧ bs.length + f.size ≤ c.toNat ∧
        v = State.appended { u with lat := (f.issued d c).2 } (f.bytes s) := by
  cases f with
  | opcode o =>
    have hwritten : (FieldSource.opcode o).Written s := fun k hk => absurd hk (Nat.not_lt_zero k)
    have hfits : (FieldSource.opcode o).Fits s.build d.toNat c.toNat :=
      ⟨Nat.zero_le _, fun hover => absurd hover.1 (Nat.lt_irrefl 0)⟩
    rw [and_iff_right hwritten, and_iff_right hfits, ← h.cur, ← h.cap]
    exact execFbOpcode_succeeds (s := { u with lat := _ }) h.frame_in_buffer h.isOpen
  | raw a n => exact h.appendSource_iff
  | text a n => exact h.appendSource_iff

/-- The fields' commands, if they all succeed, had what they need and appended all their bytes (R207). -/
theorem Building.of_fields {s u v : State} {d c : Word} {bs : List Byte} {fs : List FieldSource}
    (h : Building s d c bs u) (hrun : runSucceeding (fs.map (FieldSource.issued d c)) u = some v) :
    (∀ f ∈ fs, f.Written s ∧ f.Fits s.build d.toNat c.toNat) ∧
      Building s d c (bs ++ fs.flatMap (FieldSource.bytes s)) v := by
  induction fs generalizing bs u with
  | nil =>
    obtain rfl : u = v := by simpa using hrun
    simpa using h
  | cons f fs ih =>
    obtain ⟨w, hw, hrest⟩ := runSucceeding_cons.1 hrun
    obtain ⟨hwritten, hfits, hroom, rfl⟩ := (h.field_iff f).1 hw
    obtain ⟨hall, hbuilt⟩ := ih (h.append _ (by simpa using hroom)) hrest
    refine ⟨List.forall_mem_cons.2 ⟨⟨hwritten, hfits⟩, hall⟩, ?_⟩
    rwa [List.flatMap_cons, ← List.append_assoc]

/-- The fields' commands all succeed where they have what they need (R207). -/
theorem Building.fields_succeed {s u : State} {d c : Word} {bs : List Byte} {fs : List FieldSource}
    (h : Building s d c bs u) (hwritten : ∀ f ∈ fs, f.Written s)
    (hfits : ∀ f ∈ fs, f.Fits s.build d.toNat c.toNat)
    (hroom : bs.length + (fs.map FieldSource.size).sum ≤ c.toNat) :
    ∃ v, runSucceeding (fs.map (FieldSource.issued d c)) u = some v := by
  induction fs generalizing bs u with
  | nil => exact ⟨u, rfl⟩
  | cons f fs ih =>
    obtain ⟨hwf, hws⟩ := List.forall_mem_cons.1 hwritten
    obtain ⟨hff, hfs⟩ := List.forall_mem_cons.1 hfits
    rw [List.map_cons, List.sum_cons] at hroom
    have hfirst : bs.length + f.size ≤ c.toNat := by omega
    have happend := h.append (f.issued d c).2 (new := f.bytes s) (by simpa using hfirst)
    obtain ⟨v, hv⟩ := ih happend hws hfs (by simp; omega)
    exact ⟨v, runSucceeding_cons.2 ⟨_, (h.field_iff f).2 ⟨hwf, hff, hfirst, rfl⟩, hv⟩⟩

/-! ### The whole frame -/

theorem Building.fbEnd_succeeds {s u : State} {d c : Word} {bs : List Byte} (h : Building s d c bs u) (o : Operands)
    {t : State} :
    Succeeds .fbEnd o u t ↔
      t = { u with
        lat := o
        status := { successStatus u.status with frameOpen := false }
        res := { addr := d, len := u.frame.cur, opcode := u.res.opcode, errInfo := 0 } } := by
  rw [Succeeds, runWith, (fbEndClosesTheFrame { u with lat := o }).2 h.isOpen, Host.Outcome.next.injEq, h.base,
    eq_comm, and_iff_left_of_imp]
  rintro rfl
  rfl

/-- What the command sequence of `buildOutgoing` leaves: the frame at the place it reports, no other cell changed, and
the build as it was (R207). -/
structure FrameBuilt (s : State) (d : Word) (bs : List Byte) (t : State) : Prop where
  build : t.build = s.build
  addr : t.res.addr = d
  len : t.res.len.toNat = bs.length
  holds : t.HoldsBytes d.toNat bs
  same : SameOutside s t d.toNat bs.length

theorem runSucceeding_frameCommands {s t : State} {d c : Word} {fs : List FieldSource} :
    runSucceeding (frameCommands d c fs) s = some t ↔
      ∃ u v, Succeeds .fbBegin ⟨0, 0, d, c⟩ s u ∧ runSucceeding (fs.map (FieldSource.issued d c)) u = some v ∧
        Succeeds .fbEnd ⟨0, 0, d, c⟩ v t := by
  simp only [frameCommands, List.cons_append, runSucceeding_cons, runSucceeding_append, runSucceeding_nil,
    Option.some.injEq, exists_eq_right]
  exact ⟨fun ⟨u, hu, v, hv, ht⟩ => ⟨u, v, hu, hv, ht⟩, fun ⟨u, v, hu, hv, ht⟩ => ⟨u, hu, v, hv, ht⟩⟩

/-- A frame that is built with success met every condition of R207, its sources were written, and it holds the fields'
bytes. -/
theorem frameBuilt_of_run {s t : State} {d c : Word} {fs : List FieldSource}
    (hrun : runSucceeding (frameCommands d c fs) s = some t) :
    InRange s.build d.toNat c.toNat ∧ (∀ f ∈ fs, f.Written s ∧ f.Fits s.build d.toNat c.toNat) ∧
      (fs.map FieldSource.size).sum ≤ c.toNat ∧ FrameBuilt s d (fs.flatMap (FieldSource.bytes s)) t := by
  obtain ⟨u, v, hbegin, hfields, hend⟩ := runSucceeding_frameCommands.1 hrun
  obtain ⟨hall, hbuilt⟩ := (Building.of_fbBegin hbegin).of_fields hfields
  obtain rfl := (hbuilt.fbEnd_succeeds _).1 hend
  rw [List.nil_append] at hbuilt
  refine ⟨hbuilt.region, hall, ?_, hbuilt.build, rfl, hbuilt.cur, hbuilt.holds, hbuilt.same⟩
  rw [← FieldSource.flatMap_bytes_length s]
  exact hbuilt.fits

/-- With the conditions of R207 met and the sources written, every command of the frame succeeds. -/
theorem frameCommands_succeed {s : State} {d c : Word} {fs : List FieldSource} (hwritten : ∀ f ∈ fs, f.Written s)
    (hrange : InRange s.build d.toNat c.toNat) (hfits : ∀ f ∈ fs, f.Fits s.build d.toNat c.toNat)
    (hroom : (fs.map FieldSource.size).sum ≤ c.toNat) : ∃ t, runSucceeding (frameCommands d c fs) s = some t := by
  have hbegin := (fbBegin_succeeds (o := ⟨0, 0, d, c⟩)).2 ⟨hrange, rfl⟩
  have hopened := Building.of_fbBegin hbegin
  obtain ⟨v, hv⟩ := hopened.fields_succeed hwritten hfits (by simpa using hroom)
  obtain ⟨-, hbuilt⟩ := hopened.of_fields hv
  exact ⟨_, runSucceeding_frameCommands.2 ⟨_, v, hbegin, hv, (hbuilt.fbEnd_succeeds _).2 rfl⟩⟩

/-- Settles O34: by induction on the fields, each appending its bytes to the frame being built. -/
theorem buildOutgoingConcatenates : Obligations.BuildOutgoingConcatenates := by
  refine fun s d c fs hwritten => ⟨⟨?_, ?_⟩, fun t hrun => ?_⟩
  · rintro ⟨t, hrun⟩
    obtain ⟨hrange, hall, hroom, -⟩ := frameBuilt_of_run hrun
    exact ⟨hrange, fun f hf => (hall f hf).2, hroom⟩
  · rintro ⟨hrange, hfits, hroom⟩
    exact frameCommands_succeed hwritten hrange hfits hroom
  · obtain ⟨-, -, -, hbuilt⟩ := frameBuilt_of_run hrun
    exact ⟨hbuilt.addr, hbuilt.len, hbuilt.holds, hbuilt.same⟩

/-! ### Parsing the frame back -/

/-- The cells hold a byte and those after it the rest. -/
theorem holdsBytes_cons {s : State} {a : Nat} {b : Byte} {bs : List Byte} (h : s.HoldsBytes a (b :: bs)) :
    s.buf.read? a = some b ∧ s.HoldsBytes (a + 1) bs := by
  refine ⟨h 0 (Nat.succ_pos _), fun k hk => ?_⟩
  rw [Nat.add_assoc, Nat.add_comm 1 k]
  exact h (k + 1) (Nat.succ_lt_succ hk)

/-- `FRAME_PARSE` of a frame in the buffer gives its first byte and leaves the rest at the place it reports, whose
address does not wrap in a valid build (R5, R210). -/
theorem frameParse_of_frame {s : State} {l : Operands} {o : Byte} {rest : List Byte}
    (hwf : s.build.wellFormed = true) (hrange : InRange s.build l.srcAddr.toNat l.srcLen.toNat)
    (hlen : l.srcLen.toNat = rest.length + 1) (hholds : s.HoldsBytes l.srcAddr.toNat (o :: rest)) :
    ∃ u, runWith .frameParse l s = .next u ∧ u.status.err = false ∧ u.res.opcode = o ∧
      u.res.len.toNat = rest.length ∧ u.HoldsBytes u.res.addr.toNat rest := by
  obtain ⟨hop, hrest⟩ := holdsBytes_cons hholds
  have hne : l.srcLen ≠ 0 := fun h => by simp [h] at hlen
  have hsize : s.build.bufBytes ≤ 16777216 := by
    simp only [Build.wellFormed, Bool.and_eq_true, Nat.ble_eq] at hwf
    exact hwf.2
  have haddr : (BitVec.ofNat 32 (l.srcAddr.toNat + 1)).toNat = l.srcAddr.toNat + 1 := by
    rw [BitVec.toNat_ofNat, Nat.mod_eq_of_lt]
    omega
  obtain ⟨-, -, hparse⟩ := frameParseSplitsTheFrame { s with lat := l }
  refine ⟨_, hparse o hrange hne hop, rfl, rfl, ?_, ?_⟩
  · exact (toNat_ofNat_of_le (Nat.sub_le _ 1)).trans (by rw [hlen, Nat.add_sub_cancel])
  · rw [← haddr] at hrest
    exact hrest

/-- Settles O35: the built frame is the opcode and the payload, which the success shows to be written. -/
theorem framingRoundTrip : Obligations.FramingRoundTrip := by
  intro s t d c a n o hwf hrun
  obtain ⟨hrange, hall, hroom, hbuilt⟩ := frameBuilt_of_run hrun
  have hpayload := holdsBytes_bytesOf (hall (.raw a n) (by simp)).1
  have hframe : [.opcode o, .raw a n].flatMap (FieldSource.bytes s) = o :: s.bytesOf a.toNat n.toNat := by
    simp [FieldSource.bytes]
  rw [hframe] at hbuilt
  have hlen : t.res.len.toNat = (s.bytesOf a.toNat n.toNat).length + 1 := hbuilt.len
  have hregion : InRange t.build t.res.addr.toNat t.res.len.toNat := by
    have hroom : 1 + n.toNat ≤ c.toNat := by simpa [FieldSource.size] using hroom
    rw [hbuilt.addr, hbuilt.build, hlen, State.bytesOf_length]
    omega
  obtain ⟨u, hu, herr, hop, hulen, hrest⟩ := frameParse_of_frame
    (l := { t.lat with srcAddr := t.res.addr, srcLen := t.res.len }) (hbuilt.build ▸ hwf) hregion hlen
    (hbuilt.addr ▸ hbuilt.holds)
  refine ⟨u, hu, herr, hop, BitVec.eq_of_toNat_eq (hulen.trans (s.bytesOf_length _ _)), fun k hk => ?_⟩
  have hmem : k < (s.bytesOf a.toNat n.toNat).length := by simpa using hk
  exact (hrest k hmem).trans (hpayload k hmem).symm

end Sys2Proof.Machine
end

section
/-! Issue and engine step (spec/48_control.md R251 to R255): what a write to `CMD` does while the block is idle and while
it is busy, and how the engine completes `NOP` and the words that are no command. -/

namespace Sys2Proof.Machine

/-! ### The engine step on each answer of the decoder (R253, R255) -/

theorem engineStep_of_command {s : State} {i : Instr} (h : decodeCmd s.latCmd = .ok i) : engineStep s = exec i s := by
  simp only [engineStep, h]

theorem engineStep_of_illegal {s : State} {e : IllegalCommand} (h : decodeCmd s.latCmd = .error e) :
    engineStep s = .next (errorResult s 6 (illegalSub e) s.latCmd 0 0) := by
  simp only [engineStep, h, State.raise, raiseAt_eq, errorCode]

/-- Settles O8: the decoder's answer on each kind of word, and the sub-code that goes with it. -/
theorem illegalCommandCompletes : Obligations.IllegalCommandCompletes := by
  have hop {s : State} (h : BadOp s.latCmd) : engineStep s = .next (errorResult s 6 1 s.latCmd 0 0) :=
    engineStep_of_illegal (decodeCmd_of_badOp h)
  have hres {s : State} (h : BadReserved s.latCmd) : engineStep s = .next (errorResult s 6 2 s.latCmd 0 0) :=
    engineStep_of_illegal (decodeCmd_of_badReserved h)
  have hnine : BadOp (State.reset.issue 0x00000009).latCmd := by decide
  exact ⟨fun _ => hop, fun _ => hres, _, hop hnine, by decide, rfl⟩

/-! ### `NOP` (R254) -/

/-- A word with `OP = 0` and anything else in it has it in a field that must be 0 (R113). -/
theorem badReserved_of_op_zero {v : Word} (hop : v.toNat % 16 = 0) (hv : v ≠ 0) : BadReserved v := by
  have hpos : v.toNat ≠ 0 := fun h => hv (BitVec.eq_of_toNat_eq h)
  exact ⟨by omega, by omega⟩

/-- `NOP` is the success completion that keeps the result registers, its fields written out (R281). -/
theorem exec_nop (s : State) :
    exec .nop s = .next { s with status := successStatus s.status, res := { s.res with errInfo := 0 } } := rfl

/-- Settles O12: `NOP` is the bare success completion, and the word 0 alone decodes to it. -/
theorem nopCompletes : Obligations.NopCompletes := by
  refine ⟨exec_nop, fun v hop hv => decodeCmd_of_badReserved (badReserved_of_op_zero hop hv), ?_⟩
  have hzero : decodeCmd (State.reset.issue 0x00000000).latCmd = .ok .nop := by decide
  exact ⟨_, engineStep_of_command hzero, by decide⟩

/-! ### The write to `CMD` (R38, R251, R252) -/

theorem writeCmd_of_idle {s : State} (v : Word) (h : s.status.busy = false) : writeCmd s v = s.issue v := by
  simp [writeCmd, h]

theorem writeCmd_of_busy {s : State} (v : Word) (h : s.status.busy = true) :
    writeCmd s v = { s with status := s.status.dropped } := by
  simp [writeCmd, h]

theorem hostTurn_cmd (v : Word) (s : State) :
    hostTurn (.write .w32 0x0C v) s = .next ((writeCmd s v).respond .ack) :=
  hostTurn_WR .cmd v s

/-- An accepted issue clears `DONE`, so it takes `IRQ` down (R49, R251). -/
@[simp] theorem State.issue_irq (s : State) (v : Word) : (s.issue v).irq = false := by
  simp [State.irq]

/-- Settles O47: an idle block issues every word, a legal one or not. -/
theorem acceptedIssue : Obligations.AcceptedIssue := by
  intro s v hidle
  rw [hostTurn_cmd, writeCmd_of_idle v hidle]
  exact ⟨_, rfl, rfl, s.issue_irq v⟩

/-- Settles O48: a busy block drops the word. -/
theorem droppedIssue : Obligations.DroppedIssue := by
  intro s v hbusy
  rw [hostTurn_cmd, writeCmd_of_busy v hbusy]
  rfl

end Sys2Proof.Machine
end

section
/-! The two resets of the block (spec/70_reset_and_hazards.md R321, R322): the hard reset clears every register and every
cell, the soft reset every register and no cell outside the destination of an aborted command. -/

namespace Sys2Proof.Machine

@[simp] theorem Status.toWord_zero : Status.zero.toWord = 0 := by decide

/-! ### The hard reset (R321) -/

theorem step_hardReset {s : State} {rest : List Turn} (hbuild : s.build.wellFormed = true)
    (hturn : s.agenda = .hardReset :: rest) : step s = .next (State.hardReset { s with agenda := rest }) := by
  simp [step, hbuild, hturn]

/-- Settles O1: the hard reset writes every register and empties the buffer, whatever the state was. -/
theorem hardResetState : Obligations.HardResetState := by
  refine ⟨fun s rest hbuild hturn => ⟨_, step_hardReset hbuild hturn, ?_⟩, ?_⟩
  · exact ⟨rfl, rfl, Status.toWord_zero, rfl, rfl, rfl, Memory.read?_nil, rfl, rfl, rfl⟩
  · exact ⟨rfl, Status.toWord_zero, rfl, rfl, rfl, Memory.read?_nil, rfl, rfl, rfl⟩

/-! ### The soft reset (R322) -/

theorem hostTurn_ctrl_srst {v : Word} (s : State) (hsrst : v.getLsbD 1 = true) :
    hostTurn (.write .w32 0x04 v) s = .next (s.softReset.respond .ack) := by
  have hwrite : s.writeReg .ctrl v = s.softReset := by simp [State.writeReg, writeCtrl, hsrst]
  exact hwrite ▸ hostTurn_WR .ctrl v s

/-- No command is in flight in an idle block (R333). -/
theorem State.inflightDst_of_idle {s : State} (hidle : s.status.busy = false) : s.inflightDst = noCells := by
  unfold State.inflightDst
  split <;> simp [hidle]

theorem State.softReset_read?_outside {s : State} {x : Nat} (h : ¬ s.inflightDst.Holds x) :
    s.softReset.buf.read? x = s.buf.read? x :=
  Memory.read?_scramble_outside _ _ _ _ _ (by omega)

/-- Every cell, one of an aborted command's destination too, is as it was or written. -/
theorem State.softReset_read? (s : State) (x : Nat) :
    s.softReset.buf.read? x = s.buf.read? x ∨ (s.softReset.buf.read? x).isSome = true := by
  by_cases hx : s.inflightDst.lo ≤ x ∧
      x < s.inflightDst.lo + (min s.inflightDst.hi s.build.bufBytes - s.inflightDst.lo)
  · exact Memory.read?_scramble_inside _ _ _ _ _ hx
  · exact Or.inl (Memory.read?_scramble_outside _ _ _ _ _ hx)

/-- The soft reset of an idle block loses no cell. -/
theorem State.softReset_sameMemory {s : State} (hidle : s.status.busy = false) : SameMemory s s.softReset :=
  fun _ => State.softReset_read?_outside (by simp [State.inflightDst_of_idle hidle, noCells])

/-- Settles O56: the write of `SRST` is the soft reset, which clears every register and scrambles only the destination
of the command it aborts. -/
theorem softReset : Obligations.SoftReset := by
  intro s v hsrst
  refine ⟨_, hostTurn_ctrl_srst s hsrst, rfl, rfl, Status.toWord_zero, rfl, rfl, rfl, rfl, rfl, rfl, ?_⟩
  exact ⟨fun _ => State.softReset_read?_outside, fun x _ => s.softReset_read? x, State.softReset_sameMemory⟩

end Sys2Proof.Machine
end

section
/-! Command words (spec/30_encoding.md R114, R116): a command is fixed by its operation number and its immediate, and so
is a legal word; the proofs of `Obligations.DecodeAndEncodeAgree` and `Obligations.OpcodeMapWordsDecode`. -/

namespace Sys2Proof.Machine

/-- The command of a row of the opcode map, by its operation number and immediate (R114); `NOP` above the rows. -/
def commandOf (op imm : Nat) : Instr :=
  match op with
  | 1 => .encode
  | 2 => .decode
  | 3 => .fbBegin
  | 4 => .fbOpcode (BitVec.ofNat 8 imm)
  | 5 => .fbRaw
  | 6 => .fbText
  | 7 => .fbEnd
  | 8 => .frameParse
  | _ => .nop

theorem commandOf_numbers (i : Instr) : commandOf (opNumber i) (immNumber i) = i := by
  cases i with
  | fbOpcode imm => exact congrArg Instr.fbOpcode (BitVec.ofNat_toNat 8 imm)
  | _ => rfl

/-- The operation number and the immediate determine the command (R114). -/
theorem instr_eq_of_numbers {i j : Instr} (hop : opNumber i = opNumber j) (himm : immNumber i = immNumber j) :
    i = j := by
  rw [← commandOf_numbers i, hop, himm, commandOf_numbers]

/-- A word decodes to a command exactly when it is legal and holds the command's two numbers (R116). -/
theorem decodeCmd_ok_iff {v : Word} {i : Instr} :
    decodeCmd v = .ok i ↔
      ¬ BadOp v ∧ ¬ BadReserved v ∧ opNumber i = v.toNat % 16 ∧ immNumber i = v.toNat / 256 % 256 := by
  obtain ⟨hbad, hres, hlegal⟩ := decodeProcedureIsTotal v
  constructor
  · intro h
    have hop : ¬ BadOp v := fun hb => by
      obtain ⟨e, he, -⟩ := hbad hb
      simp [he] at h
    have hrsv : ¬ BadReserved v := fun hb => by
      obtain ⟨e, he, -⟩ := hres hb
      simp [he] at h
    obtain ⟨j, hj, hnumbers⟩ := hlegal hop hrsv
    obtain rfl : j = i := by simpa [hj] using h
    exact ⟨hop, hrsv, hnumbers⟩
  · rintro ⟨hop, hrsv, hopn, himm⟩
    obtain ⟨j, hj, hjop, hjimm⟩ := hlegal hop hrsv
    rw [hj, instr_eq_of_numbers (hjop.trans hopn.symm) (hjimm.trans himm.symm)]

/-- The fields of a command's word, over all commands. -/
theorem encodedFields (i : Instr) : Laws.EncodedFields.Statement i := by
  cases i with
  | nop => exact Laws.EncodedFields.nop
  | encode => exact Laws.EncodedFields.encode
  | decode => exact Laws.EncodedFields.decode
  | fbBegin => exact Laws.EncodedFields.fbBegin
  | fbOpcode imm => exact Laws.EncodedFields.fbOpcode imm
  | fbRaw => exact Laws.EncodedFields.fbRaw
  | fbText => exact Laws.EncodedFields.fbText
  | fbEnd => exact Laws.EncodedFields.fbEnd
  | frameParse => exact Laws.EncodedFields.frameParse

/-- A command's word as a number (R110, R114). -/
theorem encodeCmd_toNat (i : Instr) : (encodeCmd i).toNat = opNumber i + 256 * immNumber i := by
  obtain ⟨hop, himm, hrsv0, hrsv1⟩ := encodedFields i
  have hzero0 : (encodeCmd i).toNat / 16 % 16 = 0 := by rw [← CmdWord.rsv0_toNat, hrsv0]; rfl
  have hzero1 : (encodeCmd i).toNat / 65536 = 0 := by rw [← CmdWord.rsv1_toNat, hrsv1]; rfl
  rw [CmdWord.op_toNat] at hop
  rw [CmdWord.imm8_toNat] at himm
  omega

/-- What a command's two numbers can be (R112, R114). -/
theorem numbers_bounds (i : Instr) :
    opNumber i < 9 ∧ immNumber i < 256 ∧ (opNumber i ≠ 4 → immNumber i = 0) := by
  cases i with
  | fbOpcode imm => exact ⟨(by decide : 4 < 9), imm.isLt, fun h => absurd rfl h⟩
  | _ => exact ⟨by decide, by decide, fun _ => rfl⟩

/-- Settles O5: a legal word is the number that its command's two numbers make. -/
theorem decodeAndEncodeAgree : Obligations.DecodeAndEncodeAgree := by
  constructor
  · intro i _
    have hword := encodeCmd_toNat i
    obtain ⟨hop, himm, hzero⟩ := numbers_bounds i
    exact decodeCmd_ok_iff.2 ⟨by omega, by omega, by omega, by omega⟩
  · intro v i h
    obtain ⟨hop, hrsv, hopn, himm⟩ := decodeCmd_ok_iff.1 h
    refine BitVec.eq_of_toNat_eq ?_
    rw [encodeCmd_toNat]
    omega

/-- Settles O3: the decoder on the nine words of the map. -/
theorem opcodeMapWordsDecode : Obligations.OpcodeMapWordsDecode := by
  refine ⟨?_, ?_, ?_, ?_, ?_, ?_, ?_, ?_, ?_⟩ <;> decide

end Sys2Proof.Machine
end

section
/-! What a command can do, said once for all nine (spec/45_framer.md, spec/40_huffman.md, spec/60_exceptions.md R281,
R282): the change it makes before it completes, and what every completion sets. From this follow the proofs of
`Obligations.CommandsKeepTheRest`, `Obligations.EveryCompletionSetsDone` and `Obligations.FrameErrorsKeepTheFrame`. -/

namespace Sys2Proof.Machine

/-! ### Completions -/

/-- `t` completes `u`: only the completion flags with their codes and the result registers but `RES_OPCODE` change, and
the flags are those of R281 or R282. -/
structure Completes (u t : State) : Prop where
  rest : t = { u with
    status := { t.status with overrun := u.status.overrun, frameOpen := u.status.frameOpen }
    res := { t.res with opcode := u.res.opcode } }
  busy : t.status.busy = false
  done : t.status.done = true
  err_iff : t.status.err = true ↔ t.status.errCode ≠ 0
  sub_zero : t.status.errCode = 0 → t.status.errSub = 0
  code_le : t.status.errCode.toNat ≤ 7
  sub_le : t.status.errSub.toNat ≤ 4

section

variable {u t : State} (h : Completes u t)
include h

theorem Completes.build : t.build = u.build := by rw [h.rest]
theorem Completes.frame : t.frame = u.frame := by rw [h.rest]
theorem Completes.buf : t.buf = u.buf := by rw [h.rest]
theorem Completes.frameOpen : t.status.frameOpen = u.status.frameOpen := by rw [h.rest]
theorem Completes.overrun : t.status.overrun = u.status.overrun := by rw [h.rest]

end

theorem errorCode_ne_zero (e : ErrorCode) : errorCode e ≠ 0 := by
  cases e <;> decide

theorem errorCode_le (e : ErrorCode) : (errorCode e).toNat ≤ 7 := by
  cases e <;> decide

theorem completes_complete (u : State) (ra rl : Word) : Completes u (u.complete ra rl) :=
  ⟨rfl, rfl, rfl, by simp, fun _ => rfl, Nat.zero_le _, Nat.zero_le _⟩

theorem completes_completeKeep (u : State) : Completes u u.completeKeep :=
  ⟨rfl, rfl, rfl, by simp, fun _ => rfl, Nat.zero_le _, Nat.zero_le _⟩

theorem completes_raiseAt (u : State) (e : ErrorCode) {sub : BitVec 4} (info ra rl : Word) (hsub : sub.toNat ≤ 4) :
    Completes u (u.raiseAt e sub info ra rl) :=
  ⟨rfl, rfl, rfl, iff_of_true rfl (errorCode_ne_zero e), fun h => absurd h (errorCode_ne_zero e), errorCode_le e, hsub⟩

/-! ### Changes -/

/-- What the command `i` changes before it completes. -/
inductive Change (s : State) (i : Instr) : State → Prop
  /-- Nothing: an error, or `NOP`. -/
  | nothing : Change s i s
  /-- A codec command's bytes at its latched destination (R146, R147). -/
  | stored (out : List Byte) (hi : writesDestination i = true) (hok : s.RegionsOk)
      (hlen : out.length ≤ s.lat.dstCap.toNat) :
      Change s i { s with buf := s.buf.writeList s.lat.dstAddr.toNat out }
  /-- Bytes at the end of the open frame (R202 to R204). -/
  | appended (bs : List Byte) (hi : appendsToFrame i = true) (hopen : s.status.frameOpen = true)
      (hroom : s.frame.cur.toNat + bs.length ≤ s.frame.cap.toNat) :
      Change s i (State.advanceFrame
        { s with buf := s.buf.writeList (s.frame.base.toNat + s.frame.cur.toNat) bs } bs.length)
  /-- A frame opened in the buffer (R201). -/
  | opened (hi : i = .fbBegin) (hrange : InRange s.build s.lat.dstAddr.toNat s.lat.dstCap.toNat) :
      Change s i (s.openFrame s.lat.dstAddr s.lat.dstCap)
  /-- The frame closed (R201, R205). -/
  | closed (hi : i = .fbBegin ∨ i = .fbEnd) : Change s i s.closeFrame
  /-- The opcode of a frame (R210). -/
  | parsed (op : Byte) (hi : i = .frameParse) : Change s i (s.setOpcode op)

/-- What the engine's turn on the command `i` does: the command's change, then a completion, whose result region lies in
the buffer where the frame and the last result region did (R43, R46). -/
structure Performed (s : State) (i : Instr) (t : State) : Prop where
  change : ∃ u, Change s i u ∧ Completes u t
  resultInv : s.FrameInv → s.ResultInv → t.ResultInv

/-! ### Each command -/

section

variable {s : State}

/-- The result of an error with no partial result is the empty region at 0. -/
theorem performed_raise {i : Instr} {u : State} (hu : Change s i u) (e : ErrorCode) {sub : BitVec 4} (info : Word)
    (hsub : sub.toNat ≤ 4) : Performed s i (u.raise e sub info) :=
  ⟨⟨u, hu, completes_raiseAt u e info 0 0 hsub⟩, fun _ _ => Nat.zero_le _⟩

/-- A count reported in a register is at most itself. -/
theorem toNat_ofNat_le (n : Nat) : (BitVec.ofNat 32 n).toNat ≤ n :=
  (BitVec.toNat_ofNat ..).trans_le (Nat.mod_le ..)

theorem Change.build {i : Instr} {u : State} (h : Change s i u) : u.build = s.build := by
  cases h <;> rfl

/-- A completion whose reported region lies in the buffer. -/
theorem performed_of_region {i : Instr} {u t : State} {n : Nat} (hu : Change s i u) (ht : Completes u t)
    (hlen : t.res.len.toNat ≤ n) (hregion : s.FrameInv → InRange s.build t.res.addr.toNat n) : Performed s i t := by
  refine ⟨⟨u, hu, ht⟩, fun hframe _ => ?_⟩
  have hbuild : t.build = s.build := ht.build.trans (hu.build)
  have hrange := hregion hframe
  rw [State.ResultInv, hbuild]
  omega

theorem performed_nop : Performed s .nop s.completeKeep :=
  ⟨⟨s, .nothing, completes_completeKeep s⟩, fun _ hres => hres⟩

theorem performed_encode {t : State} (h : execEncode s = .next t) : Performed s .encode t := by
  obtain ⟨e, sub, rfl, hsub, -⟩ | ⟨inp, out, hok, -, -, ⟨-, rfl⟩ | ⟨hlen, rfl⟩⟩ := execEncode_next h
  · exact performed_raise .nothing e 0 hsub
  · exact performed_of_region (n := s.lat.dstCap.toNat) .nothing (completes_raiseAt _ _ _ _ _ (by decide))
      (Nat.zero_le _) fun _ => hok.2.1
  · exact performed_of_region (.stored out rfl hok hlen) (completes_complete _ _ _) ((toNat_ofNat_le _).trans hlen)
      fun _ => hok.2.1

theorem performed_decode {t : State} (h : execDecode s = .next t) : Performed s .decode t := by
  obtain ⟨e, sub, rfl, hsub⟩ | ⟨out, u, hok, hlen, rfl, rfl | ⟨e, sub, info, rfl, hsub⟩⟩ := execDecode_next h
  · exact performed_raise .nothing e 0 hsub
  · exact performed_of_region (.stored out rfl hok hlen) (completes_complete _ _ _) ((toNat_ofNat_le _).trans hlen)
      fun _ => hok.2.1
  · exact performed_of_region (.stored out rfl hok hlen) (completes_raiseAt _ _ _ _ _ hsub)
      ((toNat_ofNat_le _).trans hlen) fun _ => hok.2.1

theorem performed_fbBegin {t : State} (h : execFbBegin s = .next t) : Performed s .fbBegin t := by
  unfold execFbBegin at h
  split at h
  · obtain rfl := Host.Outcome.next.inj h
    exact performed_of_region (.opened rfl ‹_›) (completes_complete _ _ _) (Nat.zero_le _) fun _ => ‹_›
  · obtain rfl := Host.Outcome.next.inj h
    exact performed_raise (.closed (.inl rfl)) .range 0 (by decide)

/-- An error of a frame command reports the open frame, which lies in the buffer (R46, R200). -/
theorem performed_raiseFrame (i : Instr) (hopen : s.status.frameOpen = true) (e : ErrorCode) {sub : BitVec 4}
    (info : Word) (hsub : sub.toNat ≤ 4) : Performed s i (s.raiseAt e sub info s.frame.base s.frame.cur) := by
  refine performed_of_region .nothing (completes_raiseAt _ _ _ _ _ hsub) le_rfl fun hframe => ?_
  have := hframe hopen
  simp only [State.raiseAt_res]
  omega

theorem performed_append {i : Instr} {t : State} {bs : List Byte} (hi : appendsToFrame i = true)
    (hopen : s.status.frameOpen = true) (hroom : s.frame.cur.toNat + bs.length ≤ s.frame.cap.toNat)
    (h : appendBytes s bs = .next t) : Performed s i t := by
  obtain ⟨-, rfl⟩ := (appendBytes_next ..).1 h
  refine performed_of_region (.appended bs hi hopen hroom) (completes_complete _ _ _)
    ((toNat_ofNat_le _).trans hroom) fun hframe => ?_
  exact (hframe hopen).2

theorem performed_fbOpcode {t : State} {imm : Byte} (h : execFbOpcode imm s = .next t) :
    Performed s (.fbOpcode imm) t := by
  obtain ⟨-, rfl⟩ | ⟨hopen, e, sub, info, rfl, hsub⟩ | ⟨hopen, hroom, h⟩ := execFbOpcode_next h
  · exact performed_raise .nothing .frameNotOpen 0 (by decide)
  · exact performed_raiseFrame _ hopen e info hsub
  · exact performed_append (bs := [imm]) rfl hopen hroom h

theorem performed_appendSource {i : Instr} {t : State} (hi : appendsToFrame i = true)
    (h : appendSource s = .next t) : Performed s i t := by
  obtain ⟨-, rfl⟩ | ⟨hopen, e, sub, info, rfl, hsub⟩ | ⟨hopen, bs, -, -, -, hroom, h⟩ := appendSource_next h
  · exact performed_raise .nothing .frameNotOpen 0 (by decide)
  · exact performed_raiseFrame _ hopen e info hsub
  · exact performed_append hi hopen hroom h

theorem performed_fbEnd {t : State} (h : execFbEnd s = .next t) : Performed s .fbEnd t := by
  unfold execFbEnd at h
  split at h
  · obtain rfl := Host.Outcome.next.inj h
    exact performed_raise .nothing .frameNotOpen 0 (by decide)
  · rename_i hopen
    obtain rfl := Host.Outcome.next.inj h
    refine performed_of_region (.closed (.inr rfl)) (completes_complete _ _ _) le_rfl fun hframe => ?_
    have := hframe (not_not.1 hopen)
    simp only [State.complete_res]
    omega

theorem performed_frameParse {t : State} (h : execFrameParse s = .next t) : Performed s .frameParse t := by
  obtain ⟨e, sub, rfl, hsub⟩ | ⟨hrange, hpos, op, -, rfl⟩ := execFrameParse_next h
  · exact performed_raise .nothing e 0 hsub
  · refine performed_of_region (.parsed op rfl) (completes_complete _ _ _) (toNat_ofNat_le _) fun _ => ?_
    have := toNat_ofNat_le (s.lat.srcAddr.toNat + 1)
    simp only [State.complete_res, InRange] at hrange ⊢
    omega

end

/-- Everything a command that answers a next state does. -/
theorem exec_performed {i : Instr} {s t : State} (h : exec i s = .next t) : Performed s i t := by
  cases i with
  | nop => exact Host.Outcome.next.inj h ▸ performed_nop
  | encode => exact performed_encode h
  | decode => exact performed_decode h
  | fbBegin => exact performed_fbBegin h
  | fbOpcode imm => exact performed_fbOpcode h
  | fbRaw => exact performed_appendSource rfl h
  | fbText => exact performed_appendSource rfl h
  | fbEnd => exact performed_fbEnd h
  | frameParse => exact performed_frameParse h

/-! ### What no command changes (R43, R45, R46, R50) -/

section

variable {s u : State} {i : Instr}

/-- A change touches memory, the frame state and `RES_OPCODE` only. -/
theorem Change.rest (h : Change s i u) :
    u = { s with
      buf := u.buf
      frame := u.frame
      status := { s.status with frameOpen := u.status.frameOpen }
      res := { s.res with opcode := u.res.opcode } } := by
  cases h <;> rfl

theorem Change.opcode (h : Change s i u) (hi : i ≠ .frameParse) : u.res.opcode = s.res.opcode := by
  cases h with
  | parsed op hparse => exact absurd hparse hi
  | _ => rfl

theorem Change.frame (h : Change s i u) (hi : i = .nop ∨ i = .encode ∨ i = .decode ∨ i = .frameParse) :
    u.frame = s.frame ∧ u.status.frameOpen = s.status.frameOpen := by
  cases h with
  | appended _ happ => obtain rfl | rfl | rfl | rfl := hi <;> simp [appendsToFrame] at happ
  | opened hbegin => simp [hbegin] at hi
  | closed hclose => obtain rfl | rfl := hclose <;> simp at hi
  | _ => exact ⟨rfl, rfl⟩

theorem Change.buf (h : Change s i u) (hi : i = .nop ∨ i = .fbBegin ∨ i = .fbEnd ∨ i = .frameParse) :
    u.buf = s.buf := by
  cases h with
  | stored _ hdst => obtain rfl | rfl | rfl | rfl := hi <;> simp [writesDestination] at hdst
  | appended _ happ => obtain rfl | rfl | rfl | rfl := hi <;> simp [appendsToFrame] at happ
  | _ => rfl

end

/-- Settles O36: a change touches memory, the frame state and `RES_OPCODE` only, each by its own commands, and a
completion the flags and results. -/
theorem commandsKeepTheRest : Obligations.CommandsKeepTheRest := by
  intro i s t h
  obtain ⟨u, hchange, hcompletes⟩ := (exec_performed h).change
  rw [hcompletes.rest]
  refine ⟨?_, ?_, ?_, ?_, ?_, ?_, ?_, ?_, ?_, hchange.opcode, hchange.frame, fun hi x => by rw [hchange.buf hi]⟩
  all_goals rw [hchange.rest]

/-! ### The engine step -/

theorem illegalSub_le (e : IllegalCommand) : (illegalSub e).toNat ≤ 4 := by
  cases e <;> decide

/-- An engine step that answers performs a command; a word that is none completes like a command that fails and changes
nothing before (R253, R255). -/
theorem engineStep_performed {s t : State} (h : engineStep s = .next t) : ∃ i, Performed s i t := by
  cases hdec : decodeCmd s.latCmd with
  | ok i =>
    rw [engineStep_of_command hdec] at h
    exact ⟨i, exec_performed h⟩
  | error e =>
    simp only [engineStep, hdec] at h
    obtain rfl := Host.Outcome.next.inj h
    exact ⟨.nop, performed_raise .nothing .illegalCommand s.latCmd (illegalSub_le e)⟩

/-- Settles O9: what every completion sets. -/
theorem everyCompletionSetsDone : Obligations.EveryCompletionSetsDone := by
  intro s t h
  obtain ⟨i, ⟨u, hchange, hcompletes⟩, -⟩ := engineStep_performed h
  refine ⟨hcompletes.busy, hcompletes.done, hcompletes.err_iff, ?_, by simp [State.irq, hcompletes.done]⟩
  rw [hcompletes.overrun, hchange.rest]

/-! ### Errors on an open frame (R200) -/

/-- Settles O33: on an open frame, what is no error of R200 is an appending, which completes with success. -/
theorem frameErrorsKeepTheFrame : Obligations.FrameErrorsKeepTheFrame := by
  intro i s t hi hopen h herr
  have happend : ∀ bs, appendBytes s bs ≠ .next t := fun bs hbs => by
    rw [appendBytes_next_eq hbs] at herr
    exact Bool.false_ne_true herr
  have herror : ∃ e sub info, t = s.raiseAt e sub info s.frame.base s.frame.cur := by
    have hsource (h : appendSource s = .next t) : ∃ e sub info, t = s.raiseAt e sub info s.frame.base s.frame.cur := by
      obtain ⟨hclosed, -⟩ | ⟨-, e, sub, info, ht, -⟩ | ⟨-, bs, -, -, -, -, hbs⟩ := appendSource_next h
      · simp [hopen] at hclosed
      · exact ⟨e, sub, info, ht⟩
      · exact absurd hbs (happend bs)
    obtain rfl | rfl | ⟨imm, rfl⟩ := hi
    · exact hsource h
    · exact hsource h
    · obtain ⟨hclosed, -⟩ | ⟨-, e, sub, info, ht, -⟩ | ⟨-, -, hbs⟩ := execFbOpcode_next h
      · simp [hopen] at hclosed
      · exact ⟨e, sub, info, ht⟩
      · exact absurd hbs (happend [imm])
  obtain ⟨e, sub, info, rfl⟩ := herror
  exact ⟨rfl, hopen, fun _ => rfl, rfl, rfl⟩

end Sys2Proof.Machine
end

section
/-! The in-flight regions (spec/70_reset_and_hazards.md R333): which cells they hold, by the decoded command and by
arithmetic on the latched word, and that a command writes in its destination region only; the proofs of
`Obligations.InFlightRegions` and `Obligations.CommandsWriteOnlyTheirDestination`. -/

namespace Sys2Proof.Machine

/-! ### The kinds of commands by their operation numbers (R114, R333) -/

theorem readsSource_iff (i : Instr) :
    readsSource i = true ↔
      opNumber i = 1 ∨ opNumber i = 2 ∨ opNumber i = 5 ∨ opNumber i = 6 ∨ opNumber i = 8 := by
  cases i <;> simp [readsSource, opNumber]

theorem writesDestination_iff (i : Instr) : writesDestination i = true ↔ opNumber i = 1 ∨ opNumber i = 2 := by
  cases i <;> simp [writesDestination, opNumber]

theorem appendsToFrame_iff (i : Instr) :
    appendsToFrame i = true ↔ opNumber i = 4 ∨ opNumber i = 5 ∨ opNumber i = 6 := by
  cases i <;> simp [appendsToFrame, opNumber]

/-- No command has a latched destination and a frame to append to (R112). -/
theorem writesDestination_of_appendsToFrame {i : Instr} (h : appendsToFrame i = true) :
    writesDestination i = false := by
  rw [appendsToFrame_iff] at h
  rw [Bool.eq_false_iff, Ne, writesDestination_iff]
  omega

/-! ### By the decoded command -/

theorem noCells_not_holds (x : Nat) : ¬ noCells.Holds x := fun h => Nat.not_lt_zero x h.2

theorem inflightSrc_holds_iff {s : State} {x : Nat} :
    s.inflightSrc.Holds x ↔
      ∃ i, decodeCmd s.latCmd = .ok i ∧ s.status.busy = true ∧ readsSource i = true ∧
        InRange s.build s.lat.srcAddr.toNat s.lat.srcLen.toNat ∧
        s.lat.srcAddr.toNat ≤ x ∧ x < s.lat.srcAddr.toNat + s.lat.srcLen.toNat := by
  unfold State.inflightSrc
  cases hdec : decodeCmd s.latCmd with
  | error e => simp [noCells_not_holds]
  | ok i =>
    simp only [Except.ok.injEq, exists_eq_left']
    split
    · rename_i hflight
      obtain ⟨hbusy, hreads, hrange⟩ := hflight
      simp only [hbusy, hreads, hrange, true_and]
    · rename_i hflight
      exact iff_of_false (noCells_not_holds x) fun ⟨hbusy, hreads, hrange, _⟩ => hflight ⟨hbusy, hreads, hrange⟩

theorem inflightDst_holds_iff {s : State} {x : Nat} :
    s.inflightDst.Holds x ↔
      ∃ i, decodeCmd s.latCmd = .ok i ∧ s.status.busy = true ∧
        ((writesDestination i = true ∧ InRange s.build s.lat.dstAddr.toNat s.lat.dstCap.toNat ∧
            s.lat.dstAddr.toNat ≤ x ∧ x < s.lat.dstAddr.toNat + s.lat.dstCap.toNat) ∨
          (appendsToFrame i = true ∧ s.status.frameOpen = true ∧ s.frame.base.toNat + s.frame.cur.toNat ≤ x ∧
            x < s.frame.base.toNat + s.frame.cap.toNat)) := by
  unfold State.inflightDst
  cases hdec : decodeCmd s.latCmd with
  | error e => simp [noCells_not_holds]
  | ok i =>
    simp only [Except.ok.injEq, exists_eq_left']
    split
    · rename_i hflight
      obtain ⟨hbusy, hwrites, hrange⟩ := hflight
      have happends : appendsToFrame i = false := Bool.eq_false_iff.2 fun h => by
        simp [writesDestination_of_appendsToFrame h] at hwrites
      simp [hbusy, hwrites, hrange, happends]
    · rename_i hdst
      split
      · rename_i hflight
        obtain ⟨hbusy, happends, hopen⟩ := hflight
        simp [hbusy, happends, hopen, writesDestination_of_appendsToFrame happends]
      · rename_i hframe
        refine iff_of_false (noCells_not_holds x) ?_
        rintro ⟨hbusy, ⟨hwrites, hrange, -⟩ | ⟨happends, hopen, -⟩⟩
        · exact hdst ⟨hbusy, hwrites, hrange⟩
        · exact hframe ⟨hbusy, happends, hopen⟩

/-! ### By arithmetic on the latched word (R114, R333) -/

/-- The legal words are those that decode, to a command with their operation number (R116). -/
theorem exists_decodeCmd_iff {v : Word} {P : Nat → Prop} :
    (∃ i, decodeCmd v = .ok i ∧ P (opNumber i)) ↔ ¬ BadOp v ∧ ¬ BadReserved v ∧ P (v.toNat % 16) := by
  constructor
  · rintro ⟨i, hdec, hP⟩
    obtain ⟨hop, hrsv, hopn, -⟩ := decodeCmd_ok_iff.1 hdec
    exact ⟨hop, hrsv, hopn ▸ hP⟩
  · rintro ⟨hop, hrsv, hP⟩
    obtain ⟨-, -, hlegal⟩ := decodeProcedureIsTotal v
    obtain ⟨i, hdec, hopn, -⟩ := hlegal hop hrsv
    exact ⟨i, hdec, hopn ▸ hP⟩

/-- Settles O53: the regions of the decoded command, whose operation number is the latched word's. -/
theorem inFlightRegions : Obligations.InFlightRegions := by
  intro s x
  rw [inflightSrc_holds_iff, inflightDst_holds_iff]
  simp only [readsSource_iff, writesDestination_iff, appendsToFrame_iff]
  constructor
  · rw [exists_decodeCmd_iff (P := fun n => s.status.busy = true ∧ (n = 1 ∨ n = 2 ∨ n = 5 ∨ n = 6 ∨ n = 8) ∧ _)]
    tauto
  · rw [exists_decodeCmd_iff (P := fun n => s.status.busy = true ∧ (((n = 1 ∨ n = 2) ∧ _) ∨
      ((n = 4 ∨ n = 5 ∨ n = 6) ∧ _)))]
    tauto

/-! ### What a command in flight writes -/

/-- A change writes no cell outside the destination region of its command in flight (R42, R82, R333). -/
theorem Change.read?_outside {s u : State} {i : Instr} (h : Change s i u) (hbusy : s.status.busy = true)
    (hdec : decodeCmd s.latCmd = .ok i) {x : Nat} (hx : ¬ s.inflightDst.Holds x) :
    u.buf.read? x = s.buf.read? x := by
  rw [inflightDst_holds_iff] at hx
  cases h with
  | stored out hi hok hlen =>
    refine Memory.read?_writeList_outside _ _ _ _ fun hin => hx ⟨i, hdec, hbusy, .inl ⟨hi, hok.2.1, hin.1, ?_⟩⟩
    omega
  | appended bs hi hopen hroom =>
    refine Memory.read?_writeList_outside _ _ _ _ fun hin => hx ⟨i, hdec, hbusy, .inr ⟨hi, hopen, hin.1, ?_⟩⟩
    omega
  | _ => rfl

/-- Settles O38: the change of a command in flight stays in its destination region, and its completion writes no
cell. -/
theorem commandsWriteOnlyTheirDestination : Obligations.CommandsWriteOnlyTheirDestination := by
  intro i s t hbusy hdec h x hx
  obtain ⟨u, hchange, hcompletes⟩ := (exec_performed h).change
  rw [hcompletes.buf, hchange.read?_outside hbusy hdec hx]

end Sys2Proof.Machine
end

section
/-! The register window (spec/10_state.md R34 to R49, spec/20_memory.md R85): what each register reads and what a write
to it does, at its offset; the proofs of `Obligations.RegisterReads`, `Obligations.StatusRegister`,
`Obligations.CtrlRegister`, `Obligations.OperandRegistersHoldWhatIsWritten`,
`Obligations.ReadOnlyRegistersIgnoreWrites`, `Obligations.InterruptIsALevel` and `Obligations.ReadsHaveNoSideEffect`. -/

namespace Sys2Proof.Machine

/-! ### Offsets (R34, R72, R73) -/

theorem addr_eq_of_regOffset {addr : Word} {r : Reg} (h : addr.toNat = regOffset r) :
    addr = BitVec.ofNat 32 (regOffset r) := by
  rw [← h, BitVec.ofNat_toNat, BitVec.setWidth_eq]

theorem regAt_eq_some {o : Nat} {r : Reg} (h : regAt o = some r) : o = regOffset r :=
  (Nat.eq_of_beq_eq_true (List.find?_some (p := fun r => Nat.beq (regOffset r) o) h)).symm

theorem regOffset_le (r : Reg) : regOffset r ≤ 0x30 := by
  cases r <;> decide

theorem regAt_of_gt {o : Nat} (h : 0x30 < o) : regAt o = none := by
  cases hreg : regAt o with
  | none => rfl
  | some r =>
    have := regAt_eq_some hreg
    have := regOffset_le r
    omega

/-- Above `BUF_SIZE` the aligned offsets of the register window are reserved (R34). -/
theorem busTarget_reserved (b : Build) {addr : Word} (hlo : 0x34 ≤ addr.toNat) (hhi : addr.toNat ≤ 0xFC)
    (halign : addr.toNat % 4 = 0) : busTarget b .w32 addr = .register none := by
  have hwindow : addr.toNat ≤ regWindowLast := hhi.trans (by decide)
  simp only [busTarget, if_pos hwindow, if_pos halign, regAt_of_gt (show 0x30 < addr.toNat by omega)]

/-- A register is reached by a word access at its offset only (R73). -/
theorem busTarget_eq_register {b : Build} {w : Width} {addr : Word} {r : Reg}
    (h : busTarget b w addr = .register (some r)) : w = .w32 ∧ addr.toNat = regOffset r := by
  unfold busTarget at h
  dsimp only at h
  split at h
  · cases w with
    | w8 | w16 => simp at h
    | w32 =>
      dsimp only at h
      split at h
      · exact ⟨rfl, regAt_eq_some (BusTarget.register.inj h)⟩
      · simp at h
  · split at h
    · cases w with
      | w8 | w16 => simp at h
      | w32 =>
        dsimp only at h
        split at h <;> simp at h
    · simp at h

theorem hostTurn_read_register {s : State} {w : Width} {addr : Word} {r : Option Reg}
    (h : busTarget s.build w addr = .register r) : hostTurn (.read w addr) s = .next (busReadReg s r) := by
  simp only [hostTurn, h]

theorem hostTurn_write_register {s : State} {w : Width} {addr : Word} {r : Option Reg} (v : Word)
    (h : busTarget s.build w addr = .register r) : hostTurn (.write w addr v) s = .next (busWriteReg s r v) := by
  simp only [hostTurn, h]

/-! ### Register reads -/

/-- A read of a register that is exact now records its value (R34 to R44, R333). -/
theorem hostTurn_RD_exact {s : State} {r : Reg} (h : s.status.busy = false ∨ heldWhileBusy r = false) :
    hostTurn (opRD r) s = .next (s.respond (.word (s.regValue r))) := by
  rw [hostTurn_RD, busReadReg_exact s r h]

theorem ctrlWord_eq (ie : Bool) : ctrlWord ie = if ie then 1 else 0 := by
  cases ie <;> decide

theorem hostTurn_read_ctrl (s : State) :
    hostTurn (.read .w32 0x04) s = .next { s with busLog := .word (if s.ie then 1 else 0) :: s.busLog } := by
  rw [← ctrlWord_eq]
  exact hostTurn_RD_exact (r := .ctrl) (.inr rfl)

/-- Settles O44: each register at its offset, and nothing above them. -/
theorem registerReads : Obligations.RegisterReads := by
  intro s
  refine ⟨hostTurn_RD_exact (r := .id) (.inr rfl), hostTurn_read_ctrl s, hostTurn_RD_exact (r := .status) (.inr rfl),
    hostTurn_RD_exact (r := .cmd) (.inr rfl), hostTurn_RD_exact (r := .srcAddr) (.inr rfl),
    hostTurn_RD_exact (r := .srcLen) (.inr rfl), hostTurn_RD_exact (r := .dstAddr) (.inr rfl),
    hostTurn_RD_exact (r := .dstCap) (.inr rfl), fun hidle => ?_, hostTurn_RD_exact (r := .bufSize) (.inr rfl),
    fun addr hlo hhi halign => hostTurn_read_register (busTarget_reserved s.build hlo hhi halign)⟩
  rw [BitVec.ofNat_toNat]
  exact ⟨hostTurn_RD_exact (r := .resAddr) (.inl hidle), hostTurn_RD_exact (r := .resLen) (.inl hidle),
    hostTurn_RD_exact (r := .resOpcode) (.inl hidle), hostTurn_RD_exact (r := .errInfo) (.inl hidle)⟩

/-- Settles O58: a read that answers uses free values and records its response. -/
theorem readsHaveNoSideEffect : Obligations.ReadsHaveNoSideEffect := by
  intro s t w addr h
  obtain ⟨n, r, -, rfl⟩ := hostTurn_read_next h
  rfl

/-! ### `STATUS` (R37) -/

theorem flagBit_getLsbD (b : Bool) (j : Nat) {k : Nat} (hk : k < 32) :
    (flagBit b j).getLsbD k = (decide (k = j) && b) := by
  unfold flagBit
  rw [BitVec.getLsbD_shiftLeft, BitVec.getLsbD_setWidth, BitVec.getLsbD_ofBool]
  by_cases hlt : k < j
  · simp [hlt, hlt.ne]
  · have : k - j = 0 ↔ k = j := by omega
    have : k - j < 32 := by omega
    simp_all

/-- A field of four bits at position `j` of a register value. -/
theorem nibble_getLsbD (x : BitVec 4) (j : Nat) {k : Nat} (hk : k < 32) :
    (x.setWidth 32 <<< j).getLsbD k = (decide (j ≤ k) && x.getLsbD (k - j)) := by
  have hlt : k - j < 32 := by omega
  rw [BitVec.getLsbD_shiftLeft, BitVec.getLsbD_setWidth]
  by_cases hj : k < j
  · simp [hj]
  · simp [hk, hlt, hj, not_lt.1 hj]

theorem Status.toWord_getLsbD (st : Status) {k : Nat} (hk : k < 32) :
    st.toWord.getLsbD k =
      (if k = 0 then st.busy else if k = 1 then st.done else if k = 2 then st.err else if k = 3 then st.overrun
        else if k = 4 then st.frameOpen else if 8 ≤ k ∧ k ≤ 11 then st.errCode.getLsbD (k - 8)
        else if 12 ≤ k ∧ k ≤ 15 then st.errSub.getLsbD (k - 12) else false) := by
  simp only [Status.toWord, BitVec.getLsbD_or, flagBit_getLsbD _ _ hk, nibble_getLsbD _ _ hk]
  interval_cases k <;> simp

theorem hostTurn_write_status (s : State) (v : Word) :
    hostTurn (.write .w32 0x08 v) s =
      .next (State.respond { s with status := s.status.writeOneToClear v } .ack) :=
  hostTurn_WR .status v s

/-- Settles O45: the layout bit by bit, and the three flags a write clears. -/
theorem statusRegister : Obligations.StatusRegister := by
  have hclear (old bit : Bool) : (old && !bit) = if bit then false else old := by cases bit <;> simp
  refine ⟨fun st k hk => st.toWord_getLsbD hk, fun s v => ?_⟩
  rw [hostTurn_write_status, Status.writeOneToClear]
  simp only [hclear]
  rfl

/-! ### `CTRL` (R36) -/

theorem hostTurn_ctrl_ie {v : Word} (s : State) (h : v.getLsbD 1 = false) :
    hostTurn (.write .w32 0x04 v) s = .next (State.respond { s with ie := v.getLsbD 0 } .ack) := by
  have hwrite : s.writeReg .ctrl v = { s with ie := v.getLsbD 0 } := by
    rw [State.writeReg, writeCtrl, h]
    rfl
  exact hwrite ▸ hostTurn_WR .ctrl v s

/-- Settles O46: the two kinds of write by bit 1, and the read. -/
theorem ctrlRegister : Obligations.CtrlRegister :=
  fun s _ => ⟨hostTurn_read_ctrl s, hostTurn_ctrl_ie s, hostTurn_ctrl_srst s⟩

/-! ### The other registers -/

/-- Settles O49: the write to each operand register, at its offset. -/
theorem operandRegistersHoldWhatIsWritten : Obligations.OperandRegistersHoldWhatIsWritten :=
  fun s v => ⟨hostTurn_WR .srcAddr v s, hostTurn_WR .srcLen v s, hostTurn_WR .dstAddr v s, hostTurn_WR .dstCap v s⟩

/-- Settles O50: a read-only register ignores its write, and a reserved offset reaches none. -/
theorem readOnlyRegistersIgnoreWrites : Obligations.ReadOnlyRegistersIgnoreWrites := by
  intro s v addr haddr
  have hreadOnly (r : Reg) (hoff : addr.toNat = regOffset r) (hsame : s.writeReg r v = s) :
      hostTurn (.write .w32 addr v) s = .next (s.respond .ack) := by
    rw [addr_eq_of_regOffset hoff]
    exact (hostTurn_WR r v s).trans (by rw [hsame])
  obtain h | h | h | h | h | h | ⟨hlo, hhi, halign⟩ := haddr
  · exact hreadOnly .id h rfl
  · exact hreadOnly .resAddr h rfl
  · exact hreadOnly .resLen h rfl
  · exact hreadOnly .resOpcode h rfl
  · exact hreadOnly .errInfo h rfl
  · exact hreadOnly .bufSize h rfl
  · exact hostTurn_write_register v (busTarget_reserved s.build hlo hhi halign)

/-! ### `IRQ` (R49) -/

/-- Settles O57: `IRQ` is the conjunction of two bits, and each write changes one of them, or none. -/
theorem interruptIsALevel : Obligations.InterruptIsALevel := by
  refine fun s t v => ⟨by simp [State.irq], fun h hbit => ?_, fun h hidle => ?_, fun h hbusy => ?_,
    fun h hsrst hie => ?_⟩
  · rw [hostTurn_write_status] at h
    obtain rfl := Host.Outcome.next.inj h
    simp [State.irq, hbit]
  · rw [hostTurn_cmd, writeCmd_of_idle v hidle] at h
    obtain rfl := Host.Outcome.next.inj h
    exact s.issue_irq v
  · rw [hostTurn_cmd, writeCmd_of_busy v hbusy] at h
    obtain rfl := Host.Outcome.next.inj h
    rfl
  · rw [hostTurn_ctrl_ie s hsrst] at h
    obtain rfl := Host.Outcome.next.inj h
    simp [State.irq, hie]

end Sys2Proof.Machine
end

section
/-! What a step does (spec/20_memory.md R86, spec/48_control.md R253): whose turn it is, and for each kind of turn what
it keeps; the invariant of the block. From this follow the proofs of `Obligations.StepKeepsInvariant`,
`Obligations.ResetMeetsInvariant`, `Obligations.StepRunsTheDecodedCommand`, `Obligations.FetchedWordIsRun`,
`Obligations.BuildNeverChanges`, `Obligations.InFlightCommandIsProtected` and
`Obligations.BusyAndOverrunFallOnlyAsStated`. -/

namespace Sys2Proof.Machine

/-! ### Whose turn it is -/

theorem step_of_no_turn {s : State} (hwf : s.build.wellFormed = true) (hagenda : s.agenda = []) :
    step s = engineTurn s := by
  simp only [step, hwf, if_true, hagenda]

theorem step_of_engine {s : State} {rest : List Turn} (hwf : s.build.wellFormed = true)
    (hagenda : s.agenda = .engine :: rest) : step s = engineTurn { s with agenda := rest } := by
  simp only [step, hwf, if_true, hagenda]

theorem step_of_host {s : State} {op : BusOp} {rest : List Turn} (hwf : s.build.wellFormed = true)
    (hagenda : s.agenda = .host op :: rest) : step s = hostTurn op { s with agenda := rest } := by
  simp only [step, hwf, if_true, hagenda]

theorem engineTurn_of_busy {s : State} (h : s.status.busy = true) : engineTurn s = engineStep s := if_pos h

theorem engineTurn_of_idle {s : State} (h : s.status.busy = false) : engineTurn s = .next s :=
  if_neg (Bool.eq_false_iff.1 h)

/-- The engine's turn leaves an idle block as it is, or performs a command (R253, R296). -/
theorem engineTurn_performed {s t : State} (h : engineTurn s = .next t) :
    (s.status.busy = false ∧ t = s) ∨ ∃ i, Performed s i t := by
  cases hbusy : s.status.busy with
  | false =>
    rw [engineTurn_of_idle hbusy] at h
    exact .inl ⟨rfl, (Host.Outcome.next.inj h).symm⟩
  | true =>
    rw [engineTurn_of_busy hbusy] at h
    exact .inr (engineStep_performed h)

/-- Settles O6: the step by its turn, and the engine's turn by `BUSY` and the decoder's answer. -/
theorem stepRunsTheDecodedCommand : Obligations.StepRunsTheDecodedCommand := by
  refine fun s hwf => ⟨fun i hbusy hdec => ⟨fun hagenda => ?_, fun rest hagenda => ?_⟩,
    fun hbusy => ⟨fun hagenda => ?_, fun rest hagenda => ?_⟩,
    fun hidle => ⟨fun hagenda => ?_, fun rest hagenda => ?_⟩, fun op rest => step_of_host hwf⟩
  · rw [step_of_no_turn hwf hagenda, engineTurn_of_busy hbusy, engineStep_of_command hdec]
  · rw [step_of_engine hwf hagenda, engineTurn_of_busy (s := { s with agenda := rest }) hbusy,
      engineStep_of_command (s := { s with agenda := rest }) hdec]
  · rw [step_of_no_turn hwf hagenda, engineTurn_of_busy hbusy]
  · rw [step_of_engine hwf hagenda, engineTurn_of_busy (s := { s with agenda := rest }) hbusy]
  · rw [step_of_no_turn hwf hagenda, engineTurn_of_idle hidle]
  · rw [step_of_engine hwf hagenda, engineTurn_of_idle (s := { s with agenda := rest }) hidle]

theorem decodeTableWord_eq_some {nbits w : Nat} {i : Instr} :
    decodeTableWord nbits w = some i ↔ decodeCmd (BitVec.ofNat 32 (w % 2 ^ nbits)) = .ok i := by
  unfold decodeTableWord
  split <;> simp [*]

/-- Settles O7: the placed word is in flight and the engine has the turn. -/
theorem fetchedWordIsRun : Obligations.FetchedWordIsRun := by
  intro s w i hwf hdec
  obtain ⟨hrun, -⟩ := stepRunsTheDecodedCommand (s.withFetchWord 32 w) hwf
  exact (hrun i rfl (decodeTableWord_eq_some.1 hdec)).2 s.agenda rfl

/-! ### What a host turn does to registers and memory -/

/-- Everything a register write can do: the soft reset, an issue, a dropped issue, a clearing of flags, or a change of
`IE` and the operands at most (R34 to R44). -/
theorem State.writeReg_cases (s : State) (r : Reg) (v : Word) :
    (r = .ctrl ∧ v.getLsbD 1 = true ∧ s.writeReg r v = s.softReset) ∨
    (r = .cmd ∧ s.status.busy = false ∧ s.writeReg r v = s.issue v) ∨
    (r = .cmd ∧ s.status.busy = true ∧ s.writeReg r v = { s with status := s.status.dropped }) ∨
    (r = .status ∧ s.writeReg r v = { s with status := s.status.writeOneToClear v }) ∨
    ∃ ie opnd, s.writeReg r v = { s with ie := ie, opnd := opnd } := by
  cases r with
  | ctrl =>
    cases hv : v.getLsbD 1 with
    | true => exact .inl ⟨rfl, rfl, if_pos hv⟩
    | false =>
      refine .inr (.inr (.inr (.inr ⟨v.getLsbD 0, s.opnd, ?_⟩)))
      exact if_neg (Bool.eq_false_iff.1 hv)
  | cmd =>
    cases hbusy : s.status.busy with
    | true => exact .inr (.inr (.inl ⟨rfl, rfl, writeCmd_of_busy v hbusy⟩))
    | false => exact .inr (.inl ⟨rfl, rfl, writeCmd_of_idle v hbusy⟩)
  | status => exact .inr (.inr (.inr (.inl ⟨rfl, rfl⟩)))
  | _ => exact .inr (.inr (.inr (.inr ⟨_, _, rfl⟩)))

/-- A host turn that moves `STATUS` is a register write, at the register's offset. -/
theorem hostTurn_status {s t : State} {op : BusOp} (h : hostTurn op s = .next t) :
    t.status = s.status ∨
    ∃ addr v r, op = .write .w32 addr v ∧ addr.toNat = regOffset r ∧ t.status = (s.writeReg r v).status := by
  cases op with
  | read w addr =>
    obtain ⟨n, r, -, rfl⟩ := hostTurn_read_next h
    exact .inl rfl
  | write w addr v =>
    simp only [hostTurn] at h
    split at h
    case h_1 r htarget =>
      obtain rfl := Host.Outcome.next.inj h
      cases r with
      | none => exact .inl rfl
      | some r =>
        obtain ⟨rfl, hoff⟩ := busTarget_eq_register htarget
        exact .inr ⟨addr, v, r, rfl, hoff, rfl⟩
    case h_2 =>
      obtain ⟨-, -, rfl⟩ := busWriteBytes_next h
      exact .inl rfl
    case h_3 =>
      obtain ⟨-, -, rfl⟩ := busWriteBytes_next h
      exact .inl rfl
    case h_4 =>
      obtain rfl := Host.Outcome.next.inj h
      exact .inl rfl

/-! ### The build (R33) -/

theorem engineTurn_build {s t : State} (h : engineTurn s = .next t) : t.build = s.build := by
  obtain ⟨-, rfl⟩ | ⟨i, ⟨u, hchange, hcompletes⟩, -⟩ := engineTurn_performed h
  · rfl
  · rw [hcompletes.build, hchange.build]

theorem State.writeReg_build (s : State) (r : Reg) (v : Word) : (s.writeReg r v).build = s.build := by
  obtain ⟨-, -, h⟩ | ⟨-, -, h⟩ | ⟨-, -, h⟩ | ⟨-, h⟩ | ⟨ie, opnd, h⟩ := s.writeReg_cases r v <;> rw [h] <;> rfl

theorem hostTurn_build {s t : State} {op : BusOp} (h : hostTurn op s = .next t) : t.build = s.build := by
  obtain ⟨n, r, rfl⟩ | ⟨r, v, rfl⟩ | ⟨i, bs, -, -, rfl⟩ := hostTurn_next h
  · rfl
  · exact s.writeReg_build r v
  · rfl

/-- Settles O40: no turn touches the build. -/
theorem buildNeverChanges : Obligations.BuildNeverChanges := by
  intro s t h
  obtain ⟨-, ⟨-, h⟩ | ⟨op, rest, -, h⟩ | ⟨rest, -, h⟩ | ⟨rest, -, rfl⟩⟩ := step_next h
  · exact engineTurn_build h
  · rw [hostTurn_build h]
  · rw [engineTurn_build h]
  · rfl

/-! ### The invariant -/

/-- Settles O2: after reset nothing is written, no frame is open and no flag is set. -/
theorem resetMeetsInvariant : Obligations.ResetMeetsInvariant := by
  have hframe : State.reset.FrameInv := fun h => absurd h Bool.false_ne_true
  exact ⟨by decide, ⟨rfl, rfl⟩, hframe, by decide, Nat.zero_le _⟩

section

variable {s u t : State} {i : Instr}

/-- A region written by a change lies in the buffer (R77, R46). -/
theorem Change.memInv (h : Change s i u) (hmem : s.MemInv) (hframe : s.FrameInv) : u.MemInv := by
  cases h with
  | stored out hi hok hlen =>
    have hrange := hok.2.1
    exact memInv_written _ out hmem (.inr (by simp only [InRange] at hrange ⊢; omega))
  | appended bs hi hopen hroom =>
    obtain ⟨-, hregion⟩ := hframe hopen
    exact memInv_written _ bs hmem (.inr (by simp only [InRange]; omega))
  | _ => exact hmem

/-- The cursor moves over the appended bytes, which fit; a frame is opened empty and in range (R201 to R203). -/
theorem Change.frameInv (h : Change s i u) (hframe : s.FrameInv) : u.FrameInv := by
  cases h with
  | appended bs hi hopen hroom =>
    intro _
    exact ⟨(toNat_ofNat_le _).trans hroom, (hframe hopen).2⟩
  | opened hi hrange => exact fun _ => ⟨Nat.zero_le _, hrange⟩
  | closed hi => exact fun h => absurd h Bool.false_ne_true
  | _ => exact hframe

theorem Completes.frameInv (h : Completes u t) (hframe : u.FrameInv) : t.FrameInv := by
  rwa [State.FrameInv, h.frameOpen, h.frame, h.build]

theorem Completes.memInv (h : Completes u t) (hmem : u.MemInv) : t.MemInv := by
  rwa [State.MemInv, h.buf, h.build]

theorem Completes.flagInv (h : Completes u t) : t.FlagInv :=
  ⟨fun hbusy => absurd (h.busy.symm.trans hbusy) Bool.false_ne_true, h.err_iff.1, h.sub_zero, h.code_le, h.sub_le⟩

theorem Performed.inv (h : Performed s i t) (hs : s.Inv) : t.Inv := by
  obtain ⟨hwf, hmem, hframe, -, hres⟩ := hs
  obtain ⟨⟨u, hchange, hcompletes⟩, hresult⟩ := h
  refine ⟨?_, hcompletes.memInv (hchange.memInv hmem hframe), hcompletes.frameInv (hchange.frameInv hframe),
    hcompletes.flagInv, hresult hframe hres⟩
  rwa [hcompletes.build, hchange.build]

end

theorem engineTurn_inv {s t : State} (h : engineTurn s = .next t) (hs : s.Inv) : t.Inv := by
  obtain ⟨-, rfl⟩ | ⟨i, hi⟩ := engineTurn_performed h
  · exact hs
  · exact hi.inv hs

/-- `STATUS` writes only clear flags, so no flag is set while `BUSY` is, and no code without its error (R37). -/
theorem flagInv_writeOneToClear {s : State} (v : Word) (hs : s.FlagInv) :
    State.FlagInv { s with status := s.status.writeOneToClear v } := by
  obtain ⟨hbusy, herr, hzero, hcode, hsub⟩ := hs
  refine ⟨fun h => ?_, fun h => herr (Bool.and_eq_true_iff.1 h).1, hzero, hcode, hsub⟩
  obtain ⟨hdone, herr, hcodes⟩ := hbusy h
  exact ⟨by simp [hdone], by simp [herr], hcodes⟩

theorem State.softReset_inv {s : State} (hs : s.Inv) : s.softReset.Inv := by
  obtain ⟨hwf, ⟨hcanonical, hwithin⟩, -⟩ := hs
  have hframe : s.softReset.FrameInv := fun h => absurd h Bool.false_ne_true
  have hbuf : Memory.within s.build.bufBytes s.softReset.buf = true :=
    Memory.scramble_within _ _ _ _ _ (by omega) hwithin
  exact ⟨hwf, ⟨Memory.scramble_wf _ _ _ _ hcanonical, hbuf⟩, hframe, by simp [State.FlagInv], Nat.zero_le _⟩

theorem State.writeReg_inv {s : State} (r : Reg) (v : Word) (hs : s.Inv) : (s.writeReg r v).Inv := by
  obtain ⟨-, -, h⟩ | ⟨-, -, h⟩ | ⟨-, -, h⟩ | ⟨-, h⟩ | ⟨ie, opnd, h⟩ := s.writeReg_cases r v <;> rw [h]
  · exact State.softReset_inv hs
  all_goals obtain ⟨hwf, hmem, hframe, hflags, hres⟩ := hs
  · exact ⟨hwf, hmem, hframe, by simp [State.FlagInv], hres⟩
  · exact ⟨hwf, hmem, hframe, hflags, hres⟩
  · exact ⟨hwf, hmem, hframe, flagInv_writeOneToClear v hflags, hres⟩
  · exact ⟨hwf, hmem, hframe, hflags, hres⟩

theorem hostTurn_inv {s t : State} {op : BusOp} (h : hostTurn op s = .next t) (hs : s.Inv) : t.Inv := by
  obtain ⟨n, r, rfl⟩ | ⟨r, v, rfl⟩ | ⟨i, bs, -, hrange, rfl⟩ := hostTurn_next h
  · exact hs
  · exact State.writeReg_inv r v hs
  · obtain ⟨hwf, hmem, hrest⟩ := hs
    exact ⟨hwf, memInv_written i bs hmem hrange, hrest⟩

theorem State.hardReset_inv {s : State} (hwf : s.build.wellFormed = true) : s.hardReset.Inv := by
  have hframe : s.hardReset.FrameInv := fun h => absurd h Bool.false_ne_true
  exact ⟨hwf, ⟨rfl, rfl⟩, hframe, by simp [State.FlagInv], Nat.zero_le _⟩

/-- Settles O39: each kind of turn keeps the invariant, which does not speak of the agenda. -/
theorem stepKeepsInvariant : Obligations.StepKeepsInvariant := by
  intro s t hs h
  obtain ⟨hwf, ⟨-, h⟩ | ⟨op, rest, -, h⟩ | ⟨rest, -, h⟩ | ⟨rest, -, rfl⟩⟩ := step_next h
  · exact engineTurn_inv h hs
  · exact hostTurn_inv h hs
  · exact engineTurn_inv h hs
  · exact State.hardReset_inv hwf

/-! ### `BUSY` and `OVERRUN` (R37) -/

/-- The engine's turn leaves the block idle, and `OVERRUN` as it was. -/
theorem engineTurn_flags {s t : State} (h : engineTurn s = .next t) :
    t.status.busy = false ∧ t.status.overrun = s.status.overrun := by
  obtain ⟨hidle, rfl⟩ | ⟨i, ⟨u, hchange, hcompletes⟩, -⟩ := engineTurn_performed h
  · exact ⟨hidle, rfl⟩
  · exact ⟨hcompletes.busy, by rw [hcompletes.overrun, hchange.rest]⟩

/-- A register write clears `BUSY` only as a soft reset, and `OVERRUN` only so or as a `STATUS` write with bit 3 set. -/
theorem State.writeReg_flags (s : State) (r : Reg) (v : Word) :
    (s.status.busy = true → (s.writeReg r v).status.busy = false → r = .ctrl ∧ v.getLsbD 1 = true) ∧
    (s.status.overrun = true → (s.writeReg r v).status.overrun = false →
      (r = .ctrl ∧ v.getLsbD 1 = true) ∨ (r = .status ∧ v.getLsbD 3 = true)) := by
  obtain ⟨hr, hv, -⟩ | ⟨-, -, h⟩ | ⟨-, -, h⟩ | ⟨hr, h⟩ | ⟨ie, opnd, h⟩ := s.writeReg_cases r v
  · exact ⟨fun _ _ => ⟨hr, hv⟩, fun _ _ => .inl ⟨hr, hv⟩⟩
  all_goals rw [h]
  · exact ⟨fun _ ht => by simp at ht, fun hs ht => by simp [hs] at ht⟩
  · exact ⟨fun hs ht => by simp [hs] at ht, fun _ ht => by simp at ht⟩
  · exact ⟨fun hs ht => by simp [hs] at ht, fun hs ht => .inr ⟨hr, by simpa [hs] using ht⟩⟩
  · exact ⟨fun hs ht => by simp [hs] at ht, fun hs ht => by simp [hs] at ht⟩

/-- Settles O42: the engine's turn and the hard reset aside, it was a register write. -/
theorem busyAndOverrunFallOnlyAsStated : Obligations.BusyAndOverrunFallOnlyAsStated := by
  intro s t h
  obtain ⟨-, ⟨hagenda, h⟩ | ⟨op, rest, hagenda, h⟩ | ⟨rest, hagenda, h⟩ | ⟨rest, hagenda, rfl⟩⟩ := step_next h
  · obtain ⟨-, hoverrun⟩ := engineTurn_flags h
    exact ⟨fun _ _ => .inl hagenda, fun hs ht => by simp [hoverrun, hs] at ht⟩
  · obtain hsame | ⟨addr, v, r, rfl, hoff, hstatus⟩ := hostTurn_status h
    · rw [hsame]
      exact ⟨fun hs ht => by simp [hs] at ht, fun hs ht => by simp [hs] at ht⟩
    · obtain ⟨hbusy, hoverrun⟩ := State.writeReg_flags { s with agenda := rest } r v
      rw [hstatus]
      refine ⟨fun hs ht => ?_, fun hs ht => ?_⟩
      · obtain ⟨rfl, hv⟩ := hbusy hs ht
        exact .inr (.inr (.inr ⟨addr, v, rest, hagenda, hoff, hv⟩))
      · obtain ⟨rfl, hv⟩ | ⟨rfl, hv⟩ := hoverrun hs ht
        · exact .inr ⟨addr, v, rest, hagenda, .inl ⟨hoff, hv⟩⟩
        · exact .inr ⟨addr, v, rest, hagenda, .inr ⟨hoff, hv⟩⟩
  · obtain ⟨-, hoverrun⟩ := engineTurn_flags h
    exact ⟨fun _ _ => .inr (.inl ⟨rest, hagenda⟩), fun hs ht => by simp [hoverrun, hs] at ht⟩
  · exact ⟨fun _ _ => .inr (.inr (.inl ⟨rest, hagenda⟩)), fun _ _ => .inl ⟨rest, hagenda⟩⟩

/-! ### The command in flight (R252, R331, R334) -/

/-- A register write that leaves the block busy leaves the command in flight alone. -/
theorem State.writeReg_protects {s : State} {r : Reg} {v : Word} (hbusy : s.status.busy = true)
    (ht : (s.writeReg r v).status.busy = true) :
    (s.writeReg r v).latCmd = s.latCmd ∧ (s.writeReg r v).lat = s.lat ∧ (s.writeReg r v).frame = s.frame ∧
      (s.writeReg r v).status.frameOpen = s.status.frameOpen ∧ (s.writeReg r v).buf = s.buf := by
  obtain ⟨-, -, h⟩ | ⟨-, hidle, -⟩ | ⟨-, -, h⟩ | ⟨-, h⟩ | ⟨ie, opnd, h⟩ := s.writeReg_cases r v
  · simp [h] at ht
  · simp [hbusy] at hidle
  all_goals
    rw [h]
    exact ⟨rfl, rfl, rfl, rfl, rfl⟩

/-- Settles O41: a step that leaves the block busy is a host turn, which writes outside the in-flight regions. -/
theorem inFlightCommandIsProtected : Obligations.InFlightCommandIsProtected := by
  intro s t h hs ht
  obtain ⟨-, ⟨-, h⟩ | ⟨op, rest, -, h⟩ | ⟨rest, -, h⟩ | ⟨rest, -, rfl⟩⟩ := step_next h
  · simp [(engineTurn_flags h).1] at ht
  · obtain ⟨n, r, rfl⟩ | ⟨r, v, rfl⟩ | ⟨i, bs, hfree, -, rfl⟩ := hostTurn_next h
    · exact ⟨rfl, rfl, rfl, rfl, fun _ _ => rfl⟩
    · obtain ⟨hcmd, hlat, hframe, hopen, hbuf⟩ := State.writeReg_protects (s := { s with agenda := rest }) hs ht
      exact ⟨hcmd, hlat, hframe, hopen, fun x _ => congrArg (·.read? x) hbuf⟩
    · refine ⟨rfl, rfl, rfl, rfl, fun x hx => Memory.read?_writeList_outside bs s.buf i x fun hin => ?_⟩
      obtain ⟨k, rfl⟩ := Nat.exists_eq_add_of_le hin.1
      obtain ⟨hsrc, hdst⟩ := hfree k (by omega)
      exact hx.elim hsrc hdst
  · simp [(engineTurn_flags h).1] at ht
  · simp at ht

end Sys2Proof.Machine
end

section
/-! `ENCODE` and `DECODE` case by case (spec/40_huffman.md R145 to R147): their errors in order, the form of an encoded
stream, and how a coded stream is decoded; the proofs of `Obligations.EncodeWritesTheStream`,
`Obligations.EncodeErrorsInOrder`, `Obligations.EncodedStreamForm`, `Obligations.DecodeErrorsBeforeTheBits`,
`Obligations.DecodeRawEscape` and `Obligations.DecodeCodedStream`. -/

namespace Sys2Proof.Machine

/-! ### A transform's command with its fields written out -/

theorem runTransform_of_source {f : Build → Operands → List Byte → Completion} {s : State} {inp : List Byte}
    (hok : s.RegionsOk) (hsrc : s.SourceIs inp) :
    runTransform f s = .next ((f s.build s.lat inp).onto s) :=
  runTransform_next.2 (.inr ⟨hok, inp, hsrc, rfl⟩)

/-- The region errors of a codec command, in their order (R286). -/
theorem runTransform_regionErrors (f : Build → Operands → List Byte → Completion) (s : State) :
    (¬ InRange s.build s.lat.srcAddr.toNat s.lat.srcLen.toNat →
      runTransform f s = .next (errorResult s 3 1 0 0 0)) ∧
    (InRange s.build s.lat.srcAddr.toNat s.lat.srcLen.toNat →
      ¬ InRange s.build s.lat.dstAddr.toNat s.lat.dstCap.toNat →
      runTransform f s = .next (errorResult s 3 2 0 0 0)) ∧
    (InRange s.build s.lat.srcAddr.toNat s.lat.srcLen.toNat →
      InRange s.build s.lat.dstAddr.toNat s.lat.dstCap.toNat →
      Overlap s.lat.srcAddr.toNat s.lat.srcLen.toNat s.lat.dstAddr.toNat s.lat.dstCap.toNat →
      runTransform f s = .next (errorResult s 4 0 0 0 0)) := by
  refine ⟨fun hsrc => ?_, fun hsrc hdst => ?_, fun hsrc hdst hover => ?_⟩
  · rw [runTransform, if_neg fun hok => hsrc hok.1, regionError, if_pos hsrc]
    rfl
  · rw [runTransform, if_neg fun hok => hdst hok.2.1, regionError, if_neg (not_not_intro hsrc), if_pos hdst]
    rfl
  · rw [runTransform, if_neg fun hok => hok.2.2 hover, regionError, if_neg (not_not_intro hsrc),
      if_neg (not_not_intro hdst)]
    rfl

/-- A success of a transform: the result region reported, the bytes in it, no other cell written (R281). -/
theorem exec_of_success {i : Instr} {s : State} {out : List Byte}
    (h : exec i s = .next ((Completion.success out s.lat.dstAddr).onto s)) :
    ∃ t, exec i s = .next t ∧ t = { successResult s s.lat.dstAddr (BitVec.ofNat 32 out.length) with buf := t.buf } ∧
      t.HoldsBytes s.lat.dstAddr.toNat out ∧ SameOutside s t s.lat.dstAddr.toNat out.length :=
  ⟨_, h, rfl, Completion.onto_holdsBytes _ s, (Completion.onto_bounds s le_rfl).2⟩

/-- An error of a transform with a partial result (R282). -/
theorem exec_of_failure {i : Instr} {s : State} {e : ErrorCode} {sub : BitVec 4} {info : Word} {out : List Byte}
    (h : exec i s = .next ((Completion.failure e sub info out s.lat.dstAddr).onto s)) :
    ∃ t, exec i s = .next t ∧
      t = { errorResult s (errorCode e) sub info s.lat.dstAddr (BitVec.ofNat 32 out.length) with buf := t.buf } ∧
      t.HoldsBytes s.lat.dstAddr.toNat out ∧ SameOutside s t s.lat.dstAddr.toNat out.length :=
  ⟨_, h, rfl, Completion.onto_holdsBytes _ s, (Completion.onto_bounds s le_rfl).2⟩

/-! ### `ENCODE` -/

/-- Settles O13: the transform of a source whose stream fits. -/
theorem encodeWritesTheStream : Obligations.EncodeWritesTheStream := by
  intro s inp hok hsrc hfits
  refine exec_of_success ?_
  rw [exec_encode_eq, runTransform_of_source hok hsrc, encodeResult, if_neg (not_lt.2 hfits)]

/-- Settles O14: the region errors, then the transform of a source whose stream does not fit. -/
theorem encodeErrorsInOrder : Obligations.EncodeErrorsInOrder := by
  intro s
  rw [exec_encode_eq]
  obtain ⟨hsrc, hdst, hover⟩ := runTransform_regionErrors encodeResult s
  refine ⟨hsrc, hdst, hover, fun inp hok hinp hfull => ?_⟩
  rw [runTransform_of_source hok hinp, encodeResult, if_pos hfull]
  rfl

theorem ceil8_eq {x m : Nat} (hle : x ≤ 8 * m) (hlt : 8 * m < x + 8) : ceil8 x = m := by
  unfold ceil8
  omega

/-- Settles O15: the two forms of a stream, whose data bytes unpack to the padded codes. -/
theorem encodedStreamForm : Obligations.EncodedStreamForm := by
  intro t raw inp m hle hlt
  obtain rfl := ceil8_eq hle hlt
  unfold encodeStream
  dsimp only
  refine ⟨fun hraw => by rw [if_pos hraw]; rfl, fun hcoded => ?_⟩
  have hpad := padding_toNat (inp.flatMap t.code).length
  rw [if_neg hcoded]
  refine ⟨_, _, rfl, packBytes_length _ _, hpad.trans_le (ceil8_padding _).2, hpad, ?_⟩
  rw [unpackBytes_packBytes (length_padded _), hpad]

/-! ### `DECODE` before the bits -/

/-- Settles O17: the region errors, then the transform of a source with a bad header. -/
theorem decodeErrorsBeforeTheBits : Obligations.DecodeErrorsBeforeTheBits := by
  intro s
  rw [exec_decode_eq]
  obtain ⟨hsrc, hdst, hover⟩ := runTransform_regionErrors decodeResult s
  refine ⟨hsrc, hdst, hover, fun hok hempty => ?_, fun h data hok hin hge hle => ?_, fun h hok hin hge hle => ?_⟩
  · have hin : s.SourceIs [] := ⟨by simp [hempty], fun k hk => absurd hk (Nat.not_lt_zero k)⟩
    rw [runTransform_of_source hok hin]
    rfl
  · have hraw : h ≠ rawHeader := fun he => by simp [he, rawHeader] at hle
    rw [runTransform_of_source hok hin, decodeResult, if_neg hraw, if_pos hge]
    rfl
  · have hraw : h ≠ rawHeader := fun he => by simp [he, rawHeader] at hle
    have hzero : h ≠ 0 := fun he => by simp [he] at hge
    rw [runTransform_of_source hok hin, decodeResult, if_neg hraw, if_neg (by omega), if_pos ⟨rfl, hzero⟩]
    rfl

/-- Settles O18: the transform of a raw escape that fits, and of one that does not. -/
theorem decodeRawEscape : Obligations.DecodeRawEscape := by
  intro s body hok hsrc
  have hexec : exec .decode s = .next ((rawResult s.lat body).onto s) := by
    rw [exec_decode_eq, runTransform_of_source hok hsrc, decodeResult,
      if_pos (show (0xFF : Byte) = rawHeader from rfl)]
  refine ⟨fun hfits => ?_, fun hfull => ?_⟩
  · rw [rawResult, if_neg (not_lt.2 hfits)] at hexec
    exact exec_of_success hexec
  · rw [rawResult, if_pos hfull] at hexec
    have hpart := exec_of_failure hexec
    rwa [List.length_take_of_le hfull.le, BitVec.ofNat_toNat, BitVec.setWidth_eq] at hpart

/-! ### The walk where the bits do not end with a code (R147) -/

/-- The walk over codes with more bits to come (R147, R148). -/
theorem walk_codes_append (freq : Vector Nat 256) {c : Nat} (bs : List Byte) (rest : List Bool) {i : Nat}
    {out : List Byte} (hroom : out.length + bs.length ≤ c) :
    walk (buildTree freq) c (bs.flatMap (buildTree freq).code ++ rest) i none i out =
      walk (buildTree freq) c rest (i + (bs.flatMap (buildTree freq).code).length) none
        (i + (bs.flatMap (buildTree freq).code).length) (out ++ bs) := by
  induction bs generalizing i out with
  | nil => simp
  | cons x bs ih =>
    rw [List.length_cons] at hroom
    have hpath := buildTree_path? freq x
    obtain ⟨b, p, hcode⟩ := List.exists_cons_of_ne_nil (code_ne_nil freq x)
    rw [hcode] at hpath
    have hfree : out.length ≠ c := by omega
    rw [List.flatMap_cons, hcode, List.append_assoc,
      walk_path (t := buildTree freq) (node := none) hpath hfree, ih (by simp; omega), List.append_assoc]
    simp only [List.length_append, List.length_cons, Nat.add_assoc, List.singleton_append]

/-- The walk over a code with no room for its byte stops with the bit the code starts at (R147). -/
theorem walk_overflow {t : Tree} {x : Byte} {b : Bool} {p rest : List Bool} {i start : Nat} {node : Option Tree}
    {out : List Byte} (hpath : (node.getD t).path? x = some (b :: p)) :
    walk t out.length (b :: p ++ rest) i node start out = (out, .overflow start) := by
  induction p generalizing b i node with
  | nil =>
    have hleaf := Tree.follow_path hpath
    simp only [Tree.follow] at hleaf
    simp [walk, hleaf]
  | cons b' p ih =>
    have hchild := Tree.path?_child hpath
    match hnode : (node.getD t).child b with
    | .leaf s => simp [hnode] at hchild
    | .node l r =>
      rw [List.cons_append, walk, hnode]
      rw [hnode] at hchild
      exact ih (node := some (.node l r)) hchild

/-- A path from the child of `b` goes on one that begins with `b`, where no byte is at two leaves (R142). -/
theorem Tree.path?_of_child {l r : Tree} {b : Bool} {x : Byte} {p : List Bool}
    (hnodup : (Tree.node l r).leaves.Nodup) (h : ((Tree.node l r).child b).path? x = some p) :
    (Tree.node l r).path? x = some (b :: p) := by
  cases b with
  | false => exact Tree.path?_node_left r h
  | true => exact Tree.path?_node_right_of_nodup hnodup h

theorem Tree.child_leaves_nodup {l r : Tree} (b : Bool) (hnodup : (Tree.node l r).leaves.Nodup) :
    ((Tree.node l r).child b).leaves.Nodup := by
  obtain ⟨hl, hr, -⟩ := List.nodup_append.1 hnodup
  cases b with
  | false => exact hl
  | true => exact hr

/-- The walk over bits that no path from its node begins ends inside a code (R147). -/
theorem walk_truncated {t : Tree} {c : Nat} {bits : List Bool} {i start : Nat} {node : Option Tree} {out : List Byte}
    (hnodup : (node.getD t).leaves.Nodup) (hinside : bits = [] → node ≠ none)
    (hno : ∀ x p, (node.getD t).path? x = some p → ¬ p <+: bits) :
    walk t c bits i node start out = (out, .truncated start) := by
  induction bits generalizing i node with
  | nil =>
    obtain ⟨n, rfl⟩ := Option.ne_none_iff_exists'.1 (hinside rfl)
    rfl
  | cons b bits ih =>
    match hnode : node.getD t with
    | .leaf s => exact absurd List.nil_prefix (hno s [] (by simp [hnode]))
    | .node l r =>
      rw [hnode] at hnodup hno
      have hchild : ∀ x p, ((Tree.node l r).child b).path? x = some p → ¬ p <+: bits := fun x p hp hpre =>
        hno x (b :: p) (Tree.path?_of_child hnodup hp) (List.cons_prefix_cons.2 ⟨rfl, hpre⟩)
      have hnodup' := Tree.child_leaves_nodup b hnodup
      rw [walk, hnode]
      match hb : (Tree.node l r).child b with
      | .leaf s => exact absurd List.nil_prefix (hchild s [] (by simp [hb]))
      | .node l' r' =>
        rw [hb] at hchild hnodup'
        exact ih (node := some (.node l' r')) hnodup' (fun _ => by simp) hchild

/-! ### `DECODE` of a coded stream -/

theorem exec_decode_coded {s : State} {h : Byte} {data : List Byte} (hok : s.RegionsOk)
    (hsrc : s.SourceIs (h :: data)) (hhead : h.toNat ≤ 7) (hdata : data ≠ [] ∨ h = 0) :
    exec .decode s =
      .next ((walkResult s.lat (decodeCoded (buildTree s.build.freq) s.lat.dstCap.toNat h data).1
        (decodeCoded (buildTree s.build.freq) s.lat.dstCap.toNat h data).2).onto s) := by
  have hraw : h ≠ rawHeader := fun he => by simp [he, rawHeader] at hhead
  have hlone : ¬ (data = [] ∧ h ≠ 0) := fun ⟨hnil, hne⟩ => hdata.elim (fun hd => hd hnil) hne
  rw [exec_decode_eq, runTransform_of_source hok hsrc, decodeResult, if_neg hraw, if_neg (by omega), if_neg hlone]

/-- Settles O19: the walk over the codes, and how it ends on what follows them. -/
theorem decodeCodedStream : Obligations.DecodeCodedStream := by
  intro s h data hok hsrc hhead hdata
  have hexec := exec_decode_coded hok hsrc hhead hdata
  have hnodup := buildTree_leaves_nodup s.build.freq
  refine ⟨fun out hbits hfits => ?_, fun out rest hbits hne hno hfits => ?_, fun out x rest hbits hfull => ?_⟩
  · have hwalk : decodeCoded (buildTree s.build.freq) s.lat.dstCap.toNat h data = (out, .complete) := by
      rw [decodeCoded, meaningfulBits, hbits, walk_codes s.build.freq out (by simpa using hfits), List.nil_append]
    rw [hwalk] at hexec
    exact exec_of_success hexec
  · have hwalk : decodeCoded (buildTree s.build.freq) s.lat.dstCap.toNat h data =
        (out, .truncated (out.flatMap (buildTree s.build.freq).code).length) := by
      rw [decodeCoded, meaningfulBits, hbits, walk_codes_append s.build.freq out rest (by simpa using hfits),
        Nat.zero_add, List.nil_append]
      refine walk_truncated (node := none) hnodup (fun hnil => absurd hnil hne) fun x p hp => ?_
      obtain rfl : (buildTree s.build.freq).code x = p := Option.some.inj ((buildTree_path? _ x).symm.trans hp)
      exact hno x
    rw [hwalk] at hexec
    exact exec_of_failure hexec
  · have hwalk : decodeCoded (buildTree s.build.freq) s.lat.dstCap.toNat h data =
        (out, .overflow (out.flatMap (buildTree s.build.freq).code).length) := by
      have hpath := buildTree_path? s.build.freq x
      obtain ⟨b, p, hcode⟩ := List.exists_cons_of_ne_nil (code_ne_nil s.build.freq x)
      rw [decodeCoded, meaningfulBits, hbits, List.append_assoc,
        walk_codes_append s.build.freq out _ (by simpa using hfull.le), Nat.zero_add, List.nil_append, ← hfull, hcode]
      rw [hcode] at hpath
      exact walk_overflow (node := none) hpath
    rw [hwalk] at hexec
    have hpart := exec_of_failure hexec
    rwa [hfull, BitVec.ofNat_toNat, BitVec.setWidth_eq] at hpart

end Sys2Proof.Machine
end

section
/-! Picking from the pool and the leaves of the built tree (spec/40_huffman.md R141): the proofs of
`Obligations.LeastEntryIsPicked` and `Obligations.TreeHasEachByteOnce`. -/

namespace Sys2Proof.Machine

/-- Settles O20: the pick loses no entry, and with distinct numbers it is before all the others. -/
theorem leastEntryIsPicked : Obligations.LeastEntryIsPicked :=
  fun e p hids => ⟨takeLeast_perm e p, takeLeast_before hids⟩

/-- Settles O21: the merges lose no leaf. -/
theorem treeHasEachByteOnce : Obligations.TreeHasEachByteOnce := buildTree_leaves_perm

end Sys2Proof.Machine
end

section
/-! How an engine step can end (spec/48_control.md R253, spec/20_memory.md R83), and what it does not look at
(spec/10_state.md R46): reads of a region in the buffer, that every command completes or reads an unwritten cell, and
that the codec does the same whatever the frame state; the proofs of
`Obligations.EngineStepCompletesOrReadsUnwritten`, `Obligations.IssuedCommandIsPerformed` and
`Obligations.CodecIgnoresTheFrame`. -/

namespace Sys2Proof.Machine

/-! ### Reading a region of the buffer (R81, R83) -/

/-- A region with an unwritten cell has a first one. -/
theorem exists_first_unwritten {s : State} {a n : Nat} (h : ∃ k, k < n ∧ s.buf.read? (a + k) = none) :
    ∃ k, k < n ∧ s.buf.read? (a + k) = none ∧ ∀ j, j < k → (s.buf.read? (a + j)).isSome = true := by
  classical
  obtain ⟨hk, hnone⟩ := Nat.find_spec h
  refine ⟨_, hk, hnone, fun j hj => Option.ne_none_iff_isSome.1 fun hj' => ?_⟩
  exact Nat.find_min h hj ⟨hj.trans hk, hj'⟩

/-- A read over an unwritten cell is the fault at the first one (log entry 8). -/
theorem readBytes_of_unwritten {s : State} {a n k : Nat} (hrange : a + n ≤ s.build.bufBytes) (hk : k < n)
    (hnone : s.buf.read? (a + k) = none) (hbefore : ∀ j, j < k → (s.buf.read? (a + j)).isSome = true) :
    s.readBytes a n = .error (.uninitRead (a + k)) := by
  induction n generalizing a k with
  | zero => exact absurd hk (Nat.not_lt_zero k)
  | succ n ih =>
    cases k with
    | zero =>
      have hcell := (readCell_error s a (.uninitRead a)).2 (.inl ⟨by omega, hnone, rfl⟩)
      simp only [State.readBytes, hcell, Nat.add_zero]
    | succ k =>
      obtain ⟨b, hb⟩ := Option.isSome_iff_exists.1 (hbefore 0 (Nat.succ_pos k))
      have hcell := (readCell_ok s a b).2 ⟨by omega, hb⟩
      have hshift (j : Nat) : a + 1 + j = a + (j + 1) := by omega
      have hrest := ih (a := a + 1) (k := k) (by omega) (by omega) (by rwa [hshift]) fun j hj => by
        rw [hshift]
        exact hbefore (j + 1) (by omega)
      simp only [State.readBytes, hcell, hrest, hshift]

/-- A read of a region in the buffer answers its bytes, or faults at an unwritten cell of it. -/
theorem readBytes_of_inRange {s : State} {a n : Nat} (hrange : a + n ≤ s.build.bufBytes) :
    (∃ bs, s.readBytes a n = .ok bs) ∨
    ∃ k, k < n ∧ s.buf.read? (a + k) = none ∧ s.readBytes a n = .error (.uninitRead (a + k)) := by
  by_cases hwritten : ∀ k, k < n → (s.buf.read? (a + k)).isSome = true
  · exact .inl ⟨s.bytesOf a n, (readBytes_ok ..).2 ⟨s.bytesOf_length a n, .inr hrange, holdsBytes_bytesOf hwritten⟩⟩
  · obtain ⟨k, hk, hnone, hbefore⟩ := exists_first_unwritten (s := s) (a := a) (n := n) (by simpa using hwritten)
    exact .inr ⟨k, hk, hnone, readBytes_of_unwritten hrange hk hnone hbefore⟩

/-! ### Every command completes or reads an unwritten cell -/

/-- The two ways an engine step on `s` can end. -/
def CompletesOrReadsUnwritten (s : State) (o : Out) : Prop :=
  (∃ t, o = .next t) ∨ ∃ a, a < s.build.bufBytes ∧ s.buf.read? a = none ∧ o = .fault (.uninitRead a)

section

variable {s : State}

theorem completesOrReadsUnwritten_next (t : State) : CompletesOrReadsUnwritten s (.next t) := .inl ⟨t, rfl⟩

/-- What reads a region of the buffer and then ends so, ends so. -/
theorem completesOrReadsUnwritten_read {a n : Nat} {k : List Byte → Out} (hrange : a + n ≤ s.build.bufBytes)
    (hk : ∀ bs, s.readBytes a n = .ok bs → CompletesOrReadsUnwritten s (k bs)) :
    CompletesOrReadsUnwritten s (orFault (s.readBytes a n) k) := by
  obtain ⟨bs, hbs⟩ | ⟨j, hj, hnone, herr⟩ := readBytes_of_inRange hrange
  · rw [hbs]
    exact hk bs hbs
  · rw [herr]
    exact .inr ⟨a + j, by omega, hnone, rfl⟩

theorem runTransform_completesOrReadsUnwritten (f : Build → Operands → List Byte → Completion) :
    CompletesOrReadsUnwritten s (runTransform f s) := by
  unfold runTransform
  split
  · rename_i hok
    exact completesOrReadsUnwritten_read hok.1 fun bs _ => completesOrReadsUnwritten_next _
  · exact completesOrReadsUnwritten_next _

theorem execFbBegin_completesOrReadsUnwritten : CompletesOrReadsUnwritten s (execFbBegin s) := by
  unfold execFbBegin
  split <;> exact completesOrReadsUnwritten_next _

theorem execFbEnd_completesOrReadsUnwritten : CompletesOrReadsUnwritten s (execFbEnd s) := by
  unfold execFbEnd
  split <;> exact completesOrReadsUnwritten_next _

/-- Appending what fits the open frame does not fault (R46). -/
theorem appendBytes_completesOrReadsUnwritten (hframe : s.FrameInv) (hopen : s.status.frameOpen = true) {bs : List Byte}
    (hroom : s.frame.cur.toNat + bs.length ≤ s.frame.cap.toNat) : CompletesOrReadsUnwritten s (appendBytes s bs) := by
  rw [appendBytes_of_room hroom (hframe hopen).2]
  exact completesOrReadsUnwritten_next _

theorem execFbOpcode_completesOrReadsUnwritten (hframe : s.FrameInv) (imm : Byte) :
    CompletesOrReadsUnwritten s (execFbOpcode imm s) := by
  unfold execFbOpcode
  split
  · exact completesOrReadsUnwritten_next _
  · split
    · exact completesOrReadsUnwritten_next _
    · exact appendBytes_completesOrReadsUnwritten hframe (not_not.1 ‹_›) (not_lt.1 ‹_›)

theorem appendSource_completesOrReadsUnwritten (hframe : s.FrameInv) :
    CompletesOrReadsUnwritten s (appendSource s) := by
  unfold appendSource
  dsimp only
  split
  · exact completesOrReadsUnwritten_next _
  · rename_i hopen
    split
    · exact completesOrReadsUnwritten_next _
    · rename_i hrange
      split
      · exact completesOrReadsUnwritten_next _
      · split
        · exact completesOrReadsUnwritten_next _
        · rename_i hroom
          refine completesOrReadsUnwritten_read (not_not.1 hrange) fun bs hbs => ?_
          obtain ⟨hlen, -⟩ := (readBytes_ok ..).1 hbs
          exact appendBytes_completesOrReadsUnwritten hframe (not_not.1 hopen) (hlen ▸ not_lt.1 hroom)

theorem execFrameParse_completesOrReadsUnwritten : CompletesOrReadsUnwritten s (execFrameParse s) := by
  unfold execFrameParse
  dsimp only
  split
  · exact completesOrReadsUnwritten_next _
  · rename_i hrange
    split
    · exact completesOrReadsUnwritten_next _
    · have hcell : s.lat.srcAddr.toNat < s.build.bufBytes := by omega
      cases hread : s.readCell s.lat.srcAddr.toNat with
      | ok op => exact completesOrReadsUnwritten_next _
      | error f =>
        obtain ⟨-, hnone, rfl⟩ | ⟨hout, -⟩ := (readCell_error ..).1 hread
        · exact .inr ⟨_, hcell, hnone, rfl⟩
        · omega

end

theorem exec_completesOrReadsUnwritten {s : State} (hframe : s.FrameInv) (i : Instr) :
    CompletesOrReadsUnwritten s (exec i s) := by
  cases i with
  | nop => exact completesOrReadsUnwritten_next _
  | encode => exact exec_encode_eq s ▸ runTransform_completesOrReadsUnwritten encodeResult
  | decode => exact exec_decode_eq s ▸ runTransform_completesOrReadsUnwritten decodeResult
  | fbBegin => exact execFbBegin_completesOrReadsUnwritten
  | fbOpcode imm => exact execFbOpcode_completesOrReadsUnwritten hframe imm
  | fbRaw => exact appendSource_completesOrReadsUnwritten hframe
  | fbText => exact appendSource_completesOrReadsUnwritten hframe
  | fbEnd => exact execFbEnd_completesOrReadsUnwritten
  | frameParse => exact execFrameParse_completesOrReadsUnwritten

/-- Settles O10: an illegal word completes, and each command by its checks. -/
theorem engineStepCompletesOrReadsUnwritten : Obligations.EngineStepCompletesOrReadsUnwritten := by
  intro s hframe
  cases hdec : decodeCmd s.latCmd with
  | error e => exact .inl ⟨_, engineStep_of_illegal hdec⟩
  | ok i =>
    rw [engineStep_of_command hdec]
    exact exec_completesOrReadsUnwritten hframe i

/-- Settles O11: with no turn to come the step is the engine's, which completes or faults. -/
theorem issuedCommandIsPerformed : Obligations.IssuedCommandIsPerformed := by
  intro s hwf hframe hbusy hagenda
  rw [step_of_no_turn hwf hagenda, engineTurn_of_busy hbusy]
  obtain ⟨t, ht⟩ | ⟨a, -, -, hfault⟩ := engineStepCompletesOrReadsUnwritten s hframe
  · obtain ⟨hidle, hdone, -⟩ := everyCompletionSetsDone s t ht
    exact .inl ⟨t, ht, hidle, hdone⟩
  · exact .inr ⟨a, hfault⟩

/-! ### The frame state is not looked at (R46) -/

/-- The state with another frame state. -/
def State.withFrame (s : State) (f : FrameState) (o : Bool) : State :=
  { s with frame := f, status := { s.status with frameOpen := o } }

theorem Completion.onto_withFrame (r : Completion) (s : State) (f : FrameState) (o : Bool) :
    r.onto (s.withFrame f o) = (r.onto s).withFrame f o := by
  obtain ⟨out, addr, info, _ | e⟩ := r <;> rfl

/-- A transform's command sees the build, the operands and memory only. -/
theorem runTransform_withFrame {g : Build → Operands → List Byte → Completion} {s t : State} (f : FrameState) (o : Bool)
    (h : runTransform g s = .next t) : runTransform g (s.withFrame f o) = .next (t.withFrame f o) := by
  obtain ⟨hbad, rfl⟩ | ⟨hok, inp, hsrc, rfl⟩ := runTransform_next.1 h
  · exact runTransform_next.2 (.inl ⟨hbad, (Completion.onto_withFrame ..).symm⟩)
  · exact runTransform_next.2 (.inr ⟨hok, inp, hsrc, (Completion.onto_withFrame ..).symm⟩)

/-- `FRAME_PARSE` of an unwritten first byte is the fault (R83, R210). -/
theorem exec_frameParse_of_unwritten {s : State} (hrange : InRange s.build s.lat.srcAddr.toNat s.lat.srcLen.toNat)
    (hlen : s.lat.srcLen ≠ 0) (hnone : s.buf.read? s.lat.srcAddr.toNat = none) :
    exec .frameParse s = .fault (.uninitRead s.lat.srcAddr.toNat) := by
  have hpos : s.lat.srcLen.toNat ≠ 0 := fun h => hlen (BitVec.eq_of_toNat_eq h)
  have hcell := (readCell_error s s.lat.srcAddr.toNat _).2 (.inl ⟨by omega, hnone, rfl⟩)
  simp only [exec, execFrameParse, if_neg (not_not_intro hrange), if_neg hpos, hcell, orFault]

theorem exec_frameParse_withFrame {s t : State} (f : FrameState) (o : Bool) (h : exec .frameParse s = .next t) :
    exec .frameParse (s.withFrame f o) = .next (t.withFrame f o) := by
  obtain ⟨hbad, hempty, hparse⟩ := frameParseSplitsTheFrame s
  obtain ⟨hbad', hempty', hparse'⟩ := frameParseSplitsTheFrame (s.withFrame f o)
  by_cases hrange : InRange s.build s.lat.srcAddr.toNat s.lat.srcLen.toNat
  · by_cases hlen : s.lat.srcLen = 0
    · obtain rfl := Host.Outcome.next.inj ((hempty hrange hlen).symm.trans h)
      exact hempty' hrange hlen
    · cases hop : s.buf.read? s.lat.srcAddr.toNat with
      | none => simp [exec_frameParse_of_unwritten hrange hlen hop] at h
      | some op =>
        obtain rfl := Host.Outcome.next.inj ((hparse op hrange hlen hop).symm.trans h)
        exact hparse' op hrange hlen hop
  · obtain rfl := Host.Outcome.next.inj ((hbad hrange).symm.trans h)
    exact hbad' hrange

/-- Settles O37: `ENCODE` and `DECODE` are transforms, and the other two look at no more. -/
theorem codecIgnoresTheFrame : Obligations.CodecIgnoresTheFrame := by
  intro i s t f o hi h
  obtain rfl | rfl | rfl | rfl := hi
  · obtain rfl := Host.Outcome.next.inj h
    rfl
  · rw [exec_encode_eq] at h ⊢
    exact runTransform_withFrame f o h
  · rw [exec_decode_eq] at h ⊢
    exact runTransform_withFrame f o h
  · exact exec_frameParse_withFrame f o h

end Sys2Proof.Machine
end

section
/-! Host accesses to the buffer (spec/20_memory.md R74, R83, spec/70_reset_and_hazards.md R333, R334): byte and word
reads of written and unwritten cells, byte and word writes outside and inside the in-flight regions; the proofs of
`Obligations.HostBufferAccess`, `Obligations.ReadsWhileBusy`, `Obligations.HostWriteWhileBusy` and
`Obligations.UnwrittenReadsFault`. -/

namespace Sys2Proof.Machine

/-! ### Words and their bytes (R75) -/

/-- Putting a byte above the bits of a smaller word adds its weight. -/
theorem toNat_or_shiftLeft {x : Word} {k : Nat} (b : Byte) (hx : x.toNat < 2 ^ k) (hk : k ≤ 24) :
    (x ||| (b.setWidth 32 <<< k)).toNat = x.toNat + 2 ^ k * b.toNat := by
  have hpow : 2 ^ k ≤ 2 ^ 24 := Nat.pow_le_pow_right (by omega) hk
  have hsmall : b.toNat * 2 ^ k < 2 ^ 32 :=
    (Nat.mul_lt_mul_of_lt_of_le b.isLt hpow (by decide)).trans_le (by decide)
  have hbyte : (b.setWidth 32).toNat = b.toNat := by
    rw [BitVec.toNat_setWidth, Nat.mod_eq_of_lt (b.isLt.trans (by decide))]
  rw [BitVec.toNat_or, BitVec.toNat_shiftLeft, hbyte, Nat.shiftLeft_eq, Nat.mod_eq_of_lt hsmall, Nat.or_comm,
    ← Nat.shiftLeft_eq, ← Nat.shiftLeft_add_eq_or_of_lt hx, Nat.shiftLeft_eq, Nat.add_comm, Nat.mul_comm]

theorem composeWord_toNat (b0 b1 b2 b3 : Byte) :
    (composeWord b0 b1 b2 b3).toNat = b0.toNat + 256 * b1.toNat + 65536 * b2.toNat + 16777216 * b3.toNat := by
  have h0 : (b0.setWidth 32).toNat = b0.toNat := by
    rw [BitVec.toNat_setWidth, Nat.mod_eq_of_lt (b0.isLt.trans (by decide))]
  have h1 := toNat_or_shiftLeft (k := 8) b1 (h0.trans_lt b0.isLt) (by decide)
  have h2 := toNat_or_shiftLeft (x := b0.setWidth 32 ||| (b1.setWidth 32 <<< 8)) (k := 16) b2 (by omega) (by decide)
  have h3 := toNat_or_shiftLeft
    (x := b0.setWidth 32 ||| (b1.setWidth 32 <<< 8) ||| (b2.setWidth 32 <<< 16)) (k := 24) b3 (by omega) (by decide)
  rw [composeWord]
  omega

/-- The lanes of a composed word are its bytes. -/
theorem composeWord_lanes (b0 b1 b2 b3 : Byte) :
    (composeWord b0 b1 b2 b3).toNat % 256 = b0.toNat ∧ (composeWord b0 b1 b2 b3).toNat / 256 % 256 = b1.toNat ∧
      (composeWord b0 b1 b2 b3).toNat / 65536 % 256 = b2.toNat ∧
      (composeWord b0 b1 b2 b3).toNat / 16777216 = b3.toNat := by
  have := b0.isLt
  have := b1.isLt
  have := b2.isLt
  have := b3.isLt
  rw [composeWord_toNat]
  omega

theorem extractByte_eq (v : Word) (j : Nat) : v.extractLsb' j 8 = BitVec.ofNat 8 (v.toNat / 2 ^ j) := by
  rw [← Nat.shiftRight_eq_div_pow]
  rfl

theorem splitWord_eq (v : Word) :
    splitWord v = [BitVec.ofNat 8 v.toNat, BitVec.ofNat 8 (v.toNat / 256), BitVec.ofNat 8 (v.toNat / 65536),
      BitVec.ofNat 8 (v.toNat / 16777216)] := by
  simp only [splitWord, extractByte_eq, Nat.pow_zero, Nat.div_one]
  rfl

/-! ### Host reads (R74, R83, R333) -/

/-- What a host read of a written cell answers: any byte, the free value `s.fresh + k`, in the in-flight destination,
and the cell's byte elsewhere (R333). -/
def State.seen (s : State) (i k : Nat) (b : Byte) : Byte :=
  if s.inflightDst.Holds i then Config.freeByte (s.fresh + k) else b

theorem State.seen_of_not_holds {s : State} {i : Nat} (k : Nat) (b : Byte) (h : ¬ s.inflightDst.Holds i) :
    s.seen i k b = b := if_neg h

section

variable {s : State} {i : Nat}

theorem hostReadCell_written (k : Nat) {b : Byte} (hi : i < s.build.bufBytes) (hb : s.buf.read? i = some b) :
    hostReadCell s i k = .ok (s.seen i k b) := by
  simp only [hostReadCell, (readCell_ok s i b).2 ⟨hi, hb⟩, State.seen]

theorem hostReadCell_unwritten (k : Nat) (hi : i < s.build.bufBytes) (hnone : s.buf.read? i = none) :
    hostReadCell s i k = .error (.uninitRead i) := by
  simp only [hostReadCell, (readCell_error s i _).2 (.inl ⟨hi, hnone, rfl⟩)]

variable (hwf : s.build.wellFormed = true)
include hwf

theorem hostTurn_LB (hi : i < s.build.bufBytes) :
    hostTurn (.read .w8 (BitVec.ofNat 32 (0x10000 + i))) s = busReadByte s i := by
  simp only [hostTurn, show 0x10000 = bufWindow from rfl, busTarget_byte hwf hi]

theorem hostTurn_LW (halign : i % 4 = 0) (hi : i + 4 ≤ s.build.bufBytes) :
    hostTurn (.read .w32 (BitVec.ofNat 32 (0x10000 + i))) s = busReadWord s i := by
  simp only [hostTurn, show 0x10000 = bufWindow from rfl, busTarget_word hwf halign hi]

theorem hostTurn_SB (v : Word) (hi : i < s.build.bufBytes) :
    hostTurn (.write .w8 (BitVec.ofNat 32 (0x10000 + i)) v) s = busWriteBytes s i [BitVec.ofNat 8 v.toNat] := by
  simp only [hostTurn, show 0x10000 = bufWindow from rfl, busTarget_byte hwf hi, extractByte_eq, Nat.pow_zero,
    Nat.div_one]

theorem hostTurn_SW (v : Word) (halign : i % 4 = 0) (hi : i + 4 ≤ s.build.bufBytes) :
    hostTurn (.write .w32 (BitVec.ofNat 32 (0x10000 + i)) v) s = busWriteBytes s i (splitWord v) := by
  simp only [hostTurn, show 0x10000 = bufWindow from rfl, busTarget_word hwf halign hi]

theorem hostTurn_LB_written {b : Byte} (hi : i < s.build.bufBytes) (hb : s.buf.read? i = some b) :
    hostTurn (.read .w8 (BitVec.ofNat 32 (0x10000 + i))) s =
      .next ((s.useFresh 1).respond (.byte (s.seen i 0 b))) := by
  rw [hostTurn_LB hwf hi, busReadByte, hostReadCell_written 0 hi hb, orFault]

theorem hostTurn_LB_unwritten (hi : i < s.build.bufBytes) (hnone : s.buf.read? i = none) :
    hostTurn (.read .w8 (BitVec.ofNat 32 (0x10000 + i))) s = .fault (.uninitRead i) := by
  rw [hostTurn_LB hwf hi, busReadByte, hostReadCell_unwritten 0 hi hnone, orFault]

theorem hostTurn_LW_written {b0 b1 b2 b3 : Byte} (halign : i % 4 = 0) (hi : i + 4 ≤ s.build.bufBytes)
    (hbytes : s.HoldsBytes i [b0, b1, b2, b3]) :
    hostTurn (.read .w32 (BitVec.ofNat 32 (0x10000 + i))) s =
      .next ((s.useFresh 4).respond (.word (composeWord (s.seen i 0 b0) (s.seen (i + 1) 1 b1)
        (s.seen (i + 2) 2 b2) (s.seen (i + 3) 3 b3)))) := by
  rw [hostTurn_LW hwf halign hi, busReadWord,
    hostReadCell_written (i := i) 0 (by omega) (hbytes 0 (by simp)), orFault,
    hostReadCell_written 1 (by omega) (hbytes 1 (by simp)), orFault,
    hostReadCell_written 2 (by omega) (hbytes 2 (by simp)), orFault,
    hostReadCell_written 3 (by omega) (hbytes 3 (by simp)), orFault]
  rfl

/-- A word read faults at its first unwritten cell (R83, log entry 8). -/
theorem hostTurn_LW_unwritten {k : Nat} (halign : i % 4 = 0) (hi : i + 4 ≤ s.build.bufBytes) (hk : k < 4)
    (hnone : s.buf.read? (i + k) = none) (hbefore : ∀ j, j < k → (s.buf.read? (i + j)).isSome = true) :
    hostTurn (.read .w32 (BitVec.ofNat 32 (0x10000 + i))) s = .fault (.uninitRead (i + k)) := by
  have hok (j : Nat) (hj : j < k) : ∃ b, hostReadCell s (i + j) j = .ok b := by
    obtain ⟨b, hb⟩ := Option.isSome_iff_exists.1 (hbefore j hj)
    exact ⟨_, hostReadCell_written j (by omega) hb⟩
  have herr := hostReadCell_unwritten k (by omega) hnone
  rw [hostTurn_LW hwf halign hi, busReadWord]
  match k with
  | 0 => rw [show i = i + 0 from rfl, herr, orFault]
  | 1 =>
    obtain ⟨b0, h0⟩ := hok 0 (by decide)
    rw [Nat.add_zero] at h0
    rw [h0, orFault, herr, orFault]
  | 2 =>
    obtain ⟨b0, h0⟩ := hok 0 (by decide)
    obtain ⟨b1, h1⟩ := hok 1 (by decide)
    rw [Nat.add_zero] at h0
    rw [h0, orFault, h1, orFault, herr, orFault]
  | 3 =>
    obtain ⟨b0, h0⟩ := hok 0 (by decide)
    obtain ⟨b1, h1⟩ := hok 1 (by decide)
    obtain ⟨b2, h2⟩ := hok 2 (by decide)
    rw [Nat.add_zero] at h0
    rw [h0, orFault, h1, orFault, h2, orFault, herr, orFault]

end

/-! ### Host writes (R74, R334) -/

/-- No command is in flight in an idle block (R333). -/
theorem not_inflight_of_idle {s : State} (hidle : s.status.busy = false) (x : Nat) :
    ¬ (s.inflightSrc.Holds x ∨ s.inflightDst.Holds x) := by
  rw [inflightSrc_holds_iff, inflightDst_holds_iff]
  simp [hidle]

theorem inflightCell?_some {s : State} {i n a : Nat} (h : inflightCell? s i n = some a) :
    ∃ k, k < n ∧ a = i + k ∧ (s.inflightSrc.Holds (i + k) ∨ s.inflightDst.Holds (i + k)) := by
  induction n generalizing i with
  | zero => simp [inflightCell?] at h
  | succ n ih =>
    unfold inflightCell? at h
    split at h
    · exact ⟨0, Nat.succ_pos n, (Option.some.inj h).symm, ‹_›⟩
    · obtain ⟨k, hk, rfl, hholds⟩ := ih h
      have hshift : i + 1 + k = i + (k + 1) := by omega
      exact ⟨k + 1, Nat.succ_lt_succ hk, hshift, hshift ▸ hholds⟩

/-- A host write outside the in-flight regions writes its bytes and nothing else. -/
theorem busWriteBytes_free {s : State} {i : Nat} {bs : List Byte} (hrange : InRange s.build i bs.length)
    (hfree : ∀ k, k < bs.length → ¬ (s.inflightSrc.Holds (i + k) ∨ s.inflightDst.Holds (i + k))) :
    ∃ t, busWriteBytes s i bs = .next t ∧ t = { s with buf := t.buf, busLog := .ack :: s.busLog } ∧
      t.HoldsBytes i bs ∧ SameOutside s t i bs.length := by
  have hcell := (inflightCell?_none s i bs.length).2 fun k hk => not_or.1 (hfree k hk)
  refine ⟨State.respond { s with buf := s.buf.writeList i bs } .ack, ?_, rfl, holdsBytes_written s i bs,
    sameOutside_written s i bs⟩
  simp only [busWriteBytes, hcell, writeBytes_inRange s i bs hrange, orFault]

/-- A host write that touches an in-flight region is the fault at a cell of it. -/
theorem busWriteBytes_inflight {s : State} {i : Nat} {bs : List Byte}
    (h : ∃ k, k < bs.length ∧ (s.inflightSrc.Holds (i + k) ∨ s.inflightDst.Holds (i + k))) :
    ∃ k, k < bs.length ∧ (s.inflightSrc.Holds (i + k) ∨ s.inflightDst.Holds (i + k)) ∧
      busWriteBytes s i bs = .fault (.hostWriteWhileBusy (i + k)) := by
  cases hcell : inflightCell? s i bs.length with
  | none =>
    obtain ⟨k, hk, hholds⟩ := h
    exact absurd hholds (not_or.2 ((inflightCell?_none ..).1 hcell k hk))
  | some a =>
    obtain ⟨k, hk, rfl, hholds⟩ := inflightCell?_some hcell
    exact ⟨k, hk, hholds, by simp only [busWriteBytes, hcell]⟩

section

variable {s : State} {i : Nat} (hwf : s.build.wellFormed = true)
include hwf

theorem hostTurn_SB_free (v : Word) (hi : i < s.build.bufBytes)
    (hfree : ¬ (s.inflightSrc.Holds i ∨ s.inflightDst.Holds i)) :
    ∃ t, hostTurn (.write .w8 (BitVec.ofNat 32 (0x10000 + i)) v) s = .next t ∧
      t = { s with buf := t.buf, busLog := .ack :: s.busLog } ∧
      t.buf.read? i = some (BitVec.ofNat 8 v.toNat) ∧ SameOutside s t i 1 := by
  rw [hostTurn_SB hwf v hi]
  obtain ⟨t, hnext, hrest, hholds, hsame⟩ := busWriteBytes_free (s := s) (i := i) (bs := [BitVec.ofNat 8 v.toNat])
    hi fun k hk => by rwa [Nat.lt_one_iff.1 hk]
  exact ⟨t, hnext, hrest, hholds 0 Nat.one_pos, hsame⟩

theorem hostTurn_SW_free (v : Word) (halign : i % 4 = 0) (hi : i + 4 ≤ s.build.bufBytes)
    (hfree : ∀ k, k < 4 → ¬ (s.inflightSrc.Holds (i + k) ∨ s.inflightDst.Holds (i + k))) :
    ∃ t, hostTurn (.write .w32 (BitVec.ofNat 32 (0x10000 + i)) v) s = .next t ∧
      t = { s with buf := t.buf, busLog := .ack :: s.busLog } ∧
      t.HoldsBytes i
        [BitVec.ofNat 8 v.toNat, BitVec.ofNat 8 (v.toNat / 256), BitVec.ofNat 8 (v.toNat / 65536),
          BitVec.ofNat 8 (v.toNat / 16777216)] ∧
      SameOutside s t i 4 := by
  rw [hostTurn_SW hwf v halign hi, splitWord_eq]
  exact busWriteBytes_free hi hfree

end

/-! ### The obligations -/

/-- A 16-bit access of the buffer and a misaligned 32-bit one reach nothing (R74). -/
theorem busTarget_buffer_nothing {b : Build} (hwf : b.wellFormed = true) {w : Width} {i : Nat} (hi : i < b.bufBytes)
    (hw : w = .w16 ∨ (w = .w32 ∧ i % 4 ≠ 0)) : busTarget b w (BitVec.ofNat 32 (0x10000 + i)) = .nothing := by
  have hsize : b.bufBytes ≤ 16777216 := by
    simp only [Build.wellFormed, Bool.and_eq_true, Nat.ble_eq] at hwf
    exact hwf.2
  have haddr : (BitVec.ofNat 32 (0x10000 + i)).toNat = 0x10000 + i := bufferAddr_toNat i (by omega)
  exact busTarget_of_badBuffer (by omega) (by omega) (hw.imp_right fun h => ⟨h.1, by omega⟩)

/-- Settles O51: the accesses of a block with no command in flight, which sees every cell as it is. -/
theorem hostBufferAccess : Obligations.HostBufferAccess := by
  intro s i v hwf hidle
  have hfree := not_inflight_of_idle hidle
  have hseen (j k : Nat) (b : Byte) : s.seen j k b = b :=
    State.seen_of_not_holds k b fun h => hfree j (.inr h)
  refine ⟨fun b hi hb => ?_, fun hi => hostTurn_SB_free hwf v hi (hfree i), fun b0 b1 b2 b3 halign hi hbytes => ?_,
    fun halign hi => hostTurn_SW_free hwf v halign hi fun k _ => hfree (i + k), fun w hi hw => ?_⟩
  · rw [hostTurn_LB_written hwf hi hb, hseen]
    exact ⟨_, rfl, rfl⟩
  · rw [hostTurn_LW_written hwf halign hi hbytes]
    simp only [hseen]
    exact ⟨_, _, rfl, rfl, composeWord_toNat b0 b1 b2 b3⟩
  · have hnothing := busTarget_buffer_nothing hwf hi hw
    exact ⟨hostTurn_read_nothing hnothing, hostTurn_write_nothing v hnothing⟩

/-- Settles O54: a read sees a cell outside the in-flight destination as it is, and faults on an unwritten one. -/
theorem readsWhileBusy : Obligations.ReadsWhileBusy := by
  intro s hwf hbusy
  refine ⟨fun addr haddr => ?_, fun i b hi hb _ => ?_, fun i b hi hb hout => ?_,
    fun i => hostTurn_LB_unwritten hwf, fun i halign hi hgap => ?_, fun i b0 b1 b2 b3 halign hi hbytes => ?_⟩
  · obtain ⟨r, hoff⟩ : ∃ r, addr.toNat = regOffset r := by
      obtain h | h | h | h := haddr
      exacts [⟨.resAddr, h⟩, ⟨.resLen, h⟩, ⟨.resOpcode, h⟩, ⟨.errInfo, h⟩]
    obtain ⟨n, x, hread⟩ := busReadReg_eq_respond s (some r)
    refine ⟨(s.useFresh n).respond (.word x), x, ?_, rfl⟩
    rw [addr_eq_of_regOffset hoff, ← hread]
    exact hostTurn_RD r s
  · exact ⟨_, _, hostTurn_LB_written hwf hi hb, rfl⟩
  · rw [hostTurn_LB_written hwf hi hb, State.seen_of_not_holds 0 b hout]
    exact ⟨_, rfl, rfl⟩
  · obtain ⟨k, hk, hnone, hbefore⟩ := exists_first_unwritten hgap
    exact ⟨k, hk, hnone, hostTurn_LW_unwritten hwf halign hi hk hnone hbefore⟩
  · refine ⟨_, _, hostTurn_LW_written hwf halign hi hbytes, rfl, ?_⟩
    obtain ⟨h0, h1, h2, h3⟩ :=
      composeWord_lanes (s.seen i 0 b0) (s.seen (i + 1) 1 b1) (s.seen (i + 2) 2 b2) (s.seen (i + 3) 3 b3)
    exact ⟨fun h => h0.trans (by rw [State.seen_of_not_holds 0 b0 h]),
      fun h => h1.trans (by rw [State.seen_of_not_holds 1 b1 h]),
      fun h => h2.trans (by rw [State.seen_of_not_holds 2 b2 h]),
      fun h => h3.trans (by rw [State.seen_of_not_holds 3 b3 h])⟩

/-- Settles O55: a write that touches an in-flight cell finds one, and any other is written. -/
theorem hostWriteWhileBusy : Obligations.HostWriteWhileBusy := by
  intro s i v hwf _
  refine ⟨fun hi hholds => ?_, fun hi => hostTurn_SB_free hwf v hi, fun halign hi hholds => ?_,
    fun halign hi => hostTurn_SW_free hwf v halign hi⟩
  · rw [hostTurn_SB hwf v hi]
    obtain ⟨k, hk, -, hfault⟩ := busWriteBytes_inflight (bs := [BitVec.ofNat 8 v.toNat]) ⟨0, Nat.one_pos, hholds⟩
    rwa [Nat.lt_one_iff.1 hk] at hfault
  · rw [hostTurn_SW hwf v halign hi]
    exact busWriteBytes_inflight (bs := splitWord v) hholds

/-- A transform's command on an unwritten source is the fault at its first unwritten cell (R83). -/
theorem runTransform_of_unwritten {s : State} (f : Build → Operands → List Byte → Completion) {k : Nat}
    (hok : s.RegionsOk) (hk : k < s.lat.srcLen.toNat) (hnone : s.buf.read? (s.lat.srcAddr.toNat + k) = none)
    (hbefore : ∀ j, j < k → (s.buf.read? (s.lat.srcAddr.toNat + j)).isSome = true) :
    runTransform f s = .fault (.uninitRead (s.lat.srcAddr.toNat + k)) := by
  rw [runTransform, if_pos hok, readBytes_of_unwritten hok.1 hk hnone hbefore, orFault]

/-- Settles O52: each command past its checks reads its source, and each host read its cells. -/
theorem unwrittenReadsFault : Obligations.UnwrittenReadsFault := by
  refine fun s => ⟨fun k hk hnone hbefore => ⟨fun hok => ?_, fun hopen hrange hapart hroom => ?_⟩,
    exec_frameParse_of_unwritten, fun i hwf => hostTurn_LB_unwritten hwf, fun i k hwf => hostTurn_LW_unwritten hwf⟩
  · rw [exec_encode_eq, exec_decode_eq]
    exact ⟨runTransform_of_unwritten _ hok hk hnone hbefore, runTransform_of_unwritten _ hok hk hnone hbefore⟩
  · have hread := readBytes_of_unwritten hrange hk hnone hbefore
    rw [exec_fbText, and_self]
    simp only [exec, execFbRaw, appendSource, hopen, hrange, not_true, if_false, if_neg hapart,
      if_neg (not_lt.2 hroom), hread, orFault]

end Sys2Proof.Machine
end
